-- ==== Sys2Proof/Word.lean ====
section
/-!
DEFINITION. The word types of the command interface and of the arithmetic.
-/

namespace Sys2Proof

/-- One byte of the byte-serial command transport (spec 30_encoding R73). -/
abbrev Byte := BitVec 8

/-- One 64-bit operand or result word (spec 30_encoding R73), bit 0 the least significant (spec 00_scope R10). -/
abbrev Word := BitVec 64

/-- A "real": an IEEE 754 binary64 value as its bit pattern (spec 00_scope R9, 30_encoding R74):
bit 63 the sign, bits 62 to 52 the biased exponent, bits 51 to 0 the fraction. -/
abbrev F64 := BitVec 64

end Sys2Proof
end

