-- ==== Sys2Proof/Config.lean ====
section
/-!
DEFINITION. What an instance fixes for its life (the OPEN parameters of spec 00_scope R7) and the free values.
-/

namespace Sys2Proof

/-- The modulation types (spec 30_encoding R78). -/
inductive ModType where
  | flanger | vibrato | chorus
deriving DecidableEq, Repr, Inhabited

/-- A base delay time a tap chains from (spec 41_tap_resolver R121). -/
inductive Base where
  | short | long
deriving DecidableEq, Repr, Inhabited

/-- A row of the tap schedule: one to four taps, each with its base (spec 41_tap_resolver R121). -/
inductive SchedRow where
  | one (a : Base)
  | two (a b : Base)
  | three (a b c : Base)
  | four (a b c d : Base)
deriving DecidableEq, Repr, Inhabited

/-- The two modes that support modulation (spec 42_process R142): the row index of `MOD_RANGE`. -/
inductive ModMode where
  | mode1 | mode2
deriving DecidableEq, Repr, Inhabited

/-- The arithmetic operations of the spec's pseudocode, each named once, so that a NaN result of each draws a free bit
pattern of its own (spec 00_scope R9). `k` is the tap number 0 to 3, and 4 for the modulated tap. -/
inductive FpSite where
  | spms | chain (k : Nat)
  | msToSamples (k : Nat) | ringFrac (k : Nat) | ringRest (k : Nat) | ringFar (k : Nat) | ringNear (k : Nat)
  | ringBlend (k : Nat)
  | avgSum (k : Nat) | avgQuot | fbTerm (k : Nat) | fbSum (k : Nat) | fbGain | fbScaled | writeSum
  | wetTerm | dryWeight | dryTerm | mixSum
  | lfoInc | lfoHalf | lfoUni | lfoAdvance | lfoWrap
  | depthScale | depthDouble | modScale | modSpan | modDelay | modHalf | modCentre
  | modFbGain | modFbScaled | modWrite | modDryDb | modWetDb | modDry | modWet | modMix
  | detSquare | detDiff | detScale | detSum | detClamp | detRoot | detDb
  | scExponent | scLow | scHigh | scScale | scOffset
deriving DecidableEq, Repr

/-- The OPEN parameters of spec 00_scope R7, as raw values and functions. The constraints R7 puts on them are applied
where they are read (Machine/Params.lean), so that every admitted instance, and no other, is some value of this record. -/
structure Params where
  /-- `RING_LEN_FN` -/
  ringLenRaw : F64 → Nat
  /-- `MAX_RING_LEN` -/
  maxRingLenRaw : Nat
  /-- `TAP_SCHEDULE`, rows 2 to 13, by mode number -/
  tapSchedule : Nat → SchedRow
  /-- `MOD_RANGE`, the `modMin` of each cell, in ms -/
  modMinRaw : ModMode → ModType → F64
  /-- `MOD_RANGE`, the `modDepthRange` of each cell, in ms -/
  modRngRaw : ModMode → ModType → F64
  /-- `MOD_DRY_DB` -/
  modDryDbRaw : ModType → F64
  /-- `MOD_WET_DB` -/
  modWetDbRaw : ModType → F64
  /-- `FLANGER_FB_PCT` -/
  flangerFbPctRaw : F64
  /-- `LFO_WAVE` -/
  lfoWaveRaw : F64 → F64
  /-- `DET_COEF`, of a time in ms and a rate in Hz -/
  detCoefRaw : F64 → F64 → F64
  /-- `DET_DB_FLOOR` -/
  detDbFloor : F64
  /-- `DET_FLUSH` -/
  detFlush : F64
  /-- `LOG10` -/
  log10 : F64 → F64
  /-- `POW10` -/
  pow10 : F64 → F64
  /-- `N_CHANNELS` -/
  nChannels : Nat
deriving Inhabited

/-- The instance's parameters: fixed for its life (spec 10_state R38), without a value in any source. DESIGN CHOICE (n6). -/
opaque Config.hw : Params

/-- The name of one draw of free NaN bits: the instance that draws (its channel in a system) and how many draws it made before.
Two instances of a system never make the same draw, so nothing ties the NaNs of one channel to those of another (n3). -/
structure NanDraw where
  source : Nat
  count : Nat
deriving DecidableEq, Repr

/-- The next draw of the same instance. -/
def NanDraw.next (d : NanDraw) : NanDraw := { d with count := d.count + 1 }

/-- The sign (bit 52) and the payload (bits 51 to 0) of a NaN result, which the spec leaves open (spec 00_scope R9,
93_implementation_defined U20): a free value, by the draw (the instance and its count) and the operation.
DESIGN CHOICE (n3), safe. -/
opaque Config.freeNan : NanDraw → FpSite → BitVec 53

end Sys2Proof
end

