-- ==== Sys2Proof/Syntax.lean ====
section
/-!
DEFINITION. The commands, one constructor per row of spec/opcode_table.json, with their operand words.
-/

namespace Sys2Proof

/-- The parameter packet of `SETP` and `GETP`: nine words, in the order of spec 30_encoding R76.
Any nine words make a packet; whether the values are in contract is checked by `SETP` (spec 41_tap_resolver R128). -/
structure Packet where
  /-- word 0, binary64 -/
  feedbackPct : F64
  /-- word 1, binary64 -/
  blend : F64
  /-- word 2, natural -/
  modeSelectorValue : Word
  /-- word 3, binary64 -/
  delayTimeShortMs : F64
  /-- word 4, binary64 -/
  delayTimeLongMs : F64
  /-- word 5, binary64 -/
  modDepthPct : F64
  /-- word 6, binary64 -/
  modRateHz : F64
  /-- word 7, natural -/
  modType : Word
  /-- word 8, flags: bit 0 `enableMod`, bit 1 `enableSidechain`, the rest reserved (spec 30_encoding R77) -/
  flags : Word
deriving DecidableEq, Repr

/-- A command with its operand words (spec 30_encoding R70, R72). -/
inductive Instr where
  /-- `RESET fs` (spec 45_control R220) -/
  | reset (fs : F64)
  /-- `SETP pk` (spec 41_tap_resolver R127) -/
  | setp (pk : Packet)
  /-- `GETP` (spec 41_tap_resolver R129) -/
  | getp
  /-- `PROC x` (spec 42_process R140) -/
  | proc (x : F64)
  /-- `AUXEN e` (spec 44_sidechain R200) -/
  | auxen (e : Word)
  /-- `AUXIN a` (spec 44_sidechain R201) -/
  | auxin (a : F64)
  /-- `GETS` (spec 45_control R225) -/
  | gets
deriving DecidableEq, Repr

end Sys2Proof
end

