-- ==== Sys2Proof/Machine/State.lean ====
section
/-!
DEFINITION. The state of one engine instance (spec 10_state R20 to R35), the fault causes, and the power-on state
(spec 70_reset_and_hazards R260).
-/

namespace Sys2Proof.Machine

/-- `LAST_PATH`: which path the last `PROC` took (spec 10_state R34). -/
inductive Path where
  /-- 0: no `PROC` since power-on or the last `RESET` -/
  | none
  /-- 1 -/
  | static
  /-- 2 -/
  | modulated
deriving DecidableEq, Repr

/-- The active parameter bank `PARAM` (spec 10_state R25). -/
structure ParamBank where
  feedbackPct : F64
  blend : F64
  modeSelectorValue : Word
  delayTimeShortMs : F64
  delayTimeLongMs : F64
  modDepthPct : F64
  modRateHz : F64
  modType : ModType
  enableMod : Bool
  enableSidechain : Bool
deriving DecidableEq, Repr

/-- `TAP_MS[0..3]`, the resolved tap times in ms (spec 10_state R27). -/
structure Taps where
  t0 : F64
  t1 : F64
  t2 : F64
  t3 : F64
deriving DecidableEq, Repr

/-- A delay ring (spec 10_state R28, R29): its cells and its write pointer. The cells are the list of the (index, value)
pairs that do not hold `+0.0`, indices strictly rising; an unlisted cell holds `+0.0` (spec 20_memory R62). -/
structure Ring where
  cells : List (Nat × F64)
  wp : Nat
deriving DecidableEq, Repr

/-- The fault causes of spec 60_exceptions R241. -/
inductive Cause where
  /-- 1 `F_ILLEGAL_CMD` -/
  | illegalCmd
  /-- 2 `F_BAD_RATE` -/
  | badRate
  /-- 3 `F_UNCONFIGURED` -/
  | unconfigured
  /-- 4 `F_NO_PARAMS` -/
  | noParams
  /-- 5 `F_PARAM_RANGE` -/
  | paramRange
  /-- 6 `F_DELAY_RANGE` -/
  | delayRange
  /-- 7 `F_LFO_RATE` -/
  | lfoRate
deriving DecidableEq, Repr

/-- The state tuple of spec 10_state R20, and after it the model's own fields. -/
structure State where
  /-- `CONFIGURED` (R21) -/
  configured : Bool
  /-- `FS` (R22) -/
  fs : F64
  /-- `SPMS` (R23) -/
  spms : F64
  /-- `C`, the length of each ring in cells (R24) -/
  ringLen : Nat
  /-- `PARAM` (R25) -/
  param : ParamBank
  /-- `PARAMS_VALID` (R26) -/
  paramsValid : Bool
  /-- `TAP_COUNT` (R27) -/
  tapCount : Nat
  /-- `TAP_MS[0..3]` (R27) -/
  tapMs : Taps
  /-- `S_RING` and `S_WP` (R28) -/
  sRing : Ring
  /-- `M_RING` and `M_WP` (R29) -/
  mRing : Ring
  /-- `LFO_PHASE` (R30) -/
  lfoPhase : F64
  /-- `DET_ENV` (R31) -/
  detEnv : F64
  /-- `DET_ATT` (R32) -/
  detAtt : F64
  /-- `DET_REL` (R32) -/
  detRel : F64
  /-- `AUX_EN` (R33) -/
  auxEn : Bool
  /-- `AUX_SAMPLE` (R33) -/
  auxSample : F64
  /-- `LAST_PATH` (R34) -/
  lastPath : Path
  /-- `FAULT` (R35) -/
  fault : Bool
  /-- `FAULT_CAUSE` (R35) -/
  faultCause : Nat
  /-- the model's own (n4): the bytes of the host's command stream still to be performed -/
  hostIn : List Byte
  /-- the model's own (n4): the result words of all commands performed so far, in order (spec 70_reset_and_hazards R273) -/
  hostOut : List Word
  /-- the model's own (n3): the next draw of free NaN bits, of this instance alone -/
  nanDraw : NanDraw
deriving DecidableEq, Repr

/-- Why a step answers no next state. -/
inductive Fault where
  /-- Raised by `step` alone, at a state with `FAULT = 1`: "a faulted state is final and has no step"
  (spec 60_exceptions R243). `cause` is `FAULT_CAUSE`. Safe: nothing is claimed of the hardware after a contract violation. -/
  | stuck (cause : Nat)
deriving DecidableEq, Repr

/-- Why a step refuses. No meaning of this model refuses. -/
inductive Refusal where
  /-- Raised by an arm of `exec` whose instruction has no meaning yet (none here). Safe. -/
  | notModelled (mnemonic : String)
deriving DecidableEq, Repr

/-- A parameter bank of zeros: the model's value of `PARAM` at power-on, where the spec gives none. DESIGN CHOICE (n2), unsafe. -/
def ParamBank.zero : ParamBank where
  feedbackPct := 0
  blend := 0
  modeSelectorValue := 0
  delayTimeShortMs := 0
  delayTimeLongMs := 0
  modDepthPct := 0
  modRateHz := 0
  modType := .flanger
  enableMod := false
  enableSidechain := false

/-- Power-on (spec 70_reset_and_hazards R260, R261): the specified elements at their values; the elements the spec calls
unspecified at the values of n2, DESIGN CHOICE, unsafe (no command reads them before it writes them, spec 10_state R39). -/
def State.reset : State where
  configured := false
  fs := 0
  spms := 0
  ringLen := 2
  param := ParamBank.zero
  paramsValid := false
  tapCount := 1
  tapMs := ⟨0, 0, 0, 0⟩
  sRing := ⟨[], 0⟩
  mRing := ⟨[], 0⟩
  lfoPhase := 0
  detEnv := 0
  detAtt := 0
  detRel := 0
  auxEn := false
  auxSample := 0
  lastPath := .none
  fault := false
  faultCause := 0
  hostIn := []
  hostOut := []
  nanDraw := ⟨0, 0⟩

end Sys2Proof.Machine
end

