-- ==== Sys2Proof/Machine/Flags.lean ====
section
/-!
DEFINITION. The status word. The block has no flags or condition codes (spec 10_state R36); its one status is what `GETS`
reports (spec 30_encoding R81).
-/

namespace Sys2Proof.Machine

/-- The two bits of `LAST_PATH` (spec 10_state R34). -/
def pathCode : Path → BitVec 2
  | .none => 0#2
  | .static => 1#2
  | .modulated => 2#2

/-- The status word `zext_64({LAST_PATH[1:0], AUX_EN, PARAMS_VALID, CONFIGURED})` (spec 30_encoding R81, 45_control R225). -/
def statusWord (s : State) : Word :=
  (pathCode s.lastPath ++ BitVec.ofBool s.auxEn ++ BitVec.ofBool s.paramsValid ++ BitVec.ofBool s.configured).setWidth 64

end Sys2Proof.Machine
end

