-- ==== Sys2Proof/WellFormed.lean ====
section
/-!
DEFINITION. When a command's operand words keep the reserved bits of the encoding zero.
-/

namespace Sys2Proof

/-- Reserved bits `[63:2]` of the flags word are zero (spec 30_encoding R77). -/
def flagsReservedZero (w : Word) : Bool := w >>> 2 == 0

/-- Reserved bits `[63:1]` of the `AUXEN` operand are zero (spec 30_encoding R79). -/
def enableReservedZero (e : Word) : Bool := e >>> 1 == 0

/-- A command whose reserved operand bits are zero (spec 30_encoding R77, R79, R82). Every other operand word is
well formed whatever its bits (spec 30_encoding R74, R75). -/
def Instr.wf : Instr → Bool
  | .reset _ => true
  | .setp pk => flagsReservedZero pk.flags
  | .getp => true
  | .proc _ => true
  | .auxen e => enableReservedZero e
  | .auxin _ => true
  | .gets => true

end Sys2Proof
end

