-- ==== Sys2Proof/Decode.lean ====
section
/-!
DEFINITION. The command decoder, total on any bytes (spec 30_encoding R71 to R84), and after it the encoder.
-/

namespace Sys2Proof

/-- The seven opcodes (spec 30_encoding R72). -/
inductive Opcode where
  | reset | setp | getp | proc | auxen | auxin | gets
deriving DecidableEq, Repr

/-- The command byte's decoding, `none` for ILLEGAL (spec 30_encoding R84): `RSV = b[7:4]` must be zero,
`OPC = b[3:0]` selects the command. -/
def decodeByte (b : Byte) : Option Opcode :=
  if b.extractLsb' 4 4 ≠ 0#4 then none
  else
    match (b.extractLsb' 0 4).toNat with
    | 1 => some .reset
    | 2 => some .setp
    | 3 => some .getp
    | 4 => some .proc
    | 5 => some .auxen
    | 6 => some .auxin
    | 7 => some .gets
    | _ => none

/-- How many operand words follow the command byte (spec 30_encoding R72, R83). -/
def operandWords : Opcode → Nat
  | .reset => 1
  | .setp => 9
  | .getp => 0
  | .proc => 1
  | .auxen => 1
  | .auxin => 1
  | .gets => 0

/-- How many result words the command returns (spec 30_encoding R72). -/
def resultWords : Opcode → Nat
  | .reset => 1
  | .setp => 0
  | .getp => 9
  | .proc => 1
  | .auxen => 0
  | .auxin => 0
  | .gets => 1

/-- Eight bytes of the transport as one word, the least significant byte first (spec 20_memory R58, 30_encoding R73). -/
def wordOfBytes (b0 b1 b2 b3 b4 b5 b6 b7 : Byte) : Word :=
  b7 ++ b6 ++ b5 ++ b4 ++ b3 ++ b2 ++ b1 ++ b0

/-- A word as the transport's eight bytes, the least significant byte first (spec 20_memory R58, 30_encoding R73). -/
def wordBytes (w : Word) : List Byte :=
  [w.extractLsb' 0 8, w.extractLsb' 8 8, w.extractLsb' 16 8, w.extractLsb' 24 8,
   w.extractLsb' 32 8, w.extractLsb' 40 8, w.extractLsb' 48 8, w.extractLsb' 56 8]

/-- Take `n` words off the front of the byte stream, word 0 first (spec 30_encoding R73);
`none` while the stream holds fewer than `8 * n` bytes. -/
def takeWords : Nat → List Byte → Option (List Word × List Byte)
  | 0, bs => some ([], bs)
  | n + 1, b0 :: b1 :: b2 :: b3 :: b4 :: b5 :: b6 :: b7 :: bs =>
    match takeWords n bs with
    | some (ws, rest) => some (wordOfBytes b0 b1 b2 b3 b4 b5 b6 b7 :: ws, rest)
    | none => none
  | _ + 1, _ => none

/-- The command of an opcode and its operand words (spec 30_encoding R72, R76); `none` for a wrong number of words. -/
def instrOfWords : Opcode → List Word → Option Instr
  | .reset, [fs] => some (.reset fs)
  | .setp, [w0, w1, w2, w3, w4, w5, w6, w7, w8] => some (.setp ⟨w0, w1, w2, w3, w4, w5, w6, w7, w8⟩)
  | .getp, [] => some .getp
  | .proc, [x] => some (.proc x)
  | .auxen, [e] => some (.auxen e)
  | .auxin, [a] => some (.auxin a)
  | .gets, [] => some .gets
  | _, _ => none

/-- What the decoder finds at the front of the host's byte stream. -/
inductive Decoded where
  /-- a whole command, and the bytes after it -/
  | cmd (i : Instr) (rest : List Byte)
  /-- ILLEGAL: a reserved command byte; no operand word is taken (spec 30_encoding R82) -/
  | illegal (b : Byte) (rest : List Byte)
  /-- no whole command has arrived yet: nothing, or a command byte with part of its operand words -/
  | incomplete
deriving DecidableEq, Repr

/-- The decoder (spec 30_encoding R83, R84). -/
def decode : List Byte → Decoded
  | [] => .incomplete
  | b :: bs =>
    match decodeByte b with
    | none => .illegal b bs
    | some op =>
      match takeWords (operandWords op) bs with
      | none => .incomplete
      | some (ws, rest) =>
        match instrOfWords op ws with
        | some i => .cmd i rest
        | none => .incomplete

/-! The encoder, from the same tables. -/

/-- The opcode of a command. -/
def Instr.opcode : Instr → Opcode
  | .reset _ => .reset
  | .setp _ => .setp
  | .getp => .getp
  | .proc _ => .proc
  | .auxen _ => .auxen
  | .auxin _ => .auxin
  | .gets => .gets

/-- The command byte of an opcode (spec 30_encoding R72). -/
def opcodeByte : Opcode → Byte
  | .reset => 0x01
  | .setp => 0x02
  | .getp => 0x03
  | .proc => 0x04
  | .auxen => 0x05
  | .auxin => 0x06
  | .gets => 0x07

/-- The nine words of a packet, word 0 first (spec 30_encoding R76). -/
def packetWords (pk : Packet) : List Word :=
  [pk.feedbackPct, pk.blend, pk.modeSelectorValue, pk.delayTimeShortMs, pk.delayTimeLongMs,
   pk.modDepthPct, pk.modRateHz, pk.modType, pk.flags]

/-- The operand words of a command, word 0 first (spec 30_encoding R72). -/
def Instr.operands : Instr → List Word
  | .reset fs => [fs]
  | .setp pk => packetWords pk
  | .getp => []
  | .proc x => [x]
  | .auxen e => [e]
  | .auxin a => [a]
  | .gets => []

/-- The bytes of a command on the byte-serial transport (spec 30_encoding R70, R73). -/
def encode (i : Instr) : List Byte :=
  opcodeByte i.opcode :: i.operands.flatMap wordBytes

/-- Result words on the byte-serial transport (spec 30_encoding R73). -/
def resultBytes (ws : List Word) : List Byte :=
  ws.flatMap wordBytes

/-! The opcode table's view of the decoder. -/

/-- The low `n` bytes of a number, the least significant first. -/
def bytesOfNat : Nat → Nat → List Byte
  | 0, _ => []
  | n + 1, w => BitVec.ofNat 8 w :: bytesOfNat n (w / 256)

/-- How many bytes a command takes: its command byte and its operand words (spec 30_encoding R83); 1 for an illegal byte. -/
def commandLength (b : Byte) : Nat :=
  match decodeByte b with
  | some op => 1 + 8 * operandWords op
  | none => 1

/-- The bytes of an instruction whose bits are `w`, bit 0 the least significant bit of the first byte, the bits from
`nbits` up zero, as long as the command is. -/
def tableBytes (nbits w : Nat) : List Byte :=
  bytesOfNat (nbits / 8) w ++ List.replicate (commandLength (BitVec.ofNat 8 w) - nbits / 8) 0

/-- The command this decoder reads from an instruction whose bits are `w`, numbered as spec/opcode_table.json does. -/
def decodeTableWord (nbits w : Nat) : Option Instr :=
  match decode (tableBytes nbits w) with
  | .cmd i _ => some i
  | .illegal _ _ => none
  | .incomplete => none

end Sys2Proof
end

