-- ==== Sys2Proof/Machine/Float.lean ====
section
/-!
DEFINITION. IEEE 754 binary64 arithmetic on bit patterns (spec 00_scope R9, R12): exact results in integers and
fractions, rounded once, to nearest with ties to even. A NaN result takes its sign and payload from the argument `q`
(spec 00_scope R9 leaves them open); every finite value is a whole number of units of 2^-1074.
-/

namespace Sys2Proof.Machine.Fp

/-- Bit 63. -/
def sign (a : F64) : Bool := decide (2 ^ 63 ≤ a.toNat)

/-- Bits 62 to 0 as a number: the magnitude of the bit pattern. -/
def mag (a : F64) : Nat := a.toNat % 2 ^ 63

/-- Bits 62 to 52, the biased exponent. -/
def expo (a : F64) : Nat := mag a / 2 ^ 52

/-- Bits 51 to 0, the fraction. -/
def frac (a : F64) : Nat := mag a % 2 ^ 52

/-- A NaN (spec 30_encoding R74). -/
def isNaN (a : F64) : Bool := decide (2047 * 2 ^ 52 < mag a)

/-- An infinity. -/
def isInf (a : F64) : Bool := decide (mag a = 2047 * 2 ^ 52)

/-- Neither an infinity nor a NaN (spec 00_scope R12). -/
def isFinite (a : F64) : Bool := decide (mag a < 2047 * 2 ^ 52)

/-- A zero of either sign. -/
def isZero (a : F64) : Bool := decide (mag a = 0)

/-- The magnitude of a finite value with bit magnitude `m`, in units of 2^-1074. -/
def unitsOfMag (m : Nat) : Nat :=
  if m / 2 ^ 52 = 0 then m % 2 ^ 52 else (2 ^ 52 + m % 2 ^ 52) * 2 ^ (m / 2 ^ 52 - 1)

/-- The magnitude of a finite value, in units of 2^-1074. -/
def units (a : F64) : Nat := unitsOfMag (mag a)

/-- A finite value in units of 2^-1074. -/
def value (a : F64) : Int := if sign a then -(units a : Int) else (units a : Int)

/-- How many units of 2^-1074 make 1.0. -/
def one1074 : Nat := 2 ^ 1074

/-- A bit pattern from a sign and a bit magnitude. -/
def pack (sgn : Bool) (m : Nat) : F64 := BitVec.ofNat 64 ((if sgn then 2 ^ 63 else 0) + m)

/-- `+0.0` -/
def posZero : F64 := 0x0000000000000000#64
/-- `-0.0` -/
def negZero : F64 := 0x8000000000000000#64

/-- An infinity. -/
def inf (sgn : Bool) : F64 := pack sgn (2047 * 2 ^ 52)

/-- The NaN with sign `q[52]` and payload `q[51:0]`; a payload of zero, which no NaN has, stands for the payload `2^51`. -/
def nanOf (q : BitVec 53) : F64 :=
  pack (decide (2 ^ 52 ≤ q.toNat))
    (2047 * 2 ^ 52 + (if q.toNat % 2 ^ 52 = 0 then 2 ^ 51 else q.toNat % 2 ^ 52))

/-- How many low bits a value of `n / d` units loses to the 53-bit significand. -/
def roundShift (n d : Nat) : Nat := (n / d).log2 - 52

/-- The whole number nearest to `n / g`, ties to even. -/
def nearestEven (n g : Nat) : Nat :=
  if g < 2 * (n % g) ∨ (2 * (n % g) = g ∧ n / g % 2 = 1) then n / g + 1 else n / g

/-- The bit magnitude of the binary64 nearest to `n / d` units of 2^-1074, ties to even (spec 00_scope R9); subnormals are
kept, and a value that rounds beyond the largest finite one becomes infinity. -/
def roundUnits (n d : Nat) : Nat :=
  min (roundShift n d * 2 ^ 52 + nearestEven n (d * 2 ^ roundShift n d)) (2047 * 2 ^ 52)

/-- The binary64 nearest to plus or minus `n / d` units. -/
def round (sgn : Bool) (n d : Nat) : F64 := pack sgn (roundUnits n d)

/-- `abs` clears the sign bit (spec 00_scope R12). -/
def abs (a : F64) : F64 := pack false (mag a)

/-- The operand with its sign bit flipped. -/
def neg (a : F64) : F64 := pack (!sign a) (mag a)

/-- `a + b` -/
def add (q : BitVec 53) (a b : F64) : F64 :=
  if isNaN a || isNaN b then nanOf q
  else if isInf a then (if isInf b && (sign a != sign b) then nanOf q else a)
  else if isInf b then b
  else if value a + value b = 0 then (if sign a && sign b then negZero else posZero)
  else round (decide (value a + value b < 0)) (value a + value b).natAbs 1

/-- `a - b` -/
def sub (q : BitVec 53) (a b : F64) : F64 := add q a (neg b)

/-- `a * b` -/
def mul (q : BitVec 53) (a b : F64) : F64 :=
  if isNaN a || isNaN b then nanOf q
  else if isInf a || isInf b then
    (if isZero a || isZero b then nanOf q else inf (sign a != sign b))
  else round (sign a != sign b) (units a * units b) one1074

/-- `a / b` -/
def div (q : BitVec 53) (a b : F64) : F64 :=
  if isNaN a || isNaN b then nanOf q
  else if isInf a then (if isInf b then nanOf q else inf (sign a != sign b))
  else if isInf b then pack (sign a != sign b) 0
  else if isZero b then (if isZero a then nanOf q else inf (sign a != sign b))
  else round (sign a != sign b) (units a * one1074) (units b)

/-- Binary digits of the whole square root of `n`, from bit `k - 1` down, added to `acc`. -/
def isqrtFrom (n : Nat) : Nat → Nat → Nat
  | 0, acc => acc
  | k + 1, acc =>
    if (acc + 2 ^ k) * (acc + 2 ^ k) ≤ n then isqrtFrom n k (acc + 2 ^ k) else isqrtFrom n k acc

/-- The largest `r` with `r * r ≤ n`. -/
def isqrt (n : Nat) : Nat := isqrtFrom n (n.log2 / 2 + 1) 0

/-- `SQRT`, correctly rounded (spec 00_scope R12). The root of a positive value has more than 53 bits in units of
2^-1074, so half a unit on top of its whole part rounds as any root that is not whole. -/
def sqrt (q : BitVec 53) (a : F64) : F64 :=
  if isNaN a then nanOf q
  else if isZero a then a
  else if sign a then nanOf q
  else if isInf a then a
  else
    round false
      (2 * isqrt (units a * one1074) +
        (if isqrt (units a * one1074) * isqrt (units a * one1074) = units a * one1074 then 0 else 1)) 2

/-- A number that orders the bit patterns other than NaNs as the values they stand for. -/
def ordKey (a : F64) : Int := if sign a then -(mag a : Int) else (mag a : Int)

/-- `a < b`, false with a NaN operand (spec 00_scope R12). -/
def lt (a b : F64) : Bool := !isNaN a && !isNaN b && decide (ordKey a < ordKey b)

/-- `a <= b`, false with a NaN operand (spec 00_scope R12). -/
def le (a b : F64) : Bool := !isNaN a && !isNaN b && decide (ordKey a ≤ ordKey b)

/-- `a == b`, false with a NaN operand (spec 00_scope R12). -/
def feq (a b : F64) : Bool := !isNaN a && !isNaN b && decide (ordKey a = ordKey b)

/-- `fmax`: the larger operand, the other one when exactly one is a NaN, `+0.0` over `-0.0` (spec 00_scope R12). -/
def fmax (q : BitVec 53) (a b : F64) : F64 :=
  if isNaN a then (if isNaN b then nanOf q else b)
  else if isNaN b then a
  else if ordKey a < ordKey b then b
  else if ordKey b < ordKey a then a
  else if sign a then b
  else a

/-- `fmin`: the smaller operand, the other one when exactly one is a NaN, `-0.0` under `+0.0` (spec 00_scope R12). -/
def fmin (q : BitVec 53) (a b : F64) : F64 :=
  if isNaN a then (if isNaN b then nanOf q else b)
  else if isNaN b then a
  else if ordKey a < ordKey b then a
  else if ordKey b < ordKey a then b
  else if sign a then a
  else b

/-- `floor(d)` of a finite `d >= 0`, a natural number (spec 00_scope R12). -/
def floor (d : F64) : Nat := units d / one1074

/-- The least natural not below `k * a`, for a finite `a >= 0`, the product exact. -/
def ceilTimes (k : Nat) (a : F64) : Nat := (k * units a + (one1074 - 1)) / one1074

/-- A natural converted to binary64; exact up to 2^53. -/
def ofNat (n : Nat) : F64 := round false (n * one1074) 1

/-! The decimal literals of the spec's pseudocode, each the binary64 nearest to it (spec 00_scope R12). -/

/-- `0.05` -/
def c0p05 : F64 := 0x3FA999999999999A#64
/-- `0.10` -/
def c0p10 : F64 := 0x3FB999999999999A#64
/-- `0.2` -/
def c0p2 : F64 := 0x3FC999999999999A#64
/-- `0.25` -/
def c0p25 : F64 := 0x3FD0000000000000#64
/-- `0.5` -/
def c0p5 : F64 := 0x3FE0000000000000#64
/-- `0.60` -/
def c0p60 : F64 := 0x3FE3333333333333#64
/-- `0.8` -/
def c0p8 : F64 := 0x3FE999999999999A#64
/-- `1.0` -/
def c1 : F64 := 0x3FF0000000000000#64
/-- `-1.0` -/
def cNeg1 : F64 := 0xBFF0000000000000#64
/-- `2.0` -/
def c2 : F64 := 0x4000000000000000#64
/-- `4.0` -/
def c4 : F64 := 0x4010000000000000#64
/-- `20.0` -/
def c20 : F64 := 0x4034000000000000#64
/-- `100.0` -/
def c100 : F64 := 0x4059000000000000#64
/-- `200.0` -/
def c200 : F64 := 0x4069000000000000#64
/-- `500.0` -/
def c500 : F64 := 0x407F400000000000#64
/-- `1000.0` -/
def c1000 : F64 := 0x408F400000000000#64

end Sys2Proof.Machine.Fp
end

