-- ==== Sys2Proof/Machine/Ring.lean ====
section
/-!
DEFINITION. The delay rings as memory: the cell list in its canonical form, and the primitives of spec 40_delay_line.
-/

namespace Sys2Proof.Machine

/-- What an unlisted cell holds: `+0.0`, as after a create or a flush (spec 20_memory R62). -/
def emptyCell : F64 := Fp.posZero

/-- The value of cell `j`. -/
def cellRead : List (Nat × F64) → Nat → F64
  | [], _ => emptyCell
  | (k, v) :: cs, j => if j = k then v else cellRead cs j

/-- The cells without an entry for `j`. -/
def cellErase : List (Nat × F64) → Nat → List (Nat × F64)
  | [], _ => []
  | (k, v) :: cs, j => if j = k then cs else (k, v) :: cellErase cs j

/-- The cells with `v` listed at `j`, in rising order. -/
def cellInsert : List (Nat × F64) → Nat → F64 → List (Nat × F64)
  | [], j, v => [(j, v)]
  | (k, u) :: cs, j, v =>
    if j < k then (j, v) :: (k, u) :: cs
    else if j = k then (j, v) :: cs
    else (k, u) :: cellInsert cs j v

/-- Write a cell, bit-exactly (spec 40_delay_line R101), keeping the canonical form: a cell that comes to hold what an
unlisted cell reads as is listed no more. -/
def cellWrite (cs : List (Nat × F64)) (j : Nat) (v : F64) : List (Nat × F64) :=
  if v = emptyCell then cellErase cs j else cellInsert cs j v

/-- The canonical form of the cells of a ring of `C` cells: indices from `lo` up, strictly rising and below `C`, no listed
cell holding what an unlisted cell reads as. -/
def cellsWfFrom (C : Nat) : Nat → List (Nat × F64) → Bool
  | _, [] => true
  | lo, (k, v) :: cs => decide (lo ≤ k) && decide (k < C) && decide (v ≠ emptyCell) && cellsWfFrom C (k + 1) cs

/-- A ring of length `C` in canonical form, its write pointer in `0..C-1` (spec 10_state R28, R29). -/
def Memory.wf (C : Nat) (r : Ring) : Bool := cellsWfFrom C 0 r.cells && decide (r.wp < C)

/-- The index of the cell `k` behind the write pointer, `(wp - k) mod C` of spec 00_scope R13, for `k <= C`. -/
def ringIndex (C wp k : Nat) : Nat := (wp + C - k) % C

/-- `RingCell(r, k)` (spec 40_delay_line R102). -/
def ringCell (C : Nat) (r : Ring) (k : Nat) : F64 := cellRead r.cells (ringIndex C r.wp k)

/-- `RingWrite(r, v)` (spec 40_delay_line R101). -/
def ringWrite (C : Nat) (r : Ring) (v : F64) : Ring where
  cells := cellWrite r.cells r.wp v
  wp := (r.wp + 1) % C

/-- Is `d` a delay the ring can be read at: `0.0 <= d <= C - 1` (spec 40_delay_line R103)? A NaN is not. -/
def delayInRange (C : Nat) (d : F64) : Bool := Fp.le Fp.posZero d && Fp.le d (Fp.ofNat (C - 1))

/-- The two-point interpolation `f * y2 + (1.0 - f) * y1` with `f = d - i` (spec 40_delay_line R103). `k` names the read. -/
def interpolate (fr : FpSite → BitVec 53) (k : Nat) (d : F64) (i : Nat) (y1 y2 : F64) : F64 :=
  let f := Fp.sub (fr (.ringFrac k)) d (Fp.ofNat i)
  Fp.add (fr (.ringBlend k)) (Fp.mul (fr (.ringFar k)) f y2)
    (Fp.mul (fr (.ringNear k)) (Fp.sub (fr (.ringRest k)) Fp.c1 f) y1)

/-- `RingRead(r, d)`, the fractional read (spec 40_delay_line R103). `k` names the read among those of one `PROC`. -/
def ringRead (fr : FpSite → BitVec 53) (k C : Nat) (r : Ring) (d : F64) : Except Cause F64 :=
  if delayInRange C d then
    .ok (interpolate fr k d (Fp.floor d) (ringCell C r (Fp.floor d)) (ringCell C r (Fp.floor d + 1)))
  else .error .delayRange

/-- `RingFlush(r)`: every cell `+0.0`, the write pointer 0 (spec 40_delay_line R105). -/
def ringFlush (_r : Ring) : Ring := ⟨[], 0⟩

/-- `RingCreate(r, L)`: `L` cells of `+0.0`, the write pointer 0 (spec 40_delay_line R106). The length is the state's `C`,
which `RESET` sets for both rings together. -/
def ringCreate (_L : Nat) : Ring := ⟨[], 0⟩

/-- `MsToSamples(ms) = ms * SPMS` (spec 40_delay_line R107), made at every read (R108). -/
def msToSamples (fr : FpSite → BitVec 53) (k : Nat) (spms ms : F64) : F64 := Fp.mul (fr (.msToSamples k)) ms spms

end Sys2Proof.Machine
end

