-- ==== Sys2Proof/Machine/Ops.lean ====
section
/-!
DEFINITION. The named updates of the state, raising a fault, and returning results.
-/

namespace Sys2Proof.Machine

/-- The cause codes of spec 60_exceptions R241. -/
def causeCode : Cause → Nat
  | .illegalCmd => 1
  | .badRate => 2
  | .unconfigured => 3
  | .noParams => 4
  | .paramRange => 5
  | .delayRange => 6
  | .lfoRate => 7

/-- `FAULT <- 1`, `FAULT_CAUSE <- cause`; every other element is left as it was (spec 60_exceptions R241, R243). -/
def setFault (c : Cause) (s : State) : State := { s with fault := true, faultCause := causeCode c }

/-- `raise Fault(cause)` (spec 60_exceptions R241): the command ends at once, in the state it found with the fault recorded.
The state is final: `step` gives it no further step (R243). -/
def raiseFault (c : Cause) (s : State) : Host.Outcome State Fault Refusal := .next (setFault c s)

/-- The command's result words, given back to the host (spec 30_encoding R70, 70_reset_and_hazards R273). -/
def returnWords (ws : List Word) (s : State) : State := { s with hostOut := s.hostOut ++ ws }

/-- The bytes of the host's command stream still to be performed. -/
def setHostIn (bs : List Byte) (s : State) : State := { s with hostIn := bs }

/-- How a command ends: with a fault, in the state `s` it found, or with result words and a new state. -/
def finish (s : State) : Except Cause (List Word × State) → Host.Outcome State Fault Refusal
  | .error c => raiseFault c s
  | .ok (ws, t) => .next (returnWords ws t)

/-- `SETP`'s writes: `PARAM`, `TAP_COUNT`, `TAP_MS` and `PARAMS_VALID` together (spec 41_tap_resolver R127). -/
def loadParams (p : ParamBank) (count : Nat) (taps : Taps) (s : State) : State :=
  { s with param := p, tapCount := count, tapMs := taps, paramsValid := true }

/-- `AUX_EN <- e` (spec 44_sidechain R200). -/
def setAuxEn (e : Bool) (s : State) : State := { s with auxEn := e }

/-- `AUX_SAMPLE <- a` (spec 44_sidechain R201). -/
def setAuxSample (a : F64) (s : State) : State := { s with auxSample := a }

/-- `DET_ENV <- e` (spec 44_sidechain R204). -/
def setDetEnv (e : F64) (s : State) : State := { s with detEnv := e }

/-- `LFO_PHASE <- p` (spec 43_modulation R170). -/
def setLfoPhase (p : F64) (s : State) : State := { s with lfoPhase := p }

/-- The end of the static path: its ring, and `LAST_PATH <- 1` (spec 42_process R140). -/
def endStatic (r : Ring) (s : State) : State := { s with sRing := r, lastPath := .static }

/-- The end of the modulated path: its ring, and `LAST_PATH <- 2` (spec 42_process R140). -/
def endModulated (r : Ring) (s : State) : State := { s with mRing := r, lastPath := .modulated }

/-- The next `PROC` draws free NaN bits of its own (n3). -/
def nextDraw (s : State) : State := { s with nanDraw := s.nanDraw.next }

/-- `CONFIGURED <- 0` and nothing else (spec 45_control R222). -/
def unconfigure (s : State) : State := { s with configured := false }

/-- Both rings flushed, `C` kept (spec 45_control R223). -/
def flushRings (s : State) : State := { s with sRing := ringFlush s.sRing, mRing := ringFlush s.mRing }

/-- Both rings created afresh at length `L`, `C <- L` (spec 45_control R224). -/
def createRings (L : Nat) (s : State) : State := { s with sRing := ringCreate L, mRing := ringCreate L, ringLen := L }

/-- What every successful `RESET` sets besides the rings (spec 45_control R220, R224). -/
def configure (fs spms att rel : F64) (s : State) : State :=
  { s with
    fs := fs, spms := spms, lfoPhase := Fp.posZero, detEnv := Fp.posZero, detAtt := att, detRel := rel,
    lastPath := .none, configured := true }

end Sys2Proof.Machine
end

