-- ==== Sys2Proof/Machine/Operands.lean ====
section
/-!
DEFINITION. The operand forms: the parameter packet and its validation, the flags word, the `modType` word, the enable word.
-/

namespace Sys2Proof.Machine

/-- A `modType` word: 0 Flanger, 1 Vibrato, 2 Chorus (spec 30_encoding R78). Values from 3 up are refused by `validate`
before this is read. -/
def modTypeOfWord (w : Word) : ModType :=
  if w = 0#64 then .flanger else if w = 1#64 then .vibrato else .chorus

/-- The word of a modulation type (spec 30_encoding R78). -/
def modTypeWord : ModType → Word
  | .flanger => 0#64
  | .vibrato => 1#64
  | .chorus => 2#64

/-- The flags word of a bank (spec 30_encoding R77). -/
def flagsWord (enableMod enableSidechain : Bool) : Word :=
  (BitVec.ofBool enableSidechain ++ BitVec.ofBool enableMod).setWidth 64

/-- The parameter bank of a packet (spec 30_encoding R76, R77). -/
def bankOfPacket (pk : Packet) : ParamBank where
  feedbackPct := pk.feedbackPct
  blend := pk.blend
  modeSelectorValue := pk.modeSelectorValue
  delayTimeShortMs := pk.delayTimeShortMs
  delayTimeLongMs := pk.delayTimeLongMs
  modDepthPct := pk.modDepthPct
  modRateHz := pk.modRateHz
  modType := modTypeOfWord pk.modType
  enableMod := pk.flags.getLsbD 0
  enableSidechain := pk.flags.getLsbD 1

/-- The packet of a parameter bank (spec 30_encoding R76, 41_tap_resolver R129). -/
def packetOfBank (p : ParamBank) : Packet where
  feedbackPct := p.feedbackPct
  blend := p.blend
  modeSelectorValue := p.modeSelectorValue
  delayTimeShortMs := p.delayTimeShortMs
  delayTimeLongMs := p.delayTimeLongMs
  modDepthPct := p.modDepthPct
  modRateHz := p.modRateHz
  modType := modTypeWord p.modType
  flags := flagsWord p.enableMod p.enableSidechain

/-- `lo <= v <= hi`, IEEE comparisons, so a NaN fails (spec 41_tap_resolver R128). -/
def within (lo hi v : F64) : Bool := Fp.le lo v && Fp.le v hi

/-- `is_finite(v) and v > 0.0` (spec 41_tap_resolver R128, 45_control R221). -/
def finitePositive (v : F64) : Bool := Fp.isFinite v && Fp.lt Fp.posZero v

/-- `Validate(pk)` passes (spec 41_tap_resolver R128): one conjunct per line of the rule. -/
def validate (pk : Packet) : Bool :=
  within Fp.posZero Fp.c100 pk.feedbackPct &&
  within Fp.posZero Fp.c1 pk.blend &&
  (decide (1 ≤ pk.modeSelectorValue.toNat) && decide (pk.modeSelectorValue.toNat ≤ 14)) &&
  finitePositive pk.delayTimeShortMs &&
  finitePositive pk.delayTimeLongMs &&
  within Fp.posZero Fp.c100 pk.modDepthPct &&
  finitePositive pk.modRateHz &&
  decide (pk.modType.toNat ≤ 2) &&
  flagsReservedZero pk.flags

/-- The enable bit of the `AUXEN` operand (spec 30_encoding R79). -/
def enableBit (e : Word) : Bool := e.getLsbD 0

/-- The result word of `RESET` (spec 30_encoding R80). -/
def resetResult (success : Bool) : Word := if success then 1#64 else 0#64

end Sys2Proof.Machine
end

