-- ==== Sys2Proof/Machine/Params.lean ====
section
/-!
DEFINITION. The OPEN parameters as the commands read them, with the constraints of spec 00_scope R7 applied: a raw value
outside its constraint is replaced by one inside it, a raw value inside it is used as it is (n6).
-/

namespace Sys2Proof.Machine

/-- A finite binary64 (spec 00_scope R7: "finite"). -/
def finiteOr (d a : F64) : F64 := if Fp.isFinite a then a else d

/-- A binary64 in the closed range from `lo` to `hi`. -/
def withinOr (d lo hi a : F64) : F64 := if Fp.le lo a && Fp.le a hi then a else d

/-- The least ring length for a rate: `max(2, ceil(12 * fs))`, the product exact (spec 10_state R24; DEDUCED, n7). -/
def minRingLen (fs : F64) : Nat := max 2 (Fp.ceilTimes 12 fs)

/-- `RING_LEN_FN(fs) >= max(2, ceil(12 * fs))` (spec 00_scope R7, 10_state R24). -/
def ringLenFn (P : Params) (fs : F64) : Nat := max (minRingLen fs) (P.ringLenRaw fs)

/-- `MAX_RING_LEN`, from 2 to 2^53 (spec 92_eei_decisions D11). -/
def maxRingLen (P : Params) : Nat := min (max 2 P.maxRingLenRaw) (2 ^ 53)

/-- `SCHED[mode]`: row 1 is one SHORT tap, row 14 four LONG taps (spec 41_tap_resolver R122, R123), the rest are
`TAP_SCHEDULE` (R124). -/
def schedRow (P : Params) (mode : Word) : SchedRow :=
  if mode = 1#64 then .one .short
  else if mode = 14#64 then .four .long .long .long .long
  else P.tapSchedule mode.toNat

/-- The `modMin` of a `MOD_RANGE` cell: finite and `>= 0.0` (spec 00_scope R7, 43_modulation R175). -/
def modMin (P : Params) (m : ModMode) (t : ModType) : F64 :=
  if Fp.isFinite (P.modMinRaw m t) && Fp.le Fp.posZero (P.modMinRaw m t) then P.modMinRaw m t else Fp.posZero

/-- The `modDepthRange` of a `MOD_RANGE` cell: finite and `>= 0.0` (spec 00_scope R7, 43_modulation R175). -/
def modRng (P : Params) (m : ModMode) (t : ModType) : F64 :=
  if Fp.isFinite (P.modRngRaw m t) && Fp.le Fp.posZero (P.modRngRaw m t) then P.modRngRaw m t else Fp.posZero

/-- `MOD_DRY_DB[t]`, finite (spec 00_scope R7). -/
def modDryDb (P : Params) (t : ModType) : F64 := finiteOr Fp.posZero (P.modDryDbRaw t)

/-- `MOD_WET_DB[t]`, finite (spec 00_scope R7). -/
def modWetDb (P : Params) (t : ModType) : F64 := finiteOr Fp.posZero (P.modWetDbRaw t)

/-- `FLANGER_FB_PCT`, finite (spec 00_scope R7). -/
def flangerFbPct (P : Params) : F64 := finiteOr Fp.posZero P.flangerFbPctRaw

/-- `LFO_WAVE`, a bipolar sample in `[-1.0, 1.0]` (spec 43_modulation R172). -/
def lfoWave (P : Params) (phase : F64) : F64 := withinOr Fp.posZero Fp.cNeg1 Fp.c1 (P.lfoWaveRaw phase)

/-- `DET_COEF(ms, fs)`, `0.0 <= DET_COEF < 1.0` (spec 44_sidechain R205). -/
def detCoef (P : Params) (ms fs : F64) : F64 :=
  if Fp.le Fp.posZero (P.detCoefRaw ms fs) && Fp.lt (P.detCoefRaw ms fs) Fp.c1 then P.detCoefRaw ms fs else Fp.posZero

end Sys2Proof.Machine
end

