-- ==== Sys2Proof/Machine/TapResolver.lean ====
section
/-!
DEFINITION. The TapTimingResolver, `SETP` and `GETP` (spec 41_tap_resolver).
-/

namespace Sys2Proof.Machine

/-- `src[0..count-1]` of a schedule row (spec 41_tap_resolver R121). -/
def rowSources : SchedRow → List Base
  | .one a => [a]
  | .two a b => [a, b]
  | .three a b c => [a, b, c]
  | .four a b c d => [a, b, c, d]

/-- The base value a tap chains from (spec 41_tap_resolver R121). -/
def baseMs (shortMs longMs : F64) : Base → F64
  | .short => shortMs
  | .long => longMs

/-- The chaining rule: each active tap is its own base plus the tap before it (spec 41_tap_resolver R125). -/
def chainTaps (fr : FpSite → BitVec 53) (shortMs longMs : F64) : Nat → F64 → List Base → List F64
  | _, _, [] => []
  | i, acc, b :: bs =>
    Fp.add (fr (.chain i)) (baseMs shortMs longMs b) acc ::
      chainTaps fr shortMs longMs (i + 1) (Fp.add (fr (.chain i)) (baseMs shortMs longMs b) acc) bs

/-- Four tap times from the active ones; the others are `0.0` (spec 41_tap_resolver R125, 10_state R27). -/
def tapsOfList (ts : List F64) : Taps where
  t0 := ts.getD 0 Fp.posZero
  t1 := ts.getD 1 Fp.posZero
  t2 := ts.getD 2 Fp.posZero
  t3 := ts.getD 3 Fp.posZero

/-- `RESOLVE(mode, shortMs, longMs)` (spec 41_tap_resolver R120, R125). -/
def resolve (P : Params) (fr : FpSite → BitVec 53) (mode : Word) (shortMs longMs : F64) : Nat × Taps :=
  ((rowSources (schedRow P mode)).length,
   tapsOfList (chainTaps fr shortMs longMs 0 Fp.posZero (rowSources (schedRow P mode))))

/-- The free NaN bits of the arithmetic outside `PROC` (`RESOLVE` and `RESET`): the same at every use and in every instance, so
that `RESOLVE` is a pure function (spec 41_tap_resolver R120). No in-contract operands of that arithmetic give a NaN, so no
result shows them (n3). -/
def fixedNan : FpSite → BitVec 53 := Config.freeNan ⟨0, 0⟩

/-- `SETP(pk)` (spec 41_tap_resolver R127). -/
def setp (P : Params) (fr : FpSite → BitVec 53) (pk : Packet) (s : State) : Except Cause (List Word × State) :=
  if validate pk then
    let r := resolve P fr pk.modeSelectorValue pk.delayTimeShortMs pk.delayTimeLongMs
    .ok ([], loadParams (bankOfPacket pk) r.1 r.2 s)
  else .error .paramRange

/-- `SETP`. -/
def execSetp (pk : Packet) (s : State) : Host.Outcome State Fault Refusal :=
  finish s (setp Config.hw fixedNan pk s)

/-- `GETP()` (spec 41_tap_resolver R129). -/
def getp (s : State) : Except Cause (List Word × State) :=
  if s.paramsValid then .ok (packetWords (packetOfBank s.param), s) else .error .noParams

/-- `GETP`. -/
def execGetp (s : State) : Host.Outcome State Fault Refusal := finish s (getp s)

end Sys2Proof.Machine
end

