-- ==== Sys2Proof/Machine/Control.lean ====
section
/-!
DEFINITION. `RESET` and `GETS` (spec 45_control).
-/

namespace Sys2Proof.Machine

/-- The rings of a successful `RESET`: flushed at an unchanged rate, created afresh otherwise (spec 45_control R223, R224). -/
def resetRings (fs : F64) (L : Nat) (s : State) : State :=
  if s.configured && Fp.feq fs s.fs then flushRings s else createRings L s

/-- `RESET(fs)` (spec 45_control R220). -/
def reset (P : Params) (fr : FpSite → BitVec 53) (fs : F64) (s : State) : Except Cause (List Word × State) :=
  if finitePositive fs then
    if maxRingLen P < ringLenFn P fs then .ok ([resetResult false], unconfigure s)
    else
      .ok ([resetResult true],
        configure fs (Fp.div (fr .spms) fs Fp.c1000) (detCoef P Fp.c1 fs) (detCoef P Fp.c500 fs)
          (resetRings fs (ringLenFn P fs) s))
  else .error .badRate

/-- `RESET`. -/
def execReset (fs : F64) (s : State) : Host.Outcome State Fault Refusal :=
  finish s (reset Config.hw fixedNan fs s)

/-- `GETS` (spec 45_control R225). -/
def execGets (s : State) : Host.Outcome State Fault Refusal := finish s (.ok ([statusWord s], s))

end Sys2Proof.Machine
end

