-- ==== Sys2Proof/Machine/Modulation.lean ====
section
/-!
DEFINITION. The LFO, the modulation depth and the modulated single-tap path (spec 43_modulation).
-/

namespace Sys2Proof.Machine

/-- What an LFO step gives: the bipolar and the unipolar sample, and the new phase (spec 43_modulation R170). -/
structure LfoOut where
  b : F64
  u : F64
  phase : F64
deriving DecidableEq, Repr

/-- The increment `P.modRateHz / FS` (spec 43_modulation R170). -/
def lfoInc (fr : FpSite → BitVec 53) (rate fs : F64) : F64 := Fp.div (fr .lfoInc) rate fs

/-- The unipolar sample `0.5 * b + 0.5` (spec 43_modulation R170, R172). -/
def unipolar (fr : FpSite → BitVec 53) (b : F64) : F64 :=
  Fp.add (fr .lfoUni) (Fp.mul (fr .lfoHalf) Fp.c0p5 b) Fp.c0p5

/-- The advanced phase, wrapped once into `[0, 1)` (spec 43_modulation R170). -/
def advancePhase (fr : FpSite → BitVec 53) (phase inc : F64) : F64 :=
  let p := Fp.add (fr .lfoAdvance) phase inc
  if Fp.le Fp.c1 p then Fp.sub (fr .lfoWrap) p Fp.c1 else p

/-- `LFO_STEP()` (spec 43_modulation R170): the samples are read at the phase before the advance. -/
def lfoStep (P : Params) (fr : FpSite → BitVec 53) (phase rate fs : F64) : Except Cause LfoOut :=
  if Fp.lt (lfoInc fr rate fs) Fp.c1 then
    .ok ⟨lfoWave P phase, unipolar fr (lfoWave P phase), advancePhase fr phase (lfoInc fr rate fs)⟩
  else .error .lfoRate

/-- The LFO's part of a `PROC`: one step exactly when `P.enableMod = 1`, `none` otherwise (spec 43_modulation R171). -/
def procLfo (P : Params) (fr : FpSite → BitVec 53) (s : State) : Except Cause (Option LfoOut) :=
  if s.param.enableMod then
    match lfoStep P fr s.lfoPhase s.param.modRateHz s.fs with
    | .error c => .error c
    | .ok o => .ok (some o)
  else .ok none

/-- The phase after this `PROC`'s LFO step, or the phase it found. -/
def procPhase (s : State) : Option LfoOut → F64
  | some o => o.phase
  | none => s.lfoPhase

/-- The modes that support modulation, 1 and 2, as rows of `MOD_RANGE`; `none` for every other mode
(spec 42_process R142, 43_modulation R175). -/
def modModeOf (mode : Word) : Option ModMode :=
  if mode = 1#64 then some .mode1 else if mode = 2#64 then some .mode2 else none

/-- The depth from the parameter (spec 43_modulation R173). -/
def paramDepth (fr : FpSite → BitVec 53) (t : ModType) (pct : F64) : F64 :=
  let d := Fp.div (fr .depthScale) pct Fp.c200
  match t with
  | .flanger => Fp.mul (fr .depthDouble) d Fp.c2
  | .vibrato => d
  | .chorus => d

/-- The depth: the sidechain's when there is one, else the parameter's (spec 43_modulation R173, R174). -/
def modDepth (fr : FpSite → BitVec 53) (p : ParamBank) : Option F64 → F64
  | some d => d
  | none => paramDepth fr p.modType p.modDepthPct

/-- The unipolar (Flanger) mapping `mMin + (depth * u) * mRng` (spec 43_modulation R176). -/
def delayUni (fr : FpSite → BitVec 53) (mMin mRng depth u : F64) : F64 :=
  Fp.add (fr .modDelay) mMin (Fp.mul (fr .modSpan) (Fp.mul (fr .modScale) depth u) mRng)

/-- The bipolar (Vibrato, Chorus) mapping `(mMin + half) + (depth * b) * half` (spec 43_modulation R177). -/
def delayBi (fr : FpSite → BitVec 53) (mMin mRng depth b : F64) : F64 :=
  let half := Fp.mul (fr .modHalf) mRng Fp.c0p5
  Fp.add (fr .modDelay) (Fp.add (fr .modCentre) mMin half)
    (Fp.mul (fr .modSpan) (Fp.mul (fr .modScale) depth b) half)

/-- The modulated delay in ms (spec 43_modulation R175 to R178). -/
def modDelayMs (P : Params) (fr : FpSite → BitVec 53) (m : ModMode) (t : ModType) (depth : F64) (o : LfoOut) : F64 :=
  match t with
  | .flanger => delayUni fr (modMin P m .flanger) (modRng P m .flanger) depth o.u
  | .vibrato => delayBi fr (modMin P m .vibrato) (modRng P m .vibrato) depth o.b
  | .chorus => delayBi fr (modMin P m .chorus) (modRng P m .chorus) depth o.b

/-- The modulated tap's feedback percent: zero but for the Flanger (spec 43_modulation R179). -/
def modFbPct (P : Params) : ModType → F64
  | .flanger => flangerFbPct P
  | .vibrato => Fp.posZero
  | .chorus => Fp.posZero

/-- A gain from a level in dB, `POW10(dB / 20.0)` (spec 43_modulation R179); `q` is the division's free NaN. -/
def dbGain (P : Params) (q : BitVec 53) (dB : F64) : F64 := P.pow10 (Fp.div q dB Fp.c20)

/-- What `MOD_TAP` writes: `x + (fbPct / 100.0) * yd` (spec 43_modulation R179). -/
def modTapIn (P : Params) (fr : FpSite → BitVec 53) (t : ModType) (x yd : F64) : F64 :=
  Fp.add (fr .modWrite) x
    (Fp.mul (fr .modFbScaled) (Fp.div (fr .modFbGain) (modFbPct P t) Fp.c100) yd)

/-- What `MOD_TAP` returns: `gDry * x + gWet * yd` (spec 43_modulation R179). -/
def modTapOut (P : Params) (fr : FpSite → BitVec 53) (t : ModType) (x yd : F64) : F64 :=
  Fp.add (fr .modMix) (Fp.mul (fr .modDry) (dbGain P (fr .modDryDb) (modDryDb P t)) x)
    (Fp.mul (fr .modWet) (dbGain P (fr .modWetDb) (modWetDb P t)) yd)

/-- `MOD_TAP(x, delayMs, t)` (spec 43_modulation R179): the output and the new `M_RING`. -/
def modTap (P : Params) (fr : FpSite → BitVec 53) (t : ModType) (x delayMs : F64) (s : State) : Except Cause (F64 × Ring) :=
  match ringRead fr 4 s.ringLen s.mRing (msToSamples fr 4 s.spms delayMs) with
  | .error c => .error c
  | .ok yd => .ok (modTapOut P fr t x yd, ringWrite s.ringLen s.mRing (modTapIn P fr t x yd))

/-- `MOD_PATH(x, P, b, u, scDepth)` (spec 43_modulation R180). -/
def modPath (P : Params) (fr : FpSite → BitVec 53) (m : ModMode) (x : F64) (o : LfoOut) (sc : Option F64) (s : State) :
    Except Cause (F64 × Ring) :=
  modTap P fr s.param.modType x (modDelayMs P fr m s.param.modType (modDepth fr s.param sc) o) s

end Sys2Proof.Machine
end

