-- ==== Sys2Proof/Machine/Sidechain.lean ====
section
/-!
DEFINITION. The sidechain path: `AUXEN`, `AUXIN`, the detector and the override depth (spec 44_sidechain).
-/

namespace Sys2Proof.Machine

/-- `AUXEN(e)` (spec 44_sidechain R200). -/
def auxen (e : Word) (s : State) : Except Cause (List Word × State) :=
  if enableReservedZero e then .ok ([], setAuxEn (enableBit e) s) else .error .illegalCmd

/-- `AUXEN`. -/
def execAuxen (e : Word) (s : State) : Host.Outcome State Fault Refusal := finish s (auxen e s)

/-- `AUXIN`: any binary64 is latched (spec 44_sidechain R201). -/
def execAuxin (a : F64) (s : State) : Host.Outcome State Fault Refusal := finish s (.ok ([], setAuxSample a s))

/-- The sample the detector consumes (spec 44_sidechain R202). -/
def detInput (s : State) : F64 := if s.auxEn then s.auxSample else Fp.posZero

/-- The squared input `v` of a detector step (spec 44_sidechain R204). -/
def detSquare (fr : FpSite → BitVec 53) (a : F64) : F64 := Fp.mul (fr .detSquare) (Fp.abs a) (Fp.abs a)

/-- The one-pole recursion `coef * (env - v) + v`, attack when `v > env` (spec 44_sidechain R204). -/
def detFollow (fr : FpSite → BitVec 53) (att rel env v : F64) : F64 :=
  Fp.add (fr .detSum)
    (Fp.mul (fr .detScale) (if Fp.lt env v then att else rel) (Fp.sub (fr .detDiff) env v)) v

/-- The underflow flush and the clamp at zero (spec 44_sidechain R204). -/
def detSettle (P : Params) (fr : FpSite → BitVec 53) (e : F64) : F64 :=
  Fp.fmax (fr .detClamp) (if Fp.lt (Fp.abs e) P.detFlush then Fp.posZero else e) Fp.posZero

/-- The new `DET_ENV` of `DET_STEP(a)` (spec 44_sidechain R204). -/
def detStepEnv (P : Params) (fr : FpSite → BitVec 53) (att rel env a : F64) : F64 :=
  detSettle P fr (detFollow fr att rel env (detSquare fr a))

/-- The dB result of `DET_STEP` from its new envelope (spec 44_sidechain R204, R206). -/
def detStepDb (P : Params) (fr : FpSite → BitVec 53) (e : F64) : F64 :=
  if Fp.le (Fp.sqrt (fr .detRoot) e) Fp.posZero then P.detDbFloor
  else Fp.mul (fr .detDb) Fp.c20 (P.log10 (Fp.sqrt (fr .detRoot) e))

/-- `SC_DEPTH(dB)` (spec 44_sidechain R207). -/
def scDepth (P : Params) (fr : FpSite → BitVec 53) (dB : F64) : F64 :=
  let lin := P.pow10 (Fp.div (fr .scExponent) dB Fp.c20)
  let v := Fp.fmin (fr .scHigh) (Fp.fmax (fr .scLow) lin Fp.posZero) Fp.c1
  Fp.add (fr .scOffset) Fp.c0p2 (Fp.mul (fr .scScale) Fp.c0p8 v)

/-- The envelope after this `PROC`'s detector step: it steps exactly when `P.enableSidechain = 1` (spec 44_sidechain R203). -/
def procEnv (P : Params) (fr : FpSite → BitVec 53) (s : State) : F64 :=
  if s.param.enableSidechain then detStepEnv P fr s.detAtt s.detRel s.detEnv (detInput s) else s.detEnv

/-- The override depth of this `PROC`, from this `PROC`'s detector step (spec 44_sidechain R208); `none` when
`P.enableSidechain = 0`. -/
def procScDepth (P : Params) (fr : FpSite → BitVec 53) (s : State) : Option F64 :=
  if s.param.enableSidechain then some (scDepth P fr (detStepDb P fr (procEnv P fr s))) else none

end Sys2Proof.Machine
end

