-- ==== Sys2Proof/Machine/Process.lean ====
section
/-!
DEFINITION. `PROC`: the mode multiplexer and the static multi-tap path (spec 42_process).
-/

namespace Sys2Proof.Machine

/-- Tap `i` of the static path: read when active, else `0.0` and no read (spec 42_process R143). -/
def tapRead (fr : FpSite → BitVec 53) (s : State) (i : Nat) (ms : F64) : Except Cause F64 :=
  if i < s.tapCount then ringRead fr i s.ringLen s.sRing (msToSamples fr i s.spms ms) else .ok Fp.posZero

/-- The four tap outputs, read in the order 0 to 3; the first failure is reported (spec 42_process R143, R148). -/
def tapReads (fr : FpSite → BitVec 53) (s : State) : Except Cause Taps :=
  match tapRead fr s 0 s.tapMs.t0 with
  | .error c => .error c
  | .ok t0 =>
    match tapRead fr s 1 s.tapMs.t1 with
    | .error c => .error c
    | .ok t1 =>
      match tapRead fr s 2 s.tapMs.t2 with
      | .error c => .error c
      | .ok t2 =>
        match tapRead fr s 3 s.tapMs.t3 with
        | .error c => .error c
        | .ok t3 => .ok ⟨t0, t1, t2, t3⟩

/-- `avg = (((t_0 + t_1) + t_2) + t_3) / 4.0`, whatever the tap count (spec 42_process R144). -/
def tapAverage (fr : FpSite → BitVec 53) (t : Taps) : F64 :=
  Fp.div (fr .avgQuot)
    (Fp.add (fr (.avgSum 3)) (Fp.add (fr (.avgSum 2)) (Fp.add (fr (.avgSum 1)) t.t0 t.t1) t.t2) t.t3) Fp.c4

/-- `fbs`, the weighted feedback sum (spec 42_process R145). -/
def feedbackSum (fr : FpSite → BitVec 53) (t : Taps) : F64 :=
  Fp.add (fr (.fbSum 3))
    (Fp.add (fr (.fbSum 2))
      (Fp.add (fr (.fbSum 1)) (Fp.mul (fr (.fbTerm 0)) Fp.c0p05 t.t0) (Fp.mul (fr (.fbTerm 1)) Fp.c0p10 t.t1))
      (Fp.mul (fr (.fbTerm 2)) Fp.c0p25 t.t2))
    (Fp.mul (fr (.fbTerm 3)) Fp.c0p60 t.t3)

/-- `win = x + (P.feedbackPct / 100.0) * fbs`, the delay-line input (spec 42_process R146). -/
def staticIn (fr : FpSite → BitVec 53) (p : ParamBank) (x : F64) (t : Taps) : F64 :=
  Fp.add (fr .writeSum) x
    (Fp.mul (fr .fbScaled) (Fp.div (fr .fbGain) p.feedbackPct Fp.c100) (feedbackSum fr t))

/-- `y = P.blend * avg + (1.0 - P.blend) * x` (spec 42_process R147). -/
def staticOut (fr : FpSite → BitVec 53) (p : ParamBank) (x : F64) (t : Taps) : F64 :=
  Fp.add (fr .mixSum) (Fp.mul (fr .wetTerm) p.blend (tapAverage fr t))
    (Fp.mul (fr .dryTerm) (Fp.sub (fr .dryWeight) Fp.c1 p.blend) x)

/-- `STATIC_PATH(x, P)` (spec 42_process R148): the output and the new `S_RING`. -/
def staticPath (fr : FpSite → BitVec 53) (x : F64) (s : State) : Except Cause (F64 × Ring) :=
  match tapReads fr s with
  | .error c => .error c
  | .ok t => .ok (staticOut fr s.param x t, ringWrite s.ringLen s.sRing (staticIn fr s.param x t))

/-- The multiplexer (spec 42_process R142): the mode's row of `MOD_RANGE` and the LFO's samples when the modulated path is
taken, `none` for the static path. -/
def selectPath (s : State) : Option LfoOut → Option (ModMode × LfoOut)
  | none => none
  | some o =>
    match modModeOf s.param.modeSelectorValue with
    | some m => some (m, o)
    | none => none

/-- The path of a `PROC`, on a state whose units have stepped: the output and the state with the path's ring and `LAST_PATH`
(spec 42_process R140, R142). -/
def runPath (P : Params) (fr : FpSite → BitVec 53) (x : F64) (sc : Option F64) (lfo : Option LfoOut) (s : State) :
    Except Cause (F64 × State) :=
  match selectPath s lfo with
  | some (m, o) =>
    match modPath P fr m x o sc s with
    | .error c => .error c
    | .ok (y, r) => .ok (y, endModulated r s)
  | none =>
    match staticPath fr x s with
    | .error c => .error c
    | .ok (y, r) => .ok (y, endStatic r s)

/-- The state after the detector's and the LFO's steps of a `PROC` (spec 42_process R140). -/
def stepUnits (env phase : F64) (s : State) : State := setLfoPhase phase (setDetEnv env s)

/-- `PROC(x)` (spec 42_process R140), every step in the order of the rule. -/
def proc (P : Params) (fr : FpSite → BitVec 53) (x : F64) (s : State) : Except Cause (List Word × State) :=
  if s.configured then
    if s.paramsValid then
      match procLfo P fr s with
      | .error c => .error c
      | .ok lfo =>
        match runPath P fr x (procScDepth P fr s) lfo (stepUnits (procEnv P fr s) (procPhase s lfo) s) with
        | .error c => .error c
        | .ok (y, t) => .ok ([y], nextDraw t)
    else .error .noParams
  else .error .unconfigured

/-- `PROC`. Its NaN results draw the free bits of this `PROC` of this instance, which no other `PROC` and no other channel of a
system draws. That the bits are a function of the draw and the operation is the model's DESIGN CHOICE (n3): the spec leaves
every NaN's sign and payload open. -/
def execProc (x : F64) (s : State) : Host.Outcome State Fault Refusal :=
  finish s (proc Config.hw (Config.freeNan s.nanDraw) x s)

end Sys2Proof.Machine
end

