-- ==== Sys2Proof/Machine/Dispatch.lean ====
section
/-! DEFINITION. One arm per command, each one direct call of its meaning. -/

namespace Sys2Proof.Machine

/-- What a command does to the state. -/
def exec (i : Instr) (s : State) : Host.Outcome State Fault Refusal :=
  match i with
  | .reset fs => Sys2Proof.Machine.execReset fs s
  | .setp pk => Sys2Proof.Machine.execSetp pk s
  | .getp => Sys2Proof.Machine.execGetp s
  | .proc x => Sys2Proof.Machine.execProc x s
  | .auxen e => Sys2Proof.Machine.execAuxen e s
  | .auxin a => Sys2Proof.Machine.execAuxin a s
  | .gets => Sys2Proof.Machine.execGets s

end Sys2Proof.Machine
end

