-- ==== Sys2Proof/Machine/Step.lean ====
section
/-!
DEFINITION. One step: the next whole command of the host's stream, performed atomically (spec 20_memory R54).
-/

namespace Sys2Proof.Machine

/-- One step. A faulted state has none (spec 60_exceptions R243). Otherwise the decoder takes the next command off the host's
byte stream and it is performed; an illegal command byte raises `F_ILLEGAL_CMD` before any operand is taken
(spec 30_encoding R82); while no whole command has arrived the block holds its whole state (spec 60_exceptions R253,
70_reset_and_hazards R261; n4). -/
def step (s : State) : Host.Outcome State Fault Refusal :=
  if s.fault then .fault (.stuck s.faultCause)
  else
    match decode s.hostIn with
    | .cmd i rest => exec i (setHostIn rest s)
    | .illegal _ rest => raiseFault .illegalCmd (setHostIn rest s)
    | .incomplete => .next s

/-- `s` with the instruction whose bits are `w` as the next, and only, command of the host's stream (n4). -/
def State.withFetchWord (s : State) (nbits w : Nat) : State := setHostIn (tableBytes nbits w) s

end Sys2Proof.Machine
end

