-- ==== Sys2Proof/Machine/Assembler.lean ====
section
/-!
DEFINITION. The assembler syntax, the literals and the pseudo-commands (spec 30_encoding R85 to R87). A line is a list of
characters; an ill-formed line gives `none`.
-/

namespace Sys2Proof.Machine

/-! Literals (spec 30_encoding R86). -/

/-- A decimal digit's value. -/
def decDigit (c : Char) : Option Nat :=
  if 48 ≤ c.toNat ∧ c.toNat ≤ 57 then some (c.toNat - 48) else none

/-- A hexadecimal digit's value. -/
def hexDigit (c : Char) : Option Nat :=
  if 48 ≤ c.toNat ∧ c.toNat ≤ 57 then some (c.toNat - 48)
  else if 65 ≤ c.toNat ∧ c.toNat ≤ 70 then some (c.toNat - 55)
  else if 97 ≤ c.toNat ∧ c.toNat ≤ 102 then some (c.toNat - 87)
  else none

/-- The digits at the front of a text, as a number after `acc`, how many they are, and the text after them. -/
def takeDigits (acc len : Nat) : List Char → Nat × Nat × List Char
  | [] => (acc, len, [])
  | c :: cs =>
    match decDigit c with
    | some d => takeDigits (acc * 10 + d) (len + 1) cs
    | none => (acc, len, c :: cs)

/-- A text of hexadecimal digits alone, as a number after `acc`. -/
def hexNat (acc : Nat) : List Char → Option Nat
  | [] => some acc
  | c :: cs =>
    match hexDigit c with
    | some d => hexNat (acc * 16 + d) cs
    | none => none

/-- A number at least one digit long, and the text after it. -/
def someDigits (cs : List Char) : Option (Nat × Nat × List Char) :=
  let r := takeDigits 0 0 cs
  if r.2.1 = 0 then none else some r

/-- An optional sign: is it a minus, and the text after it. -/
def takeSign : List Char → Bool × List Char
  | '-' :: cs => (true, cs)
  | '+' :: cs => (false, cs)
  | cs => (false, cs)

/-- The binary64 nearest to plus or minus `n * 10^(up - down)`, ties to even (spec 30_encoding R86). -/
def nearestDecimal (neg : Bool) (n up down : Nat) : F64 :=
  Fp.round neg (n * 10 ^ up * Fp.one1074) (10 ^ down)

/-- The fraction part after the whole part: its digits after `n`, how many they are, and the text after them. -/
def takeFraction (n : Nat) : List Char → Option (Nat × Nat × List Char)
  | '.' :: cs =>
    let r := takeDigits n 0 cs
    if r.2.1 = 0 then none else some r
  | cs => some (n, 0, cs)

/-- The digits of an exponent, to the end of the text. -/
def wholeDigits (cs : List Char) : Option Nat :=
  match someDigits cs with
  | some (e, _, []) => some e
  | _ => none

/-- An optional exponent to the end of the text: is it negative, and its magnitude. -/
def takeExponent : List Char → Option (Bool × Nat)
  | [] => some (false, 0)
  | c :: cs =>
    if c = 'e' ∨ c = 'E' then
      match wholeDigits (takeSign cs).2 with
      | some e => some ((takeSign cs).1, e)
      | none => none
    else none

/-- A decimal literal: an optional sign, digits, an optional fraction, an optional exponent (spec 30_encoding R86). -/
def parseDecimal (cs : List Char) : Option F64 :=
  match someDigits (takeSign cs).2 with
  | none => none
  | some (whole, _, cs1) =>
    match takeFraction whole cs1 with
    | none => none
    | some (n, len, cs2) =>
      match takeExponent cs2 with
      | none => none
      | some (true, e) => some (nearestDecimal (takeSign cs).1 n 0 (len + e))
      | some (false, e) => some (nearestDecimal (takeSign cs).1 n e len)

/-- A `<real>`: a bit pattern `0x` and exactly 16 hexadecimal digits, or a decimal literal (spec 30_encoding R86). -/
def parseReal : List Char → Option F64
  | '0' :: 'x' :: cs =>
    if cs.length = 16 then
      match hexNat 0 cs with
      | some n => some (BitVec.ofNat 64 n)
      | none => none
    else none
  | cs => parseDecimal cs

/-- A natural below 2^64 as a word. -/
def natWord (n : Nat) : Option Word := if n < 2 ^ 64 then some (BitVec.ofNat 64 n) else none

/-- A `<nat>`: a decimal or `0x` hexadecimal natural below 2^64 (spec 30_encoding R86). -/
def parseNat : List Char → Option Word
  | '0' :: 'x' :: c :: cs =>
    match hexNat 0 (c :: cs) with
    | some n => natWord n
    | none => none
  | cs =>
    match wholeDigits cs with
    | some n => natWord n
    | none => none

/-- A bit, `0` or `1`. -/
def parseBit : List Char → Option Bool
  | ['0'] => some false
  | ['1'] => some true
  | _ => none

/-- A modulation type: its name or a natural (spec 30_encoding R85). -/
def parseModType (cs : List Char) : Option Word :=
  if cs = ['F', 'L', 'A', 'N', 'G', 'E', 'R'] then some 0#64
  else if cs = ['V', 'I', 'B', 'R', 'A', 'T', 'O'] then some 1#64
  else if cs = ['C', 'H', 'O', 'R', 'U', 'S'] then some 2#64
  else parseNat cs

/-! Lines (spec 30_encoding R85). -/

/-- A space or a tab. -/
def isBlank (c : Char) : Bool := c = ' ' || c = '\t'

/-- The text before the comment, which starts at `;`. -/
def dropComment : List Char → List Char
  | [] => []
  | c :: cs => if c = ';' then [] else c :: dropComment cs

/-- The text without the blanks around it. -/
def trim (cs : List Char) : List Char := ((cs.dropWhile isBlank).reverse.dropWhile isBlank).reverse

/-- The parts of a text between the characters `sep`: the text up to the first, and the others. -/
def splitAtChar (sep : Char) : List Char → List Char × List (List Char)
  | [] => ([], [])
  | c :: cs =>
    if c = sep then ([], (splitAtChar sep cs).1 :: (splitAtChar sep cs).2)
    else (c :: (splitAtChar sep cs).1, (splitAtChar sep cs).2)

/-- The operands of a line, separated by commas, each without the blanks around it; none where the text is blank. -/
def splitOperands (cs : List Char) : List (List Char) :=
  if trim cs = [] then []
  else trim (splitAtChar ',' cs).1 :: (splitAtChar ',' cs).2.map trim

/-- The value of `key=value`, where the key is the one expected. -/
def keyed (key : List Char) (cs : List Char) : Option (List Char) :=
  match splitAtChar '=' cs with
  | (k, [v]) => if trim k = key then some (trim v) else none
  | _ => none

/-- A keyword operand, read by `f`. -/
def keyedBy {α : Type} (key : List Char) (f : List Char → Option α) (cs : List Char) : Option α :=
  match keyed key cs with
  | some v => f v
  | none => none

/-- The ten keyword operands of `SETP`, all present and in order (spec 30_encoding R85). -/
def parsePacket : List (List Char) → Option Packet
  | [o0, o1, o2, o3, o4, o5, o6, o7, o8, o9] => do
    let feedbackPct ← keyedBy ['f', 'b'] parseReal o0
    let blend ← keyedBy ['b', 'l', 'e', 'n', 'd'] parseReal o1
    let modeSelectorValue ← keyedBy ['m', 'o', 'd', 'e'] parseNat o2
    let delayTimeShortMs ← keyedBy ['s', 'h', 'o', 'r', 't'] parseReal o3
    let delayTimeLongMs ← keyedBy ['l', 'o', 'n', 'g'] parseReal o4
    let modDepthPct ← keyedBy ['d', 'e', 'p', 't', 'h'] parseReal o5
    let modRateHz ← keyedBy ['r', 'a', 't', 'e'] parseReal o6
    let modType ← keyedBy ['t', 'y', 'p', 'e'] parseModType o7
    let enableMod ← keyedBy ['m', 'o', 'd'] parseBit o8
    let enableSidechain ← keyedBy ['s', 'c'] parseBit o9
    some
      { feedbackPct, blend, modeSelectorValue, delayTimeShortMs, delayTimeLongMs, modDepthPct, modRateHz, modType,
        flags := flagsWord enableMod enableSidechain }
  | _ => none

/-- What a line of assembler stands for. -/
inductive AsmLine where
  /-- nothing but blanks and a comment -/
  | empty
  /-- a command -/
  | cmd (i : Instr)
  /-- the pseudo-command `FLUSH` (spec 30_encoding R87) -/
  | flush
  /-- the pseudo-command `PROCS x, a` (spec 30_encoding R87) -/
  | procs (x a : F64)
deriving DecidableEq, Repr

/-- One `<real>` operand. -/
def oneReal (f : F64 → AsmLine) : List (List Char) → Option AsmLine
  | [o] => (parseReal o).map f
  | _ => none

/-- The line of a mnemonic and its operands (spec 30_encoding R85, R87). -/
def assembleParts (mnemonic : List Char) (ops : List (List Char)) : Option AsmLine :=
  if mnemonic = ['R', 'E', 'S', 'E', 'T'] then oneReal (fun x => .cmd (.reset x)) ops
  else if mnemonic = ['S', 'E', 'T', 'P'] then (parsePacket ops).map (fun pk => .cmd (.setp pk))
  else if mnemonic = ['G', 'E', 'T', 'P'] then (if ops = [] then some (.cmd .getp) else none)
  else if mnemonic = ['P', 'R', 'O', 'C'] then oneReal (fun x => .cmd (.proc x)) ops
  else if mnemonic = ['A', 'U', 'X', 'E', 'N'] then
    match ops with
    | [o] => (parseBit o).map (fun b => .cmd (.auxen (if b then 1#64 else 0#64)))
    | _ => none
  else if mnemonic = ['A', 'U', 'X', 'I', 'N'] then oneReal (fun x => .cmd (.auxin x)) ops
  else if mnemonic = ['G', 'E', 'T', 'S'] then (if ops = [] then some (.cmd .gets) else none)
  else if mnemonic = ['F', 'L', 'U', 'S', 'H'] then (if ops = [] then some .flush else none)
  else if mnemonic = ['P', 'R', 'O', 'C', 'S'] then
    match ops with
    | [o0, o1] =>
      match parseReal o0, parseReal o1 with
      | some x, some a => some (.procs x a)
      | _, _ => none
    | _ => none
  else none

/-- One line: the mnemonic, then the operands separated by commas; `;` starts a comment (spec 30_encoding R85). -/
def assembleLine (line : List Char) : Option AsmLine :=
  let text := trim (dropComment line)
  if text = [] then some .empty
  else assembleParts (text.takeWhile (fun c => !isBlank c)) (splitOperands (text.dropWhile (fun c => !isBlank c)))

/-- The commands a line stands for at a state (spec 30_encoding R87): `FLUSH` is `RESET` with the current `FS`, meaningful
only when `CONFIGURED = 1`; `PROCS x, a` is `AUXIN a` then `PROC x`. -/
def expandLine (s : State) : AsmLine → Option (List Instr)
  | .empty => some []
  | .cmd i => some [i]
  | .flush => if s.configured then some [.reset s.fs] else none
  | .procs x a => some [.auxin a, .proc x]

end Sys2Proof.Machine
end

