-- ==== Sys2Proof/Machine/System.lean ====
section
/-!
DEFINITION. A system of `N_CHANNELS` independent instances, one per audio channel (spec 00_scope R15, 60_exceptions R251).
-/

namespace Sys2Proof.Machine

/-- The instances of a system, by channel. They share no state (spec 00_scope R15, 20_memory R67). -/
structure System where
  channels : List State
deriving DecidableEq, Repr

/-- The instance of channel `k` at power-on. Its free NaN bits come from draws of its own, so that no two channels share any:
the spec leaves the NaN bits of every channel open (00_scope R9). DESIGN CHOICE (n3). -/
def instanceReset (k : Nat) : State := { State.reset with nanDraw := ⟨k, 0⟩ }

/-- A system at power-on: every instance starts on its own (spec 60_exceptions R251). -/
def systemReset : System := ⟨(List.range Config.hw.nChannels).map instanceReset⟩

/-- One step of the instance of channel `k`; a channel the system does not have makes none. A faulted instance has no step
(spec 60_exceptions R243), and the other instances go on. The step keeps the source of the instance's free NaN bits (n3). -/
def stepChannel (k : Nat) (sys : System) : Host.Outcome System Fault Refusal :=
  match sys.channels[k]? with
  | none => .next sys
  | some s =>
    match step s with
    | .next t => .next ⟨sys.channels.set k t⟩
    | .fault r => .fault r
    | .refused r => .refused r

end Sys2Proof.Machine
end

