-- ==== Sys2Proof/Safety.lean ====
section
/-!
DEFINITION. What counts as a good state: no contract violation, and the relations between the elements of the state that
the spec states (10_state R21 to R35, 41_tap_resolver R126, R128).
-/

namespace Sys2Proof.Machine

/-- No contract has been violated: `FAULT = 0` (spec 10_state R35). -/
def Safe (s : State) : Prop := s.fault = false

/-- The rings have a legal length and are in canonical form (spec 10_state R24, R28, R29). -/
structure RingsGood (s : State) : Prop where
  lower : 2 ≤ s.ringLen
  upper : s.ringLen ≤ 2 ^ 53
  sRing : Memory.wf s.ringLen s.sRing = true
  mRing : Memory.wf s.ringLen s.mRing = true

/-- Tap `i` of the resolved times. -/
def Taps.get (t : Taps) : Nat → F64
  | 0 => t.t0
  | 1 => t.t1
  | 2 => t.t2
  | 3 => t.t3
  | _ => Fp.posZero

/-- `TAP_COUNT` is 1 to 4 and the inactive taps are `0.0` (spec 10_state R27). -/
structure TapsGood (s : State) : Prop where
  lower : 1 ≤ s.tapCount
  upper : s.tapCount ≤ 4
  inactive : ∀ i, s.tapCount ≤ i → s.tapMs.get i = Fp.posZero

/-- Once `PARAMS_VALID`, `PARAM` is in contract and the taps are its resolution (spec 10_state R25 to R27). -/
structure ParamsGood (s : State) : Prop where
  inContract : validate (packetOfBank s.param) = true
  resolved : (s.tapCount, s.tapMs) =
    resolve Config.hw fixedNan s.param.modeSelectorValue s.param.delayTimeShortMs s.param.delayTimeLongMs

/-- While `CONFIGURED`, the elements `RESET` derives from the rate are so derived (spec 10_state R22 to R24, R32). -/
structure RateGood (s : State) : Prop where
  rate : finitePositive s.fs = true
  spms : s.spms = Fp.div (fixedNan .spms) s.fs Fp.c1000
  ringLen : s.ringLen = ringLenFn Config.hw s.fs
  fits : s.ringLen ≤ maxRingLen Config.hw
  att : s.detAtt = detCoef Config.hw Fp.c1 s.fs
  rel : s.detRel = detCoef Config.hw Fp.c500 s.fs

/-- `FAULT` and `FAULT_CAUSE` agree: no cause without a fault, a cause of spec 60_exceptions R241 with one. -/
structure FaultGood (s : State) : Prop where
  clear : s.fault = false → s.faultCause = 0
  cause : s.fault = true → 1 ≤ s.faultCause ∧ s.faultCause ≤ 7

/-- The invariant of the machine. -/
structure Inv (s : State) : Prop where
  rings : RingsGood s
  taps : TapsGood s
  params : s.paramsValid = true → ParamsGood s
  rate : s.configured = true → RateGood s
  env : Fp.le Fp.posZero s.detEnv = true
  faults : FaultGood s

/-- `LFO_PHASE` lies in `[0.0, 1.0)` (spec 10_state R30). -/
def PhaseGood (s : State) : Prop := Fp.le Fp.posZero s.lfoPhase = true ∧ Fp.lt s.lfoPhase Fp.c1 = true

end Sys2Proof.Machine
end

