-- ==== Sys2Proof/Certificates/Slice0/Obligations.lean ====
section
/-!
DEFINITION. The statements for the provers, one per entry of OBLIGATIONS.json, from the numbered rules of the spec.
-/

open Sys2Proof Sys2Proof.Machine

/-! The command encoding. -/

/-- Every command, sent on the byte stream, is decoded whole, and nothing after it is touched
(30_encoding R70, R72, R73, R76, R83). -/
def Obligations.EncodeThenDecode : Prop :=
  ∀ (i : Instr) (rest : List Byte), decode (encode i ++ rest) = .cmd i rest

/-- A decoded command has no other bytes than its encoding: no encoding is read two ways
(30_encoding R72, R73, R83). -/
def Obligations.DecodeThenEncode : Prop :=
  ∀ (bs : List Byte) (i : Instr) (rest : List Byte), decode bs = .cmd i rest → bs = encode i ++ rest

/-- 30_encoding R84: the decoder on every byte value, the operand words of each opcode, and what ILLEGAL raises. -/
def Obligations.CommandByteMap : Prop :=
  (∀ b : Byte, decodeByte b =
    if b = 0x01#8 then some .reset else if b = 0x02#8 then some .setp else if b = 0x03#8 then some .getp
    else if b = 0x04#8 then some .proc else if b = 0x05#8 then some .auxen else if b = 0x06#8 then some .auxin
    else if b = 0x07#8 then some .gets else none) ∧
  [Opcode.reset, .setp, .getp, .proc, .auxen, .auxin, .gets].map operandWords = [1, 9, 0, 1, 1, 1, 0] ∧
  (∀ (s : State) (b : Byte) (rest : List Byte), s.fault = false → s.hostIn = b :: rest → decodeByte b = none →
    step s = .next { s with hostIn := rest, fault := true, faultCause := 1 })

/-- 30_encoding R82: a reserved command byte, reserved bits of the `AUXEN` operand and reserved bits of the flags word raise
their faults; the command byte's takes no operand word. -/
def Obligations.ReservedEncodingsFault : Prop :=
  (∀ (s : State) (b : Byte) (rest : List Byte), s.fault = false → s.hostIn = b :: rest →
    (b.extractLsb' 4 4 ≠ 0#4 ∨ b.extractLsb' 0 4 = 0#4 ∨ 8 ≤ (b.extractLsb' 0 4).toNat) →
    step s = .next { s with hostIn := rest, fault := true, faultCause := 1 }) ∧
  (∀ (s : State) (e : Word), e.extractLsb' 1 63 ≠ 0#63 →
    exec (.auxen e) s = .next { s with fault := true, faultCause := 1 }) ∧
  (∀ (s : State) (pk : Packet), pk.flags.extractLsb' 2 62 ≠ 0#62 →
    exec (.setp pk) s = .next { s with fault := true, faultCause := 5 })

/-- Words written out from the spec's encodings (95_test_vectors L2.1; 30_encoding R72, R76) decode to their commands. -/
def Obligations.SampleWordsDecode : Prop :=
  decode [0x01, 0x00, 0x00, 0x00, 0x00, 0x00, 0x40, 0x8F, 0x40] = .cmd (.reset 0x408F400000000000#64) [] ∧
  decode [0x04, 0x00, 0x00, 0x00, 0x00, 0x00, 0x00, 0xF0, 0x3F, 0x07] = .cmd (.proc 0x3FF0000000000000#64) [0x07] ∧
  decode [0x05, 0x01, 0x00, 0x00, 0x00, 0x00, 0x00, 0x00, 0x00] = .cmd (.auxen 1#64) [] ∧
  decode [0x06, 0x00, 0x00, 0x00, 0x00, 0x00, 0x00, 0xE0, 0x3F] = .cmd (.auxin 0x3FE0000000000000#64) [] ∧
  decode [0x03] = .cmd .getp [] ∧ decode [0x07] = .cmd .gets [] ∧ decode [0x14] = .illegal 0x14 []

/-! The step. -/

/-- A step performs the decoded command, on the state whose stream starts after it (20_memory R54). -/
def Obligations.StepRunsTheCommand : Prop :=
  ∀ (s : State) (i : Instr) (rest : List Byte), s.fault = false → decode s.hostIn = .cmd i rest →
    step s = exec i { s with hostIn := rest }

/-- 60_exceptions R243: a faulted state has no step, and a fault leaves every element but `FAULT` and `FAULT_CAUSE` as it was
before the command. -/
def Obligations.FaultIsFinalAndLeavesTheRest : Prop :=
  (∀ s : State, s.fault = true → step s = .fault (.stuck s.faultCause)) ∧
  (∀ (i : Instr) (s t : State), s.fault = false → exec i s = .next t → t.fault = true →
    ∃ c : Cause, t = { s with fault := true, faultCause := causeCode c })

/-- While no whole command has arrived the block holds its whole state (60_exceptions R253, 70_reset_and_hazards R261).
How the stream shows that is the model's choice, log entry 4. -/
def Obligations.WaitsForAWholeCommand : Prop :=
  (∀ s : State, s.fault = false → s.hostIn = [] → step s = .next s) ∧
  (∀ (s : State) (b : Byte) (op : Opcode) (bs : List Byte), s.fault = false → s.hostIn = b :: bs → decodeByte b = some op →
    bs.length < 8 * operandWords op → step s = .next s)

/-- Every command ends in a next state, whatever the state and the operands: none refuses and none is stuck
(20_memory R54, 70_reset_and_hazards R269). -/
def Obligations.EveryCommandEnds : Prop :=
  ∀ (i : Instr) (s : State), ∃ t : State, exec i s = .next t

/-! `RESET`. -/

/-- 45_control R221. -/
def Obligations.ResetRefusesBadRate : Prop :=
  ∀ (fs : F64) (s : State), (Fp.isFinite fs = false ∨ Fp.lt Fp.posZero fs = false) →
    exec (.reset fs) s = .next { s with fault := true, faultCause := 2 }

/-- 45_control R222: a rate whose ring does not fit unconfigures the block, returns 0 and changes nothing else; an unconfigured
block faults at every `PROC` and stays unconfigured until a `RESET` returns 1. That the other elements keep their values, where
the rule then calls them unspecified, is the model's choice, log entry 5. -/
def Obligations.ResetCapacityFailure : Prop :=
  (∀ (fs : F64) (s : State), Fp.isFinite fs = true → Fp.lt Fp.posZero fs = true →
    maxRingLen Config.hw < ringLenFn Config.hw fs →
    exec (.reset fs) s = .next { s with configured := false, hostOut := s.hostOut ++ [0#64] }) ∧
  (∀ (x : F64) (s : State), s.configured = false →
    exec (.proc x) s = .next { s with fault := true, faultCause := 3 }) ∧
  (∀ (i : Instr) (s t : State), s.configured = false → exec i s = .next t →
    (∀ fs : F64, i = .reset fs → t.hostOut ≠ s.hostOut ++ [1#64]) → t.configured = false)

/-- 45_control R220: what `RESET` does with every legal rate, with room for the ring and without, at an unchanged rate and at
a new one (R222, R223, R224). Without room the other elements keep their values: log entry 5. -/
def Obligations.ResetCompletes : Prop :=
  ∀ (fs : F64) (s : State), Fp.isFinite fs = true → Fp.lt Fp.posZero fs = true →
    exec (.reset fs) s = .next
      (if maxRingLen Config.hw < ringLenFn Config.hw fs then
        { s with configured := false, hostOut := s.hostOut ++ [0#64] }
      else
        { s with
          configured := true
          fs := fs
          spms := Fp.div (Config.freeNan ⟨0, 0⟩ .spms) fs 0x408F400000000000#64
          ringLen := if s.configured = true ∧ Fp.feq fs s.fs = true then s.ringLen else ringLenFn Config.hw fs
          sRing := ⟨[], 0⟩
          mRing := ⟨[], 0⟩
          lfoPhase := 0x0000000000000000#64
          detEnv := 0x0000000000000000#64
          detAtt := detCoef Config.hw 0x3FF0000000000000#64 fs
          detRel := detCoef Config.hw 0x407F400000000000#64 fs
          lastPath := .none
          hostOut := s.hostOut ++ [1#64] })

/-- 45_control R223, for every choice of the OPEN parameters: a successful `RESET` at the unchanged rate keeps `C` and clears
both delay histories. -/
def Obligations.UnchangedRateResetFlushes : Prop :=
  ∀ (P : Params) (fr : FpSite → BitVec 53) (fs : F64) (s : State), s.configured = true → finitePositive fs = true →
    Fp.feq fs s.fs = true → ringLenFn P fs ≤ maxRingLen P →
    ∃ t : State, reset P fr fs s = .ok ([1#64], t) ∧ t.ringLen = s.ringLen ∧ t.configured = true ∧
      ∀ k : Nat, ringCell t.ringLen t.sRing k = 0x0000000000000000#64 ∧ ringCell t.ringLen t.mRing k = 0x0000000000000000#64

/-- What `RESET` leaves alone (45_control R220, "State not touched"). -/
def Obligations.ResetFrame : Prop :=
  ∀ (fs : F64) (s t : State), exec (.reset fs) s = .next t →
    t.param = s.param ∧ t.paramsValid = s.paramsValid ∧ t.tapCount = s.tapCount ∧ t.tapMs = s.tapMs ∧
    t.auxEn = s.auxEn ∧ t.auxSample = s.auxSample ∧ t.hostIn = s.hostIn ∧ t.nanDraw = s.nanDraw

/-! `SETP` and `GETP`. -/

/-- 41_tap_resolver R127: `SETP` with an in-contract packet, in any state. -/
def Obligations.SetpCompletes : Prop :=
  ∀ (pk : Packet) (s : State), validate pk = true →
    exec (.setp pk) s = .next
      { s with
        param := bankOfPacket pk
        tapCount :=
          (resolve Config.hw (Config.freeNan ⟨0, 0⟩) pk.modeSelectorValue pk.delayTimeShortMs pk.delayTimeLongMs).1
        tapMs := (resolve Config.hw (Config.freeNan ⟨0, 0⟩) pk.modeSelectorValue pk.delayTimeShortMs pk.delayTimeLongMs).2
        paramsValid := true }

/-- 41_tap_resolver R128: `SETP` raises `F_PARAM_RANGE` exactly when one of the nine checks fails. -/
def Obligations.SetpChecksTheContract : Prop :=
  ∀ (pk : Packet) (s t : State), s.fault = false → exec (.setp pk) s = .next t →
    ((Fp.le Fp.posZero pk.feedbackPct = true ∧ Fp.le pk.feedbackPct 0x4059000000000000#64 = true ∧
      Fp.le Fp.posZero pk.blend = true ∧ Fp.le pk.blend 0x3FF0000000000000#64 = true ∧
      1 ≤ pk.modeSelectorValue.toNat ∧ pk.modeSelectorValue.toNat ≤ 14 ∧
      Fp.isFinite pk.delayTimeShortMs = true ∧ Fp.lt Fp.posZero pk.delayTimeShortMs = true ∧
      Fp.isFinite pk.delayTimeLongMs = true ∧ Fp.lt Fp.posZero pk.delayTimeLongMs = true ∧
      Fp.le Fp.posZero pk.modDepthPct = true ∧ Fp.le pk.modDepthPct 0x4059000000000000#64 = true ∧
      Fp.isFinite pk.modRateHz = true ∧ Fp.lt Fp.posZero pk.modRateHz = true ∧
      (pk.modType = 0#64 ∨ pk.modType = 1#64 ∨ pk.modType = 2#64) ∧ pk.flags.extractLsb' 2 62 = 0#62) ↔
      t.fault = false) ∧
    (t.fault = true → t = { s with fault := true, faultCause := 5 })

/-- 41_tap_resolver R130: `GETP`, then `SETP` with the nine words it returned, leaves every element as it was. The premise
`ParamsGood` is part of the invariant `Inv`: the bank came from a `SETP`. -/
def Obligations.GetpThenSetpChangesNothing : Prop :=
  ∀ s : State, s.paramsValid = true → ParamsGood s →
    ∃ (pk : Packet) (t : State), exec .getp s = .next t ∧ t = { s with hostOut := s.hostOut ++ packetWords pk } ∧
      exec (.setp pk) t = .next t

/-- 41_tap_resolver R129: `GETP` returns the last packet bit for bit. -/
def Obligations.GetpReturnsTheLastPacket : Prop :=
  ∀ (pk : Packet) (s t : State), validate pk = true → exec (.setp pk) s = .next t →
    exec .getp t = .next { t with hostOut := t.hostOut ++
      [pk.feedbackPct, pk.blend, pk.modeSelectorValue, pk.delayTimeShortMs, pk.delayTimeLongMs, pk.modDepthPct,
        pk.modRateHz, pk.modType, pk.flags] }

/-- 41_tap_resolver R129: `GETP` writes no state and answers nine words, or faults before the first `SETP`. -/
def Obligations.GetpCompletes : Prop :=
  ∀ s : State,
    (s.paramsValid = true → exec .getp s = .next { s with hostOut := s.hostOut ++ packetWords (packetOfBank s.param) }) ∧
    (s.paramsValid = false → exec .getp s = .next { s with fault := true, faultCause := 4 })

/-- 41_tap_resolver R122, R123: rows 1 and 14 of the schedule, for every choice of the OPEN rows, as resolved taps
(R125). -/
def Obligations.FixedScheduleRows : Prop :=
  ∀ (P : Params) (fr : FpSite → BitVec 53) (shortMs longMs : F64), finitePositive shortMs = true →
    finitePositive longMs = true →
    schedRow P 1#64 = .one .short ∧ schedRow P 14#64 = .four .long .long .long .long ∧
    resolve P fr 1#64 shortMs longMs = (1, ⟨shortMs, Fp.posZero, Fp.posZero, Fp.posZero⟩) ∧
    resolve P fr 14#64 shortMs longMs =
      (4, ⟨longMs, Fp.add (fr (.chain 1)) longMs longMs,
        Fp.add (fr (.chain 2)) longMs (Fp.add (fr (.chain 1)) longMs longMs),
        Fp.add (fr (.chain 3)) longMs (Fp.add (fr (.chain 2)) longMs (Fp.add (fr (.chain 1)) longMs longMs))⟩)

/-- 41_tap_resolver R126 (a) to (c), for every choice of the OPEN rows: inactive taps are `0.0`, active ones positive and
never falling. -/
def Obligations.ResolvedTapProperties : Prop :=
  ∀ (P : Params) (fr : FpSite → BitVec 53) (mode : Word) (shortMs longMs : F64), finitePositive shortMs = true →
    finitePositive longMs = true →
    1 ≤ (resolve P fr mode shortMs longMs).1 ∧ (resolve P fr mode shortMs longMs).1 ≤ 4 ∧
    ∀ i : Nat,
      ((resolve P fr mode shortMs longMs).1 ≤ i → (resolve P fr mode shortMs longMs).2.get i = Fp.posZero) ∧
      (i < (resolve P fr mode shortMs longMs).1 →
        Fp.lt Fp.posZero ((resolve P fr mode shortMs longMs).2.get i) = true) ∧
      (i + 1 < (resolve P fr mode shortMs longMs).1 →
        Fp.le ((resolve P fr mode shortMs longMs).2.get i) ((resolve P fr mode shortMs longMs).2.get (i + 1)) = true)

/-! `AUXEN`, `AUXIN`, `GETS`. -/

/-- 44_sidechain R200: the enable operand's two legal values, and every other. -/
def Obligations.AuxenCompletes : Prop :=
  ∀ s : State,
    exec (.auxen 1#64) s = .next { s with auxEn := true } ∧
    exec (.auxen 0#64) s = .next { s with auxEn := false } ∧
    ∀ e : Word, e ≠ 0#64 → e ≠ 1#64 → exec (.auxen e) s = .next { s with fault := true, faultCause := 1 }

/-- 44_sidechain R201: any sample is latched in any state, and reading it in a `PROC` does not clear it. -/
def Obligations.AuxinCompletes : Prop :=
  (∀ (a : F64) (s : State), exec (.auxin a) s = .next { s with auxSample := a }) ∧
  (∀ (x : F64) (s t : State), exec (.proc x) s = .next t → t.auxSample = s.auxSample)

/-- 45_control R225, 30_encoding R81: `GETS` changes nothing and returns the status word, field by field. -/
def Obligations.GetsCompletes : Prop :=
  ∀ s : State, ∃ w : Word, exec .gets s = .next { s with hostOut := s.hostOut ++ [w] } ∧
    w.getLsbD 0 = s.configured ∧ w.getLsbD 1 = s.paramsValid ∧ w.getLsbD 2 = s.auxEn ∧
    w.extractLsb' 3 2 = (match s.lastPath with | .none => 0#2 | .static => 1#2 | .modulated => 2#2) ∧
    w.extractLsb' 5 59 = 0#59

/-! `PROC`. -/

/-- 42_process R141. -/
def Obligations.ProcNeedsResetAndParameters : Prop :=
  ∀ (x : F64) (s : State),
    (s.configured = false → exec (.proc x) s = .next { s with fault := true, faultCause := 3 }) ∧
    (s.configured = true → s.paramsValid = false → exec (.proc x) s = .next { s with fault := true, faultCause := 4 })

/-- 42_process R140, R142 to R148: a `PROC` on the static path, every active tap within the ring and the LFO within its
rate. The taps are the ring's reads (inactive ones `0.0`); the output and the value written are those of the rules, and so are
the units' steps: the detector's of 44_sidechain R204 (`v` the squared input, attack exactly when `v > DET_ENV`, the recursion
`e`, the flush and the clamp) and the LFO's of 43_modulation R170 (the phase `p`, wrapped once). -/
def Obligations.ProcStaticCompletes : Prop :=
  ∀ (x : F64) (s : State), s.configured = true → s.paramsValid = true →
    ¬(s.param.enableMod = true ∧ (s.param.modeSelectorValue = 1#64 ∨ s.param.modeSelectorValue = 2#64)) →
    (s.param.enableMod = true →
      Fp.lt (Fp.div (Config.freeNan s.nanDraw .lfoInc) s.param.modRateHz s.fs) 0x3FF0000000000000#64 = true) →
    (∀ i, i < 4 → i < s.tapCount →
      delayInRange s.ringLen (Fp.mul (Config.freeNan s.nanDraw (.msToSamples i)) (s.tapMs.get i) s.spms) = true) →
    let fr := Config.freeNan s.nanDraw
    let a := if s.auxEn = true then s.auxSample else 0x0000000000000000#64
    let v := Fp.mul (fr .detSquare) (Fp.abs a) (Fp.abs a)
    let e := Fp.add (fr .detSum)
      (Fp.mul (fr .detScale) (if Fp.lt s.detEnv v = true then s.detAtt else s.detRel) (Fp.sub (fr .detDiff) s.detEnv v)) v
    let env := if s.param.enableSidechain = true then
        Fp.fmax (fr .detClamp) (if Fp.lt (Fp.abs e) Config.hw.detFlush = true then 0x0000000000000000#64 else e)
          0x0000000000000000#64
      else s.detEnv
    let inc := Fp.div (fr .lfoInc) s.param.modRateHz s.fs
    let p := Fp.add (fr .lfoAdvance) s.lfoPhase inc
    let phase := if Fp.le 0x3FF0000000000000#64 p = true then Fp.sub (fr .lfoWrap) p 0x3FF0000000000000#64 else p
    ∃ t : Taps,
      (∀ i, i < 4 → i < s.tapCount →
        ringRead fr i s.ringLen s.sRing (Fp.mul (fr (.msToSamples i)) (s.tapMs.get i) s.spms) = .ok (t.get i)) ∧
      (∀ i, i < 4 → s.tapCount ≤ i → t.get i = 0x0000000000000000#64) ∧
      (let avg := Fp.div (fr .avgQuot)
          (Fp.add (fr (.avgSum 3)) (Fp.add (fr (.avgSum 2)) (Fp.add (fr (.avgSum 1)) t.t0 t.t1) t.t2) t.t3)
          0x4010000000000000#64
       let fbs := Fp.add (fr (.fbSum 3))
          (Fp.add (fr (.fbSum 2))
            (Fp.add (fr (.fbSum 1)) (Fp.mul (fr (.fbTerm 0)) 0x3FA999999999999A#64 t.t0)
              (Fp.mul (fr (.fbTerm 1)) 0x3FB999999999999A#64 t.t1))
            (Fp.mul (fr (.fbTerm 2)) 0x3FD0000000000000#64 t.t2))
          (Fp.mul (fr (.fbTerm 3)) 0x3FE3333333333333#64 t.t3)
       let win := Fp.add (fr .writeSum) x
          (Fp.mul (fr .fbScaled) (Fp.div (fr .fbGain) s.param.feedbackPct 0x4059000000000000#64) fbs)
       let y := Fp.add (fr .mixSum) (Fp.mul (fr .wetTerm) s.param.blend avg)
          (Fp.mul (fr .dryTerm) (Fp.sub (fr .dryWeight) 0x3FF0000000000000#64 s.param.blend) x)
       exec (.proc x) s = .next
        { s with
          detEnv := env
          lfoPhase := if s.param.enableMod = true then phase else s.lfoPhase
          sRing := ringWrite s.ringLen s.sRing win
          lastPath := .static
          hostOut := s.hostOut ++ [y]
          nanDraw := s.nanDraw.next })

/-- 42_process R140, R142; 43_modulation R170, R173 to R180; 44_sidechain R204, R206, R207: a `PROC` on the modulated path, the
LFO within its rate and the modulated delay within the ring. `m` is the mode's row of `MOD_RANGE`. The detector's step (`env`,
its root `r` and level `dB`), the override depth `sc` and the LFO's step are spelled out as the rules have them. -/
def Obligations.ProcModulatedCompletes : Prop :=
  ∀ (x : F64) (s : State) (m : ModMode), s.configured = true → s.paramsValid = true → s.param.enableMod = true →
    ((s.param.modeSelectorValue = 1#64 ∧ m = .mode1) ∨ (s.param.modeSelectorValue = 2#64 ∧ m = .mode2)) →
    let fr := Config.freeNan s.nanDraw
    let inc := Fp.div (fr .lfoInc) s.param.modRateHz s.fs
    let p := Fp.add (fr .lfoAdvance) s.lfoPhase inc
    let phase := if Fp.le 0x3FF0000000000000#64 p = true then Fp.sub (fr .lfoWrap) p 0x3FF0000000000000#64 else p
    let b := lfoWave Config.hw s.lfoPhase
    let u := Fp.add (fr .lfoUni) (Fp.mul (fr .lfoHalf) 0x3FE0000000000000#64 b) 0x3FE0000000000000#64
    let a := if s.auxEn = true then s.auxSample else 0x0000000000000000#64
    let v := Fp.mul (fr .detSquare) (Fp.abs a) (Fp.abs a)
    let e := Fp.add (fr .detSum)
      (Fp.mul (fr .detScale) (if Fp.lt s.detEnv v = true then s.detAtt else s.detRel) (Fp.sub (fr .detDiff) s.detEnv v)) v
    let env := if s.param.enableSidechain = true then
        Fp.fmax (fr .detClamp) (if Fp.lt (Fp.abs e) Config.hw.detFlush = true then 0x0000000000000000#64 else e)
          0x0000000000000000#64
      else s.detEnv
    let r := Fp.sqrt (fr .detRoot) env
    let dB := if Fp.le r 0x0000000000000000#64 = true then Config.hw.detDbFloor
      else Fp.mul (fr .detDb) 0x4034000000000000#64 (Config.hw.log10 r)
    let lin := Config.hw.pow10 (Fp.div (fr .scExponent) dB 0x4034000000000000#64)
    let sc := Fp.add (fr .scOffset) 0x3FC999999999999A#64
      (Fp.mul (fr .scScale) 0x3FE999999999999A#64
        (Fp.fmin (fr .scHigh) (Fp.fmax (fr .scLow) lin 0x0000000000000000#64) 0x3FF0000000000000#64))
    let d := Fp.div (fr .depthScale) s.param.modDepthPct 0x4069000000000000#64
    let depth := if s.param.enableSidechain = true then sc
      else if s.param.modType = .flanger then Fp.mul (fr .depthDouble) d 0x4000000000000000#64 else d
    let mMin := modMin Config.hw m s.param.modType
    let mRng := modRng Config.hw m s.param.modType
    let half := Fp.mul (fr .modHalf) mRng 0x3FE0000000000000#64
    let delayMs := if s.param.modType = .flanger then
        Fp.add (fr .modDelay) mMin (Fp.mul (fr .modSpan) (Fp.mul (fr .modScale) depth u) mRng)
      else
        Fp.add (fr .modDelay) (Fp.add (fr .modCentre) mMin half)
          (Fp.mul (fr .modSpan) (Fp.mul (fr .modScale) depth b) half)
    Fp.lt inc 0x3FF0000000000000#64 = true →
    delayInRange s.ringLen (Fp.mul (fr (.msToSamples 4)) delayMs s.spms) = true →
    ∃ yd : F64, ringRead fr 4 s.ringLen s.mRing (Fp.mul (fr (.msToSamples 4)) delayMs s.spms) = .ok yd ∧
      (let fbPct := if s.param.modType = .flanger then flangerFbPct Config.hw else 0x0000000000000000#64
       let win := Fp.add (fr .modWrite) x
          (Fp.mul (fr .modFbScaled) (Fp.div (fr .modFbGain) fbPct 0x4059000000000000#64) yd)
       let gDry := Config.hw.pow10 (Fp.div (fr .modDryDb) (modDryDb Config.hw s.param.modType) 0x4034000000000000#64)
       let gWet := Config.hw.pow10 (Fp.div (fr .modWetDb) (modWetDb Config.hw s.param.modType) 0x4034000000000000#64)
       exec (.proc x) s = .next
        { s with
          detEnv := env
          lfoPhase := phase
          mRing := ringWrite s.ringLen s.mRing win
          lastPath := .modulated
          hostOut := s.hostOut ++ [Fp.add (fr .modMix) (Fp.mul (fr .modDry) gDry x) (Fp.mul (fr .modWet) gWet yd)]
          nanDraw := s.nanDraw.next })

/-- 43_modulation R170, 60_exceptions R242: an LFO increment that is not below 1.0 faults on either path, before any read. -/
def Obligations.ProcLfoRateFaults : Prop :=
  ∀ (x : F64) (s : State), s.configured = true → s.paramsValid = true → s.param.enableMod = true →
    Fp.lt (Fp.div (Config.freeNan s.nanDraw .lfoInc) s.param.modRateHz s.fs) 0x3FF0000000000000#64 = false →
    exec (.proc x) s = .next { s with fault := true, faultCause := 7 }

/-- 40_delay_line R103, 42_process R148, 43_modulation R178: an active tap outside the ring makes a `PROC` on the static path
fault, whichever tap it is, and a modulated delay outside the ring one on the modulated path; nothing is written. -/
def Obligations.ProcTapOutsideTheRingFaults : Prop :=
  (∀ (x : F64) (s : State) (i : Nat), s.configured = true → s.paramsValid = true →
    ¬(s.param.enableMod = true ∧ (s.param.modeSelectorValue = 1#64 ∨ s.param.modeSelectorValue = 2#64)) →
    (s.param.enableMod = true →
      Fp.lt (Fp.div (Config.freeNan s.nanDraw .lfoInc) s.param.modRateHz s.fs) 0x3FF0000000000000#64 = true) →
    i < 4 → i < s.tapCount →
    delayInRange s.ringLen (Fp.mul (Config.freeNan s.nanDraw (.msToSamples i)) (s.tapMs.get i) s.spms) = false →
    exec (.proc x) s = .next { s with fault := true, faultCause := 6 }) ∧
  (∀ (x : F64) (s : State) (m : ModMode), s.configured = true → s.paramsValid = true → s.param.enableMod = true →
    ((s.param.modeSelectorValue = 1#64 ∧ m = .mode1) ∨ (s.param.modeSelectorValue = 2#64 ∧ m = .mode2)) →
    let fr := Config.freeNan s.nanDraw
    let inc := Fp.div (fr .lfoInc) s.param.modRateHz s.fs
    let o : LfoOut :=
      ⟨lfoWave Config.hw s.lfoPhase, unipolar fr (lfoWave Config.hw s.lfoPhase), advancePhase fr s.lfoPhase inc⟩
    Fp.lt inc 0x3FF0000000000000#64 = true →
    delayInRange s.ringLen (Fp.mul (fr (.msToSamples 4))
      (modDelayMs Config.hw fr m s.param.modType (modDepth fr s.param (procScDepth Config.hw fr s)) o) s.spms) = false →
    exec (.proc x) s = .next { s with fault := true, faultCause := 6 })

/-- 42_process R150, 10_state R37: what a `PROC` on the static path leaves alone: all of `M_RING`, every cell of `S_RING` but
the one at `S_WP`, the units that are off, and every element `PROC` does not write. -/
def Obligations.ProcStaticFrame : Prop :=
  ∀ (x : F64) (s t : State), exec (.proc x) s = .next t →
    ¬(s.param.enableMod = true ∧ (s.param.modeSelectorValue = 1#64 ∨ s.param.modeSelectorValue = 2#64)) →
    (∀ j, cellRead t.mRing.cells j = cellRead s.mRing.cells j) ∧ t.mRing.wp = s.mRing.wp ∧
    (∀ j, j ≠ s.sRing.wp → cellRead t.sRing.cells j = cellRead s.sRing.cells j) ∧
    (s.param.enableMod = false → t.lfoPhase = s.lfoPhase) ∧ (s.param.enableSidechain = false → t.detEnv = s.detEnv) ∧
    t.configured = s.configured ∧ t.fs = s.fs ∧ t.spms = s.spms ∧ t.ringLen = s.ringLen ∧ t.param = s.param ∧
    t.paramsValid = s.paramsValid ∧ t.tapCount = s.tapCount ∧ t.tapMs = s.tapMs ∧ t.detAtt = s.detAtt ∧
    t.detRel = s.detRel ∧ t.auxEn = s.auxEn ∧ t.auxSample = s.auxSample ∧ t.hostIn = s.hostIn ∧
    (t.lastPath = .static ∧ t.fault = s.fault ∧ t.faultCause = s.faultCause ∨
      t.lastPath = s.lastPath ∧ t.fault = true)

/-- 42_process R150, 10_state R37: what a `PROC` on the modulated path leaves alone: all of `S_RING`, every cell of `M_RING` but
the one at `M_WP`, a detector that is off, and every element `PROC` does not write. -/
def Obligations.ProcModulatedFrame : Prop :=
  ∀ (x : F64) (s t : State), exec (.proc x) s = .next t → s.param.enableMod = true →
    (s.param.modeSelectorValue = 1#64 ∨ s.param.modeSelectorValue = 2#64) →
    (∀ j, cellRead t.sRing.cells j = cellRead s.sRing.cells j) ∧ t.sRing.wp = s.sRing.wp ∧
    (∀ j, j ≠ s.mRing.wp → cellRead t.mRing.cells j = cellRead s.mRing.cells j) ∧
    (s.param.enableSidechain = false → t.detEnv = s.detEnv) ∧
    t.configured = s.configured ∧ t.fs = s.fs ∧ t.spms = s.spms ∧ t.ringLen = s.ringLen ∧ t.param = s.param ∧
    t.paramsValid = s.paramsValid ∧ t.tapCount = s.tapCount ∧ t.tapMs = s.tapMs ∧ t.detAtt = s.detAtt ∧
    t.detRel = s.detRel ∧ t.auxEn = s.auxEn ∧ t.auxSample = s.auxSample ∧ t.hostIn = s.hostIn ∧
    (t.lastPath = .modulated ∧ t.fault = s.fault ∧ t.faultCause = s.faultCause ∨
      t.lastPath = s.lastPath ∧ t.fault = true)

/-! Who writes what, over all commands. -/

/-- 20_memory R57: no command but `RESET` changes `C`, or anything `RESET` derives from the rate (10_state R32, R37). -/
def Obligations.OnlyResetResizes : Prop :=
  ∀ (i : Instr) (s t : State), i.opcode ≠ .reset → exec i s = .next t →
    t.ringLen = s.ringLen ∧ t.configured = s.configured ∧ t.fs = s.fs ∧ t.spms = s.spms ∧ t.detAtt = s.detAtt ∧
    t.detRel = s.detRel

/-- 10_state R25, R33, R37: `PARAM` and the taps have one writer, `SETP`; `AUX_EN` has `AUXEN`; `AUX_SAMPLE` has `AUXIN`. -/
def Obligations.OneWriterForParametersAndAux : Prop :=
  ∀ (i : Instr) (s t : State), exec i s = .next t →
    (i.opcode ≠ .setp →
      t.param = s.param ∧ t.paramsValid = s.paramsValid ∧ t.tapCount = s.tapCount ∧ t.tapMs = s.tapMs) ∧
    (i.opcode ≠ .auxen → t.auxEn = s.auxEn) ∧ (i.opcode ≠ .auxin → t.auxSample = s.auxSample)

/-- 20_memory R51, 10_state R37: only `PROC` and `RESET` touch the rings, the LFO, the envelope and `LAST_PATH`: every other
command leaves every cell of both rings and both pointers as they were. -/
def Obligations.OnlyProcAndResetTouchTheRings : Prop :=
  ∀ (i : Instr) (s t : State), i.opcode ≠ .proc → i.opcode ≠ .reset → exec i s = .next t →
    (∀ j, cellRead t.sRing.cells j = cellRead s.sRing.cells j) ∧ t.sRing.wp = s.sRing.wp ∧
    (∀ j, cellRead t.mRing.cells j = cellRead s.mRing.cells j) ∧ t.mRing.wp = s.mRing.wp ∧
    t.lfoPhase = s.lfoPhase ∧ t.detEnv = s.detEnv ∧ t.lastPath = s.lastPath ∧ t.hostIn = s.hostIn ∧
    t.nanDraw = s.nanDraw

/-- 20_memory R56: `SETP`, `AUXEN` and `AUXIN` twice leave the state of once; `GETP` and `GETS` change nothing but add the same
results again. -/
def Obligations.RepeatedCommandsAreIdempotent : Prop :=
  (∀ (i : Instr) (s t : State), (i.opcode = .setp ∨ i.opcode = .auxen ∨ i.opcode = .auxin) → exec i s = .next t →
    exec i t = .next t) ∧
  (∀ (i : Instr) (s : State), (i.opcode = .getp ∧ s.paramsValid = true ∨ i.opcode = .gets) →
    ∃ ws : List Word, exec i s = .next { s with hostOut := s.hostOut ++ ws } ∧
      exec i { s with hostOut := s.hostOut ++ ws } = .next { s with hostOut := s.hostOut ++ ws ++ ws })

/-- 30_encoding R87: the expansions of the two pseudo-commands. -/
def Obligations.PseudoCommandsExpand : Prop :=
  (∀ s : State, s.configured = true → expandLine s .flush = some [.reset s.fs]) ∧
  (∀ (s : State) (x a : F64), expandLine s (.procs x a) = some [.auxin a, .proc x])

/-! The static path's arithmetic. -/

/-- 42_process R144: with one active tap of value `V` the average is `V / 4`, not `V`. -/
def Obligations.AverageDividesByFour : Prop :=
  ∀ (fr : FpSite → BitVec 53) (V : F64), Fp.isFinite V = true → Fp.mag V ≠ 0 →
    tapAverage fr ⟨V, Fp.posZero, Fp.posZero, Fp.posZero⟩ = Fp.div (fr .avgQuot) V 0x4010000000000000#64

/-- 42_process R145: the four weights sum to exactly 1.0 in this order. -/
def Obligations.FeedbackWeightsSumToOne : Prop :=
  ∀ fr : FpSite → BitVec 53,
    Fp.add (fr (.fbSum 3)) (Fp.add (fr (.fbSum 2)) (Fp.add (fr (.fbSum 1)) Fp.c0p05 Fp.c0p10) Fp.c0p25) Fp.c0p60 =
      0x3FF0000000000000#64

/-- 42_process R149 (c): with no feedback the ring takes the dry input, for a finite feedback sum and an input other than a
zero or a NaN. -/
def Obligations.ZeroFeedbackWritesTheDryInput : Prop :=
  ∀ (fr : FpSite → BitVec 53) (p : ParamBank) (x : F64) (t : Taps), Fp.mag p.feedbackPct = 0 →
    Fp.isFinite (feedbackSum fr t) = true → Fp.isNaN x = false → Fp.mag x ≠ 0 → staticIn fr p x t = x

/-- 42_process R149 (a): with `blend = 0.0` the output is the dry input, for a finite average and an input other than a zero
or a NaN. -/
def Obligations.BlendZeroIsDry : Prop :=
  ∀ (fr : FpSite → BitVec 53) (p : ParamBank) (x : F64) (t : Taps), p.blend = 0x0000000000000000#64 →
    Fp.isFinite (tapAverage fr t) = true → Fp.isNaN x = false → Fp.mag x ≠ 0 → staticOut fr p x t = x

/-- 42_process R149 (b): with `blend = 1.0` the output is the tap average, for a finite input and an average other than a zero
or a NaN. -/
def Obligations.BlendOneIsTheAverage : Prop :=
  ∀ (fr : FpSite → BitVec 53) (p : ParamBank) (x : F64) (t : Taps), p.blend = 0x3FF0000000000000#64 →
    Fp.isNaN (tapAverage fr t) = false → Fp.mag (tapAverage fr t) ≠ 0 → Fp.isFinite x = true →
    staticOut fr p x t = tapAverage fr t

/-! The delay ring. -/

/-- 40_delay_line R100: after a create or a flush and any number of writes, the cell `k` behind the write pointer holds the
value written `k` writes ago, or `+0.0` where no write has reached; the cell at the pointer is the one at distance `C`, and the
next write goes there. -/
def Obligations.RingRemembersItsWrites : Prop :=
  (∀ (C : Nat) (r r0 : Ring) (ws : List F64) (k : Nat), (r0 = ringCreate C ∨ r0 = ringFlush r) → 1 ≤ k → k ≤ C →
    ringCell C (ws.foldl (ringWrite C) r0) k =
      (if k ≤ ws.length then ws.getD (ws.length - k) 0x0000000000000000#64 else 0x0000000000000000#64)) ∧
  (∀ (C : Nat) (r : Ring) (v : F64), Memory.wf C r = true →
    ringIndex C r.wp C = r.wp ∧ cellRead (ringWrite C r v).cells r.wp = v)

/-- 40_delay_line R103 (a), R104: a read at a whole delay `n` gives the cell `n` behind, when that cell is no zero or NaN and
the one behind it is finite. -/
def Obligations.WholeDelayReadsAPastWrite : Prop :=
  ∀ (fr : FpSite → BitVec 53) (k C : Nat) (r : Ring) (n : Nat), C ≤ 2 ^ 53 → 1 ≤ n → n + 1 ≤ C →
    Fp.isNaN (ringCell C r n) = false → Fp.mag (ringCell C r n) ≠ 0 → Fp.isFinite (ringCell C r (n + 1)) = true →
    ringRead fr k C r (Fp.ofNat n) = .ok (ringCell C r n)

/-- 40_delay_line R103: a read is defined exactly on the delays from `0.0` to `C - 1`, blends the two cells of the rule, and
never indexes beyond the ring. -/
def Obligations.ReadRangeAndIndex : Prop :=
  ∀ (fr : FpSite → BitVec 53) (k C : Nat) (r : Ring) (d : F64),
    (Fp.le Fp.posZero d = true → Fp.le d (Fp.ofNat (C - 1)) = true →
      (let i := Fp.floor d
       let f := Fp.sub (fr (.ringFrac k)) d (Fp.ofNat i)
       ringRead fr k C r d =
        .ok (Fp.add (fr (.ringBlend k)) (Fp.mul (fr (.ringFar k)) f (ringCell C r (i + 1)))
          (Fp.mul (fr (.ringNear k)) (Fp.sub (fr (.ringRest k)) 0x3FF0000000000000#64 f) (ringCell C r i)))) ∧
      (1 ≤ C → C ≤ 2 ^ 53 → Fp.floor d + 1 ≤ C)) ∧
    ((Fp.le Fp.posZero d = false ∨ Fp.le d (Fp.ofNat (C - 1)) = false) → ringRead fr k C r d = .error .delayRange)

/-- 40_delay_line R103: the fraction of a delay is exact and lies in `[0.0, 1.0)`. -/
def Obligations.FractionOfADelayIsExact : Prop :=
  ∀ (q : BitVec 53) (d : F64), Fp.isFinite d = true → Fp.le Fp.posZero d = true → Fp.floor d ≤ 2 ^ 53 →
    Fp.value (Fp.sub q d (Fp.ofNat (Fp.floor d))) = Fp.value d - (Fp.floor d * Fp.one1074 : Nat) ∧
    Fp.le Fp.posZero (Fp.sub q d (Fp.ofNat (Fp.floor d))) = true ∧
    Fp.lt (Fp.sub q d (Fp.ofNat (Fp.floor d))) 0x3FF0000000000000#64 = true

/-! Modulation. -/

/-- 43_modulation R181 (a), R177, for every choice of the OPEN parameters: at depth zero the Flanger's delay is `modMin`, and the
Vibrato's and the Chorus's is the centre `mMin + half`. -/
def Obligations.DepthZeroGivesMinimumOrCentre : Prop :=
  ∀ (P : Params) (fr : FpSite → BitVec 53) (m : ModMode) (phase inc depth : F64), Fp.mag depth = 0 →
    let o : LfoOut := ⟨lfoWave P phase, unipolar fr (lfoWave P phase), advancePhase fr phase inc⟩
    Fp.feq (modDelayMs P fr m .flanger depth o) (modMin P m .flanger) = true ∧
    ∀ t : ModType, t ≠ .flanger →
      Fp.feq (modDelayMs P fr m t depth o)
        (Fp.add (fr .modCentre) (modMin P m t) (Fp.mul (fr .modHalf) (modRng P m t) 0x3FE0000000000000#64)) = true

/-- 43_modulation R176, R177: the modulated delays stay in their ranges. With `u` and the depth in `[0, 1]` the Flanger's lies
between `mMin` and `mMin + mRng`; with `b` in `[-1, 1]` and the depth in `[0, 1]` the Vibrato's and the Chorus's lies within
half the range of the centre `mMin + half`, each bound as binary64 rounds it. -/
def Obligations.ModulatedDelayStaysInRange : Prop :=
  (∀ (fr : FpSite → BitVec 53) (q : BitVec 53) (mMin mRng depth u : F64),
    Fp.isFinite mMin = true → Fp.le Fp.posZero mMin = true → Fp.isFinite mRng = true → Fp.le Fp.posZero mRng = true →
    Fp.le Fp.posZero depth = true → Fp.le depth 0x3FF0000000000000#64 = true →
    Fp.le Fp.posZero u = true → Fp.le u 0x3FF0000000000000#64 = true →
    Fp.le mMin (delayUni fr mMin mRng depth u) = true ∧
    Fp.le (delayUni fr mMin mRng depth u) (Fp.add q mMin mRng) = true) ∧
  (∀ (fr : FpSite → BitVec 53) (q : BitVec 53) (mMin mRng depth b : F64),
    Fp.isFinite mMin = true → Fp.le Fp.posZero mMin = true → Fp.isFinite mRng = true → Fp.le Fp.posZero mRng = true →
    Fp.le Fp.posZero depth = true → Fp.le depth 0x3FF0000000000000#64 = true →
    Fp.le 0xBFF0000000000000#64 b = true → Fp.le b 0x3FF0000000000000#64 = true →
    let half := Fp.mul (fr .modHalf) mRng 0x3FE0000000000000#64
    let centre := Fp.add (fr .modCentre) mMin half
    Fp.le (Fp.sub q centre half) (delayBi fr mMin mRng depth b) = true ∧
    Fp.le (delayBi fr mMin mRng depth b) (Fp.add q centre half) = true)

/-- 43_modulation R174, R181 (b): with the sidechain on, `modDepthPct` changes nothing of a `PROC`, on either path. The two runs
compared draw the same free NaN bits: that a NaN of one has the bits of the other's is the model's choice (log entry 3). -/
def Obligations.SidechainDepthIgnoresModDepth : Prop :=
  ∀ (x a : F64) (s t : State), s.param.enableSidechain = true → exec (.proc x) s = .next t →
    exec (.proc x) { s with param := { s.param with modDepthPct := a } } =
      .next { t with param := { t.param with modDepthPct := a } }

/-- 42_process R151: the parameters each path does not use. The two runs compared draw the same free NaN bits, the model's choice
(log entry 3). -/
def Obligations.PathsIgnoreEachOthersParameters : Prop :=
  (∀ (fr : FpSite → BitVec 53) (x a r : F64) (ty : ModType) (b : Bool) (s : State),
    staticPath fr x
      { s with param := { s.param with modDepthPct := a, modRateHz := r, modType := ty, enableSidechain := b } } =
      staticPath fr x s) ∧
  (∀ (P : Params) (fr : FpSite → BitVec 53) (m : ModMode) (x f b sh lo : F64) (o : LfoOut) (sc : Option F64) (n : Nat)
    (ts : Taps) (s : State),
    modPath P fr m x o sc
      { s with
        param := { s.param with feedbackPct := f, blend := b, delayTimeShortMs := sh, delayTimeLongMs := lo }
        tapCount := n
        tapMs := ts } =
      modPath P fr m x o sc s)

/-! The detector. -/

/-- 44_sidechain R207: the override depth lies in `[0.2, 1.0]`, for every choice of `POW10` and every level, a NaN too. -/
def Obligations.OverrideDepthInRange : Prop :=
  ∀ (P : Params) (fr : FpSite → BitVec 53) (dB : F64),
    Fp.le 0x3FC999999999999A#64 (scDepth P fr dB) = true ∧ Fp.le (scDepth P fr dB) 0x3FF0000000000000#64 = true

/-- 44_sidechain R204 (b): a NaN input resets the envelope. -/
def Obligations.NanInputClearsTheEnvelope : Prop :=
  ∀ (P : Params) (fr : FpSite → BitVec 53) (att rel env a : F64), Fp.isNaN a = true →
    detStepEnv P fr att rel env a = 0x0000000000000000#64

/-- 10_state R31: a detector step leaves an envelope `>= 0.0`, whatever it started from. -/
def Obligations.EnvelopeNeverNegative : Prop :=
  ∀ (P : Params) (fr : FpSite → BitVec 53) (att rel env a : F64),
    Fp.le Fp.posZero (detStepEnv P fr att rel env a) = true

/-- 44_sidechain R204 (a), R206: silence from a zero envelope keeps it at zero and gives the dB floor. -/
def Obligations.SilenceKeepsTheEnvelopeAtZero : Prop :=
  ∀ (P : Params) (fr : FpSite → BitVec 53) (att rel : F64), Fp.isFinite att = true → Fp.isFinite rel = true →
    detStepEnv P fr att rel Fp.posZero Fp.posZero = Fp.posZero ∧
    detStepDb P fr (detStepEnv P fr att rel Fp.posZero Fp.posZero) = P.detDbFloor

/-! The machine. -/

/-- 70_reset_and_hazards R260: the elements with a power-on value. -/
def Obligations.PowerOnState : Prop :=
  State.reset.configured = false ∧ State.reset.paramsValid = false ∧ State.reset.auxEn = false ∧
  State.reset.auxSample = 0x0000000000000000#64 ∧ State.reset.lastPath = .none ∧ State.reset.fault = false ∧
  State.reset.faultCause = 0

/-- The power-on state meets the invariants. It rests on the model's own power-on values of the unspecified elements
(DESIGN CHOICE, log entry 2). -/
def Obligations.PowerOnMeetsTheInvariants : Prop :=
  Inv State.reset ∧ PhaseGood State.reset

/-- Every step from a state that meets the invariant gives one that does: ring lengths, canonical rings, write pointers, taps,
parameters in contract and resolved, rate elements, envelope and fault cause stay as the spec says
(10_state R21 to R35, 41_tap_resolver R126, R128). -/
def Obligations.StepKeepsTheInvariant : Prop :=
  ∀ s t : State, Inv s → step s = .next t → Inv t

/-- 10_state R30: `LFO_PHASE` stays in `[0.0, 1.0)` through every step. -/
def Obligations.StepKeepsThePhase : Prop :=
  ∀ s t : State, Inv s → PhaseGood s → step s = .next t → PhaseGood t

/-- 60_exceptions R251, 20_memory R67: a step of one channel moves that instance as on its own and no other, and every channel
starts at power-on by itself. The channels' free NaN bits come from sources of their own, which no step changes (the model's
choice, log entry 3). -/
def Obligations.ChannelsAreIndependent : Prop :=
  (∀ (k : Nat) (sys sys' : System), stepChannel k sys = .next sys' →
    (∀ j, j ≠ k → sys'.channels[j]? = sys.channels[j]?) ∧
    (∀ s, sys.channels[k]? = some s →
      ∃ t, step s = .next t ∧ sys'.channels[k]? = some t ∧ t.nanDraw.source = s.nanDraw.source)) ∧
  (∀ k : Nat, systemReset.channels[k]? =
    if k < Config.hw.nChannels then some { State.reset with nanDraw := ⟨k, 0⟩ } else none)

/-! The arithmetic. -/

/-- 00_scope R9: rounding is to nearest, ties to even: no finite value is nearer to the exact `n / d` units than the rounded
one, on a tie the rounded one is even, and overflow starts half a step above the largest finite value. -/
def Obligations.RoundingIsNearest : Prop :=
  ∀ n d : Nat, 0 < d →
    (Fp.roundUnits n d < 2047 * 2 ^ 52 → ∀ m : Nat, m < 2047 * 2 ^ 52 →
      |(n : Int) - d * Fp.unitsOfMag (Fp.roundUnits n d)| ≤ |(n : Int) - d * Fp.unitsOfMag m| ∧
      (|(n : Int) - d * Fp.unitsOfMag (Fp.roundUnits n d)| = |(n : Int) - d * Fp.unitsOfMag m| →
        m ≠ Fp.roundUnits n d → Fp.roundUnits n d % 2 = 0)) ∧
    (Fp.roundUnits n d = 2047 * 2 ^ 52 ↔
      d * (Fp.unitsOfMag (2047 * 2 ^ 52 - 1) + Fp.unitsOfMag (2047 * 2 ^ 52)) ≤ 2 * n)

/-- 00_scope R9, 93_implementation_defined U20: the free value of a NaN result can be every NaN, and nothing else. -/
def Obligations.FreeNanReachesEveryNan : Prop :=
  ∀ a : F64, Fp.isNaN a = true ↔ ∃ q : BitVec 53, Fp.nanOf q = a
end

