-- ==== Sys2Proof/Laws/Decode.lean ====
section
/-!
SUPPORT. The transport's byte order: a word's bytes give the word back, and words are taken off the stream one after another.
-/

namespace Sys2Proof

theorem wordOfBytes_wordBytes (w : Word) :
    wordOfBytes (w.extractLsb' 0 8) (w.extractLsb' 8 8) (w.extractLsb' 16 8) (w.extractLsb' 24 8)
      (w.extractLsb' 32 8) (w.extractLsb' 40 8) (w.extractLsb' 48 8) (w.extractLsb' 56 8) = w := by
  apply BitVec.eq_of_toNat_eq
  have := w.isLt
  simp only [wordOfBytes, BitVec.toNat_append, BitVec.extractLsb'_toNat, Nat.shiftRight_eq_div_pow]
  repeat rw [← Nat.shiftLeft_add_eq_or_of_lt (by omega)]
  simp only [Nat.shiftLeft_eq]
  omega

theorem takeWords_wordBytes_append (n : Nat) (w : Word) (bs : List Byte) :
    takeWords (n + 1) (wordBytes w ++ bs) =
      match takeWords n bs with
      | some (ws, rest) => some (w :: ws, rest)
      | none => none := by
  rcases h : takeWords n bs with _ | ⟨ws, rest⟩ <;> simp [wordBytes, takeWords, wordOfBytes_wordBytes, h]

/-- The words of a list, sent one after another, are taken back whole. -/
theorem takeWords_flatMap_wordBytes (ws : List Word) (rest : List Byte) :
    takeWords ws.length (ws.flatMap wordBytes ++ rest) = some (ws, rest) := by
  induction ws with
  | nil => rfl
  | cons w ws ih =>
    rw [List.flatMap_cons, List.append_assoc, List.length_cons, takeWords_wordBytes_append, ih]

theorem length_wordBytes (w : Word) : (wordBytes w).length = 8 := rfl

theorem length_flatMap_wordBytes (ws : List Word) : (ws.flatMap wordBytes).length = 8 * ws.length := by
  induction ws with
  | nil => rfl
  | cons w ws ih => rw [List.flatMap_cons, List.length_append, ih, length_wordBytes, List.length_cons]; omega

theorem decodeByte_opcodeByte (op : Opcode) : decodeByte (opcodeByte op) = some op := by
  cases op <;> decide

theorem length_operands (i : Instr) : i.operands.length = operandWords i.opcode := by
  cases i <;> rfl

theorem instrOfWords_operands (i : Instr) : instrOfWords i.opcode i.operands = some i := by
  cases i <;> rfl

end Sys2Proof
end

