-- ==== Sys2Proof/Laws/Rounding.lean ====
section
/-!
SUPPORT. Rounding: what `roundUnits` gives, said once by the midpoints between neighbouring values, and from it that it is
monotone, exact on every representable value and nearest.
-/

namespace Sys2Proof.Machine.Fp

/-- A bit magnitude as a significand of at most 53 bits and a shift. -/
def Split (m sh M : Nat) : Prop := m = sh * 2 ^ 52 + M ∧ M < 2 ^ 53 ∧ (2 ^ 52 ≤ M ∨ sh = 0)

theorem exists_split (m : Nat) : ∃ sh M, Split m sh M := by
  by_cases h : m < 2 ^ 53
  · exact ⟨0, m, by omega, h, .inr rfl⟩
  · exact ⟨m / 2 ^ 52 - 1, m % 2 ^ 52 + 2 ^ 52, by omega, by omega, .inl (by omega)⟩

theorem unitsOfMag_split {m sh M : Nat} (h : Split m sh M) : unitsOfMag m = M * 2 ^ sh := by
  obtain ⟨rfl, hM, h | rfl⟩ := h
  · have h1 : (sh * 2 ^ 52 + M) / 2 ^ 52 = sh + 1 := by omega
    have h2 : (sh * 2 ^ 52 + M) % 2 ^ 52 = M - 2 ^ 52 := by omega
    have h3 : 2 ^ 52 + (M - 2 ^ 52) = M := by omega
    have h4 : sh + 1 - 1 = sh := by omega
    rw [unitsOfMag, h1, h2, if_neg (by omega), h3, h4]
  · rw [unitsOfMag]
    by_cases hlt : M < 2 ^ 52
    · rw [if_pos (by omega)]; omega
    · have h1 : (0 * 2 ^ 52 + M) / 2 ^ 52 = 1 := by omega
      rw [h1, if_neg (by omega)]; simp only [Nat.sub_self, pow_zero, mul_one]; omega

/-- The magnitude after a split one: the significand counts up by one, also where it overflows into the next binade. -/
theorem unitsOfMag_split_succ {m sh M : Nat} (h : Split m sh M) : unitsOfMag (m + 1) = (M + 1) * 2 ^ sh := by
  by_cases hM : M + 1 < 2 ^ 53
  · obtain ⟨rfl, _, h⟩ := h
    exact unitsOfMag_split ⟨by omega, hM, by omega⟩
  · obtain ⟨rfl, hlt, _⟩ := h
    have hM1 : M + 1 = 2 ^ 53 := by omega
    rw [unitsOfMag_split (sh := sh + 1) (M := 2 ^ 52) ⟨by omega, by norm_num, .inl le_rfl⟩, hM1, pow_succ]
    ring

theorem unitsOfMag_lt_succ (m : Nat) : unitsOfMag m < unitsOfMag (m + 1) := by
  obtain ⟨sh, M, h⟩ := exists_split m
  rw [unitsOfMag_split h, unitsOfMag_split_succ h]
  have := Nat.two_pow_pos sh
  nlinarith

theorem unitsOfMag_strictMono : StrictMono unitsOfMag := strictMono_nat_of_lt_succ unitsOfMag_lt_succ

@[simp] theorem unitsOfMag_zero : unitsOfMag 0 = 0 := by decide

/-- What `nearestEven` gives: within half a `g` of `n`, on the tie an even number. -/
theorem nearestEven_spec {n g : Nat} (hg : 0 < g) :
    (2 * n ≤ g * (2 * nearestEven n g + 1) ∧ (2 * n = g * (2 * nearestEven n g + 1) → nearestEven n g % 2 = 0)) ∧
    (g * (2 * nearestEven n g) ≤ 2 * n + g ∧ (g * (2 * nearestEven n g) = 2 * n + g → nearestEven n g % 2 = 0)) := by
  have hdm := Nat.div_add_mod n g
  have hlt := Nat.mod_lt n hg
  generalize hq : n / g = q at *
  generalize hr : n % g = r at *
  subst hdm
  unfold nearestEven
  rw [hq, hr]
  split
  · next h =>
    have hle : g ≤ 2 * r := by omega
    refine ⟨⟨by nlinarith, fun h2 => ?_⟩, by nlinarith, fun h2 => ?_⟩
    · exfalso; nlinarith
    · have : 2 * r = g := by nlinarith
      omega
  · next h =>
    have hle : 2 * r ≤ g := by omega
    refine ⟨⟨by nlinarith, fun h2 => ?_⟩, by nlinarith, fun h2 => ?_⟩
    · have : 2 * r = g := by nlinarith
      omega
    · exfalso; nlinarith

/-- The rounded magnitude before the overflow to infinity. -/
def roundRaw (n d : Nat) : Nat := roundShift n d * 2 ^ 52 + nearestEven n (d * 2 ^ roundShift n d)

theorem roundUnits_eq (n d : Nat) : roundUnits n d = min (roundRaw n d) (2047 * 2 ^ 52) := rfl

/-- The significand that is rounded has 53 bits, or fewer in the lowest binade. -/
theorem shifted_bounds {n d : Nat} (hd : 0 < d) :
    n < d * 2 ^ roundShift n d * 2 ^ 53 ∧ (roundShift n d ≠ 0 → d * 2 ^ roundShift n d * 2 ^ 52 ≤ n) := by
  have hq : n / d < 2 ^ ((n / d).log2 + 1) := Nat.lt_log2_self
  constructor
  · have h1 : 2 ^ ((n / d).log2 + 1) ≤ 2 ^ (roundShift n d + 53) :=
      Nat.pow_le_pow_right (by norm_num) (by unfold roundShift; omega)
    have h2 : n / d < 2 ^ (roundShift n d + 53) := lt_of_lt_of_le hq h1
    have h3 := (Nat.div_lt_iff_lt_mul hd).mp h2
    calc n < 2 ^ (roundShift n d + 53) * d := h3
      _ = d * 2 ^ roundShift n d * 2 ^ 53 := by rw [pow_add]; ring
  · intro hne
    have hlog : (n / d).log2 = roundShift n d + 52 := by unfold roundShift at hne ⊢; omega
    have hq0 : n / d ≠ 0 := by
      intro h0
      rw [h0] at hlog
      simp at hlog
    have h1 : 2 ^ (n / d).log2 ≤ n / d := Nat.log2_self_le hq0
    rw [hlog] at h1
    have h2 := (Nat.le_div_iff_mul_le hd).mp h1
    calc d * 2 ^ roundShift n d * 2 ^ 52 = 2 ^ (roundShift n d + 52) * d := by rw [pow_add]; ring
      _ ≤ n := h2

/-- The rounded magnitude lies at or above `n / d` less half a step. -/
theorem roundRaw_upper {n d : Nat} (hd : 0 < d) :
    2 * n ≤ d * (unitsOfMag (roundRaw n d) + unitsOfMag (roundRaw n d + 1)) ∧
    (2 * n = d * (unitsOfMag (roundRaw n d) + unitsOfMag (roundRaw n d + 1)) → roundRaw n d % 2 = 0) := by
  have hb := shifted_bounds (n := n) hd
  unfold roundRaw
  generalize hs : roundShift n d = sh at *
  have hp : 0 < 2 ^ sh := Nat.two_pow_pos sh
  have hg : 0 < d * 2 ^ sh := Nat.mul_pos hd hp
  have hne := nearestEven_spec (n := n) hg
  generalize hM : nearestEven n (d * 2 ^ sh) = M at *
  obtain ⟨⟨hu, hue⟩, hl, hle⟩ := hne
  have hM53 : M ≤ 2 ^ 53 := by
    by_contra hcon
    have : 2 ^ 53 + 1 ≤ M := by omega
    have h4 := Nat.mul_le_mul_left (d * 2 ^ sh) this
    nlinarith
  have hM52 : sh ≠ 0 → 2 ^ 52 ≤ M := by
    intro h0
    by_contra hcon
    have : M + 1 ≤ 2 ^ 52 := by omega
    have h4 := Nat.mul_le_mul_left (d * 2 ^ sh) this
    have h5 := hb.2 h0
    nlinarith
  have hpar : (sh * 2 ^ 52 + M) % 2 = M % 2 := by omega
  rw [hpar]
  rcases Nat.lt_or_ge M (2 ^ 53) with hlt | hge
  · have hsp : Split (sh * 2 ^ 52 + M) sh M := ⟨rfl, hlt, by by_cases h0 : sh = 0 <;> simp_all⟩
    rw [unitsOfMag_split hsp, unitsOfMag_split_succ hsp]
    have he : d * (M * 2 ^ sh + (M + 1) * 2 ^ sh) = d * 2 ^ sh * (2 * M + 1) := by ring
    rw [he]
    exact ⟨hu, hue⟩
  · have hMe : M = 2 ^ 53 := by omega
    subst hMe
    have hsp : Split (sh * 2 ^ 52 + 2 ^ 53) (sh + 1) (2 ^ 52) := ⟨by omega, by norm_num, .inl le_rfl⟩
    rw [unitsOfMag_split hsp, unitsOfMag_split_succ hsp]
    refine ⟨?_, fun _ => by norm_num⟩
    calc 2 * n ≤ d * 2 ^ sh * (2 * 2 ^ 53 + 1) := hu
      _ ≤ d * 2 ^ sh * (2 ^ 54 + 2) := Nat.mul_le_mul_left _ (by norm_num)
      _ = d * (2 ^ 52 * 2 ^ (sh + 1) + (2 ^ 52 + 1) * 2 ^ (sh + 1)) := by ring

/-- The rounded magnitude lies at or below `n / d` plus half a step. -/
theorem roundRaw_lower {n d m : Nat} (hd : 0 < d) (hm : roundRaw n d = m + 1) :
    d * (unitsOfMag m + unitsOfMag (m + 1)) ≤ 2 * n ∧
    (d * (unitsOfMag m + unitsOfMag (m + 1)) = 2 * n → m % 2 = 1) := by
  have hb := shifted_bounds (n := n) hd
  unfold roundRaw at hm
  generalize hs : roundShift n d = sh at *
  have hp : 0 < 2 ^ sh := Nat.two_pow_pos sh
  have hg : 0 < d * 2 ^ sh := Nat.mul_pos hd hp
  have hne := nearestEven_spec (n := n) hg
  generalize hM : nearestEven n (d * 2 ^ sh) = M at *
  obtain ⟨⟨hu, hue⟩, hl, hle⟩ := hne
  have hM53 : M ≤ 2 ^ 53 := by
    by_contra hcon
    have : 2 ^ 53 + 1 ≤ M := by omega
    have h4 := Nat.mul_le_mul_left (d * 2 ^ sh) this
    nlinarith
  have hM52 : sh ≠ 0 → 2 ^ 52 ≤ M := by
    intro h0
    by_contra hcon
    have : M + 1 ≤ 2 ^ 52 := by omega
    have h4 := Nat.mul_le_mul_left (d * 2 ^ sh) this
    have h5 := hb.2 h0
    nlinarith
  by_cases hlow : M = 2 ^ 52 ∧ sh ≠ 0
  · obtain ⟨rfl, h0⟩ := hlow
    obtain ⟨t, rfl⟩ := Nat.exists_eq_succ_of_ne_zero h0
    have hsp : Split m t (2 ^ 53 - 1) := ⟨by omega, by norm_num, .inl (by norm_num)⟩
    rw [unitsOfMag_split hsp, unitsOfMag_split_succ hsp]
    have h5 := hb.2 h0
    have ht : 0 < d * 2 ^ t := Nat.mul_pos hd (Nat.two_pow_pos t)
    have hstrict : d * ((2 ^ 53 - 1) * 2 ^ t + (2 ^ 53 - 1 + 1) * 2 ^ t) < 2 * n := by
      have e1 : d * ((2 ^ 53 - 1) * 2 ^ t + (2 ^ 53 - 1 + 1) * 2 ^ t) = d * 2 ^ t * (2 ^ 54 - 1) := by
        have : (2 ^ 54 - 1 : Nat) = (2 ^ 53 - 1) + (2 ^ 53 - 1 + 1) := by norm_num
        rw [this]; ring
      have e2 : d * 2 ^ (t + 1) * 2 ^ 52 = d * 2 ^ t * 2 ^ 53 := by rw [pow_succ]; ring
      rw [Nat.succ_eq_add_one, e2] at h5
      rw [e1]
      have : (2 ^ 54 - 1 : Nat) = 18014398509481983 := by norm_num
      rw [this]
      nlinarith
    exact ⟨hstrict.le, fun h => by omega⟩
  · have hMpos : 1 ≤ M := by
      by_contra hcon
      have : M = 0 := by omega
      subst this
      have : sh ≠ 0 := by omega
      have := hM52 this
      omega
    have hsp : Split m sh (M - 1) := ⟨by omega, by omega, by
      by_cases h0 : sh = 0
      · exact .inr h0
      · left
        have := hM52 h0
        have : M ≠ 2 ^ 52 := fun h => hlow ⟨h, h0⟩
        omega⟩
    rw [unitsOfMag_split hsp, unitsOfMag_split_succ hsp]
    obtain ⟨K, rfl⟩ : ∃ K, M = K + 1 := ⟨M - 1, by omega⟩
    simp only [Nat.add_sub_cancel] at *
    have he : d * (K * 2 ^ sh + (K + 1) * 2 ^ sh) + d * 2 ^ sh = d * 2 ^ sh * (2 * (K + 1)) := by ring
    refine ⟨by omega, fun h => ?_⟩
    have := hle (by omega)
    omega

/-- **Rounding by midpoints.** The rounded magnitude is at most `m` exactly when `n / d` lies below the midpoint of the
values at `m` and `m + 1`, or on it and `m` is even. -/
theorem roundRaw_le_iff {n d m : Nat} (hd : 0 < d) :
    roundRaw n d ≤ m ↔
      2 * n < d * (unitsOfMag m + unitsOfMag (m + 1)) ∨
      (2 * n = d * (unitsOfMag m + unitsOfMag (m + 1)) ∧ m % 2 = 0) := by
  have mono : ∀ a b : Nat, a < b → d * (unitsOfMag a + unitsOfMag (a + 1)) < d * (unitsOfMag b + unitsOfMag (b + 1)) := by
    intro a b hab
    exact Nat.mul_lt_mul_of_pos_left
      (Nat.add_lt_add (unitsOfMag_strictMono hab) (unitsOfMag_strictMono (Nat.succ_lt_succ hab))) hd
  constructor
  · intro hle
    obtain ⟨hu, hue⟩ := roundRaw_upper (n := n) hd
    rcases Nat.lt_or_eq_of_le hle with hlt | heq
    · exact .inl (lt_of_le_of_lt hu (mono _ _ hlt))
    · rw [heq] at hu hue
      rcases Nat.lt_or_eq_of_le hu with h | h
      · exact .inl h
      · exact .inr ⟨h, hue h⟩
  · intro h
    by_contra hcon
    obtain ⟨k, hk⟩ : ∃ k, roundRaw n d = k + 1 := ⟨roundRaw n d - 1, by omega⟩
    obtain ⟨hl, hle⟩ := roundRaw_lower hd hk
    have hmk : m ≤ k := by omega
    rcases Nat.lt_or_eq_of_le hmk with hlt | rfl
    · have := mono _ _ hlt
      omega
    · rcases h with h | ⟨h, hev⟩
      · omega
      · have := hle h.symm
        omega

/-- Rounding is monotone in the fraction. -/
theorem roundRaw_mono {n d n' d' : Nat} (hd : 0 < d) (hd' : 0 < d') (h : n * d' ≤ n' * d) :
    roundRaw n d ≤ roundRaw n' d' := by
  have h1 := (roundRaw_le_iff (m := roundRaw n' d') hd').mp le_rfl
  rw [roundRaw_le_iff hd]
  generalize unitsOfMag (roundRaw n' d') + unitsOfMag (roundRaw n' d' + 1) = u at *
  rcases h1 with h1 | ⟨h1, hev⟩
  · left
    by_contra hcon
    have h2 := Nat.mul_lt_mul_of_pos_right h1 hd
    have h3 := Nat.mul_le_mul_right d' (Nat.not_lt.mp hcon)
    nlinarith
  · rcases Nat.lt_or_ge (2 * n) (d * u) with hlt | hge
    · exact .inl hlt
    · right
      refine ⟨le_antisymm ?_ hge, hev⟩
      by_contra hcon
      have h3 := Nat.mul_lt_mul_of_pos_right (Nat.not_le.mp hcon) hd'
      nlinarith

theorem roundUnits_mono {n d n' d' : Nat} (hd : 0 < d) (hd' : 0 < d') (h : n * d' ≤ n' * d) :
    roundUnits n d ≤ roundUnits n' d' := by
  rw [roundUnits_eq, roundUnits_eq]
  exact min_le_min_right _ (roundRaw_mono hd hd' h)

/-- Rounding is exact on every representable value. -/
theorem roundRaw_exact {m d : Nat} (hd : 0 < d) : roundRaw (unitsOfMag m * d) d = m := by
  apply le_antisymm
  · rw [roundRaw_le_iff hd]
    left
    have := Nat.mul_lt_mul_of_pos_left (unitsOfMag_lt_succ m) hd
    nlinarith
  · cases m with
    | zero => exact Nat.zero_le _
    | succ m =>
      by_contra hcon
      have hle : roundRaw (unitsOfMag (m + 1) * d) d ≤ m := by omega
      rw [roundRaw_le_iff hd] at hle
      have := Nat.mul_lt_mul_of_pos_left (unitsOfMag_lt_succ m) hd
      rcases hle with h | ⟨h, _⟩ <;> nlinarith

theorem roundUnits_exact {m d : Nat} (hd : 0 < d) (hm : m ≤ 2047 * 2 ^ 52) : roundUnits (unitsOfMag m * d) d = m := by
  rw [roundUnits_eq, roundRaw_exact hd, min_eq_left hm]

theorem roundUnits_le (n d : Nat) : roundUnits n d ≤ 2047 * 2 ^ 52 := min_le_right _ _

@[simp] theorem roundUnits_zero {d : Nat} (hd : 0 < d) : roundUnits 0 d = 0 := by
  have := roundUnits_exact (m := 0) hd (by norm_num)
  simpa using this

/-- A fraction at most a representable value rounds to at most it. -/
theorem roundUnits_le_of_le {n d m : Nat} (hd : 0 < d) (hm : m ≤ 2047 * 2 ^ 52) (h : n ≤ unitsOfMag m * d) :
    roundUnits n d ≤ m := by
  have := roundUnits_mono hd hd (Nat.mul_le_mul_right d h)
  rwa [roundUnits_exact hd hm] at this

/-- A fraction at least a representable value rounds to at least it. -/
theorem le_roundUnits_of_le {n d m : Nat} (hd : 0 < d) (hm : m ≤ 2047 * 2 ^ 52) (h : unitsOfMag m * d ≤ n) :
    m ≤ roundUnits n d := by
  have := roundUnits_mono hd hd (Nat.mul_le_mul_right d h)
  rwa [roundUnits_exact hd hm] at this

end Sys2Proof.Machine.Fp
end

