-- ==== Sys2Proof/Laws/Float.lean ====
section
/-!
SUPPORT. The binary64 operations: the parts of a bit pattern, the finite cases, and the operands that change nothing.
-/

namespace Sys2Proof.Machine.Fp

/-! Bit patterns. -/

theorem mag_lt (a : F64) : mag a < 2 ^ 63 := Nat.mod_lt _ (by norm_num)

theorem toNat_pack {s : Bool} {m : Nat} (h : m < 2 ^ 63) : (pack s m).toNat = (if s then 2 ^ 63 else 0) + m := by
  unfold pack
  rw [BitVec.toNat_ofNat]
  apply Nat.mod_eq_of_lt
  split <;> omega

@[simp] theorem mag_pack {s : Bool} {m : Nat} (h : m < 2 ^ 63) : mag (pack s m) = m := by
  unfold mag
  rw [toNat_pack h]
  split <;> omega

@[simp] theorem sign_pack {s : Bool} {m : Nat} (h : m < 2 ^ 63) : sign (pack s m) = s := by
  unfold sign
  rw [toNat_pack h]
  cases s
  · simp only [Bool.false_eq_true, if_false, decide_eq_false_iff_not]; omega
  · simp only [if_true, decide_eq_true_eq]; omega

/-- A bit pattern is its sign and its magnitude. -/
theorem pack_sign_mag (a : F64) : pack (sign a) (mag a) = a := by
  apply BitVec.eq_of_toNat_eq
  rw [toNat_pack (mag_lt a)]
  have := a.isLt
  unfold sign mag
  simp only [decide_eq_true_eq]
  split <;> omega

theorem ext_sign_mag {a b : F64} (hs : sign a = sign b) (hm : mag a = mag b) : a = b := by
  rw [← pack_sign_mag a, ← pack_sign_mag b, hs, hm]

theorem isFinite_iff (a : F64) : isFinite a = true ↔ mag a < 2047 * 2 ^ 52 := by simp [isFinite]

theorem isNaN_iff (a : F64) : isNaN a = true ↔ 2047 * 2 ^ 52 < mag a := by simp [isNaN]

theorem isNaN_false_iff (a : F64) : isNaN a = false ↔ mag a ≤ 2047 * 2 ^ 52 := by simp [isNaN]

theorem isZero_iff (a : F64) : isZero a = true ↔ mag a = 0 := by simp [isZero]

theorem isNaN_of_isFinite {a : F64} (h : isFinite a = true) : isNaN a = false := by
  rw [isFinite_iff] at h
  rw [isNaN_false_iff]
  exact h.le

theorem isInf_of_isFinite {a : F64} (h : isFinite a = true) : isInf a = false := by
  rw [isFinite_iff] at h
  simp only [isInf, decide_eq_false_iff_not]
  omega

/-- Every choice of the free bits gives a NaN. -/
@[simp] theorem isNaN_nanOf (q : BitVec 53) : isNaN (nanOf q) = true := by
  have hq := q.isLt
  rw [isNaN_iff]
  unfold nanOf
  have hlt : q.toNat % 2 ^ 52 < 2 ^ 52 := Nat.mod_lt _ (by norm_num)
  split
  · rw [mag_pack (by norm_num)]; norm_num
  · rw [mag_pack (by omega)]; omega

/-! Rounded results. -/

theorem roundUnits_lt (n d : Nat) : roundUnits n d < 2 ^ 63 := lt_of_le_of_lt (roundUnits_le n d) (by norm_num)

@[simp] theorem mag_round (s : Bool) (n d : Nat) : mag (round s n d) = roundUnits n d := mag_pack (roundUnits_lt n d)

@[simp] theorem sign_round (s : Bool) (n d : Nat) : sign (round s n d) = s := sign_pack (roundUnits_lt n d)

@[simp] theorem isNaN_round (s : Bool) (n d : Nat) : isNaN (round s n d) = false := by
  rw [isNaN_false_iff, mag_round]
  exact roundUnits_le n d

/-- A value that is no NaN rounds to itself. -/
theorem round_units {a : F64} {d : Nat} (ha : isNaN a = false) (hd : 0 < d) : round (sign a) (units a * d) d = a := by
  rw [isNaN_false_iff] at ha
  apply ext_sign_mag
  · rw [sign_round]
  · rw [mag_round]
    exact roundUnits_exact hd ha

theorem round_zero {s : Bool} {d : Nat} (hd : 0 < d) : round s 0 d = pack s 0 := by
  unfold round
  rw [roundUnits_zero hd]

theorem one1074_pos : 0 < one1074 := pow_pos (by norm_num) _

theorem units_c1 : units c1 = one1074 := by decide +kernel

theorem units_eq_zero_iff (a : F64) : units a = 0 ↔ mag a = 0 := by
  constructor
  · intro h
    by_contra hne
    have := unitsOfMag_strictMono (show 0 < mag a by omega)
    rw [unitsOfMag_zero] at this
    unfold units at h
    omega
  · intro h
    simp [units, h]

theorem value_natAbs (a : F64) : (value a).natAbs = units a := by
  unfold value
  split <;> simp

/-! Operations on finite operands. -/

theorem add_of_isFinite (q : BitVec 53) {a b : F64} (ha : isFinite a = true) (hb : isFinite b = true) :
    add q a b =
      if value a + value b = 0 then (if sign a && sign b then negZero else posZero)
      else round (decide (value a + value b < 0)) (value a + value b).natAbs 1 := by
  simp [add, isNaN_of_isFinite ha, isNaN_of_isFinite hb, isInf_of_isFinite ha, isInf_of_isFinite hb]

theorem mul_of_isFinite (q : BitVec 53) {a b : F64} (ha : isFinite a = true) (hb : isFinite b = true) :
    mul q a b = round (sign a != sign b) (units a * units b) one1074 := by
  simp [mul, isNaN_of_isFinite ha, isNaN_of_isFinite hb, isInf_of_isFinite ha, isInf_of_isFinite hb]

theorem div_of_isFinite (q : BitVec 53) {a b : F64} (ha : isFinite a = true) (hb : isFinite b = true)
    (hz : isZero b = false) : div q a b = round (sign a != sign b) (units a * one1074) (units b) := by
  simp [div, isNaN_of_isFinite ha, isNaN_of_isFinite hb, isInf_of_isFinite ha, isInf_of_isFinite hb, hz]

/-- A zero times a finite value is a zero. -/
theorem mul_of_isZero (q : BitVec 53) {a b : F64} (ha : mag a = 0) (hb : isFinite b = true) :
    mul q a b = pack (sign a != sign b) 0 := by
  rw [mul_of_isFinite q (by rw [isFinite_iff, ha]; norm_num) hb, (units_eq_zero_iff a).mpr ha, Nat.zero_mul,
    round_zero one1074_pos]

/-- A finite value plus `+0.0` is itself, but for `-0.0`, which becomes `+0.0`. -/
theorem add_of_isZero_right (q : BitVec 53) {a b : F64} (ha : isFinite a = true) (hb : mag b = 0) (hne : mag a ≠ 0) :
    add q a b = a := by
  have hbf : isFinite b = true := by rw [isFinite_iff, hb]; norm_num
  have hvb : value b = 0 := by unfold value; rw [(units_eq_zero_iff b).mpr hb]; simp
  have hu : units a ≠ 0 := fun h => hne ((units_eq_zero_iff a).mp h)
  have hva : value a ≠ 0 := by
    intro h
    have := value_natAbs a
    rw [h] at this
    simp at this
    omega
  rw [add_of_isFinite q ha hbf, hvb, add_zero, if_neg hva, value_natAbs]
  have hs : decide (value a < 0) = sign a := by
    unfold value
    cases sign a
    · simp
    · simp only [if_true, decide_eq_true_eq]; omega
  rw [hs]
  have := round_units (d := 1) (isNaN_of_isFinite ha) (by norm_num)
  simpa using this

/-- `1.0 * a` is `a`, for every `a` that is no NaN. -/
theorem mul_c1_left (q : BitVec 53) {a : F64} (ha : isNaN a = false) : mul q c1 a = a := by
  by_cases hf : isFinite a = true
  · rw [mul_of_isFinite q (by decide) hf, units_c1, Nat.mul_comm]
    have hs : (sign c1 != sign a) = sign a := by
      have : sign c1 = false := by decide
      rw [this]; cases sign a <;> rfl
    rw [hs]
    exact round_units ha one1074_pos
  · have hm : mag a = 2047 * 2 ^ 52 := by
      rw [isFinite_iff] at hf
      rw [isNaN_false_iff] at ha
      omega
    have hi : isInf a = true := by simp [isInf, hm]
    have hc : isNaN c1 = false := by decide
    have hz : isZero c1 = false := by decide
    have hza : isZero a = false := by simp [isZero, hm]
    have hs : sign c1 = false := by decide
    simp only [mul, ha, hc, hi, hz, hza, hs, Bool.or_false, Bool.or_true, Bool.false_eq_true, if_false, if_true]
    apply ext_sign_mag
    · rw [inf, sign_pack (by norm_num)]; cases sign a <;> rfl
    · rw [inf, mag_pack (by norm_num), hm]

/-! Order. -/

theorem le_iff (a b : F64) : le a b = true ↔ isNaN a = false ∧ isNaN b = false ∧ ordKey a ≤ ordKey b := by
  simp [le, and_assoc]

theorem lt_iff (a b : F64) : lt a b = true ↔ isNaN a = false ∧ isNaN b = false ∧ ordKey a < ordKey b := by
  simp [lt, and_assoc]

theorem ordKey_natAbs (a : F64) : (ordKey a).natAbs = mag a := by
  unfold ordKey
  split <;> simp

/-- The magnitude of a value between two of one magnitude is at most theirs. -/
theorem mag_le_of_within {lo hi a : F64} (h1 : le lo a = true) (h2 : le a hi = true) (hm : mag lo = mag hi) :
    mag a ≤ mag hi := by
  rw [le_iff] at h1 h2
  have h := ordKey_natAbs a
  have h3 := ordKey_natAbs lo
  have h4 := ordKey_natAbs hi
  omega

/-- `value` orders the finite values as `ordKey` does. -/
theorem value_le_iff_ordKey_le (a b : F64) : value a ≤ value b ↔ ordKey a ≤ ordKey b := by
  have hz : ∀ x : F64, (units x : Int) = 0 ↔ (mag x : Int) = 0 := fun x => by
    have := units_eq_zero_iff x
    omega
  have hm : units a ≤ units b ↔ mag a ≤ mag b := unitsOfMag_strictMono.le_iff_le
  have hm' : units b ≤ units a ↔ mag b ≤ mag a := unitsOfMag_strictMono.le_iff_le
  have ha := hz a
  have hb := hz b
  unfold value ordKey
  cases sign a <;> cases sign b <;> simp <;> omega

end Sys2Proof.Machine.Fp

namespace Sys2Proof.Machine

/-- The waveform's range (43_modulation R172), for every raw waveform. -/
theorem lfoWave_within (P : Params) (ph : F64) :
    Fp.le Fp.cNeg1 (lfoWave P ph) = true ∧ Fp.le (lfoWave P ph) Fp.c1 = true := by
  unfold lfoWave withinOr
  split
  · next h => simpa using h
  · decide

theorem mag_lfoWave_le (P : Params) (ph : F64) : Fp.mag (lfoWave P ph) ≤ Fp.mag Fp.c1 :=
  Fp.mag_le_of_within (lfoWave_within P ph).1 (lfoWave_within P ph).2 (by decide)

/-- A `MOD_RANGE` minimum is finite and not negative (43_modulation R175), for every raw table. -/
theorem modMin_good (P : Params) (m : ModMode) (t : ModType) :
    Fp.isFinite (modMin P m t) = true ∧ Fp.le Fp.posZero (modMin P m t) = true := by
  unfold modMin
  split
  · next h => simpa using h
  · decide

theorem modRng_good (P : Params) (m : ModMode) (t : ModType) :
    Fp.isFinite (modRng P m t) = true ∧ Fp.le Fp.posZero (modRng P m t) = true := by
  unfold modRng
  split
  · next h => simpa using h
  · decide

/-- `DET_COEF` lies in `[0.0, 1.0)` (44_sidechain R205), for every raw function. -/
theorem detCoef_good (P : Params) (ms fs : F64) :
    Fp.le Fp.posZero (detCoef P ms fs) = true ∧ Fp.lt (detCoef P ms fs) Fp.c1 = true := by
  unfold detCoef
  split
  · next h => simpa using h
  · decide

/-- The ring length for a rate is within its bounds (10_state R24), for every raw function. -/
theorem minRingLen_le_ringLenFn (P : Params) (fs : F64) : minRingLen fs ≤ ringLenFn P fs := le_max_left _ _

theorem two_le_ringLenFn (P : Params) (fs : F64) : 2 ≤ ringLenFn P fs :=
  le_trans (le_max_left _ _) (minRingLen_le_ringLenFn P fs)

theorem maxRingLen_bounds (P : Params) : 2 ≤ maxRingLen P ∧ maxRingLen P ≤ 2 ^ 53 :=
  ⟨le_min (le_max_left _ _) (by norm_num), min_le_right _ _⟩

end Sys2Proof.Machine
end

