-- ==== Sys2Proof/Laws/Modulation.lean ====
section
/-!
SUPPORT. The LFO's samples are finite, whatever the OPEN waveform.
-/

namespace Sys2Proof.Machine

theorem isFinite_lfoWave (P : Params) (ph : F64) : Fp.isFinite (lfoWave P ph) = true := by
  rw [Fp.isFinite_iff]
  exact lt_of_le_of_lt (mag_lfoWave_le P ph) (by decide)

/-- Half a bipolar sample is at most a half. -/
theorem mag_half_le (q : BitVec 53) {b : F64} (hb : Fp.mag b ≤ Fp.mag Fp.c1) :
    Fp.mag (Fp.mul q Fp.c0p5 b) ≤ Fp.mag Fp.c0p5 := by
  have hf : Fp.isFinite b = true := by
    rw [Fp.isFinite_iff]
    exact lt_of_le_of_lt hb (by decide)
  rw [Fp.mul_of_isFinite q (by decide) hf, Fp.mag_round]
  apply Fp.roundUnits_le_of_le Fp.one1074_pos (by decide)
  have h : Fp.units b ≤ Fp.units Fp.c1 := Fp.unitsOfMag_strictMono.monotone hb
  rw [Fp.units_c1] at h
  have h2 := Nat.mul_le_mul_left (Fp.units Fp.c0p5) h
  generalize Fp.c0p5 = k at *
  generalize Fp.one1074 = o at *
  exact h2

/-- A sum of two values of at most a half is at most one. -/
theorem mag_add_halves_le (q : BitVec 53) {a b : F64} (ha : Fp.mag a ≤ Fp.mag Fp.c0p5) (hb : Fp.mag b ≤ Fp.mag Fp.c0p5) :
    Fp.mag (Fp.add q a b) ≤ Fp.mag Fp.c1 := by
  have hfa : Fp.isFinite a = true := by rw [Fp.isFinite_iff]; exact lt_of_le_of_lt ha (by decide)
  have hfb : Fp.isFinite b = true := by rw [Fp.isFinite_iff]; exact lt_of_le_of_lt hb (by decide)
  rw [Fp.add_of_isFinite q hfa hfb]
  split
  · split <;> decide
  · rw [Fp.mag_round]
    apply Fp.roundUnits_le_of_le (by norm_num) (by decide)
    have hua : Fp.units a ≤ Fp.units Fp.c0p5 := Fp.unitsOfMag_strictMono.monotone ha
    have hub : Fp.units b ≤ Fp.units Fp.c0p5 := Fp.unitsOfMag_strictMono.monotone hb
    have hsum : Fp.units Fp.c0p5 + Fp.units Fp.c0p5 = Fp.unitsOfMag (Fp.mag Fp.c1) := by decide +kernel
    have h1 := Int.natAbs_add_le (Fp.value a) (Fp.value b)
    rw [Fp.value_natAbs, Fp.value_natAbs] at h1
    omega

/-- The unipolar sample is finite. -/
theorem isFinite_unipolar (P : Params) (fr : FpSite → BitVec 53) (ph : F64) :
    Fp.isFinite (unipolar fr (lfoWave P ph)) = true := by
  rw [Fp.isFinite_iff]
  exact lt_of_le_of_lt (mag_add_halves_le _ (mag_half_le _ (mag_lfoWave_le P ph)) le_rfl) (by decide)

end Sys2Proof.Machine
end

