-- ==== Sys2Proof/Laws/State.lean ====
section
/-!
SUPPORT. For every named update of the state and every field: what the field holds after the update.
-/

namespace Sys2Proof.Machine

/-! `NanDraw.next` -/

@[simp] theorem nanDraw_next_source (d : NanDraw) : d.next.source = d.source := rfl
@[simp] theorem nanDraw_next_count (d : NanDraw) : d.next.count = d.count + 1 := rfl

/-! `setFault` -/

@[simp] theorem setFault_configured (c : Cause) (s : State) : (setFault c s).configured = s.configured := rfl
@[simp] theorem setFault_fs (c : Cause) (s : State) : (setFault c s).fs = s.fs := rfl
@[simp] theorem setFault_spms (c : Cause) (s : State) : (setFault c s).spms = s.spms := rfl
@[simp] theorem setFault_ringLen (c : Cause) (s : State) : (setFault c s).ringLen = s.ringLen := rfl
@[simp] theorem setFault_param (c : Cause) (s : State) : (setFault c s).param = s.param := rfl
@[simp] theorem setFault_paramsValid (c : Cause) (s : State) : (setFault c s).paramsValid = s.paramsValid := rfl
@[simp] theorem setFault_tapCount (c : Cause) (s : State) : (setFault c s).tapCount = s.tapCount := rfl
@[simp] theorem setFault_tapMs (c : Cause) (s : State) : (setFault c s).tapMs = s.tapMs := rfl
@[simp] theorem setFault_sRing (c : Cause) (s : State) : (setFault c s).sRing = s.sRing := rfl
@[simp] theorem setFault_mRing (c : Cause) (s : State) : (setFault c s).mRing = s.mRing := rfl
@[simp] theorem setFault_lfoPhase (c : Cause) (s : State) : (setFault c s).lfoPhase = s.lfoPhase := rfl
@[simp] theorem setFault_detEnv (c : Cause) (s : State) : (setFault c s).detEnv = s.detEnv := rfl
@[simp] theorem setFault_detAtt (c : Cause) (s : State) : (setFault c s).detAtt = s.detAtt := rfl
@[simp] theorem setFault_detRel (c : Cause) (s : State) : (setFault c s).detRel = s.detRel := rfl
@[simp] theorem setFault_auxEn (c : Cause) (s : State) : (setFault c s).auxEn = s.auxEn := rfl
@[simp] theorem setFault_auxSample (c : Cause) (s : State) : (setFault c s).auxSample = s.auxSample := rfl
@[simp] theorem setFault_lastPath (c : Cause) (s : State) : (setFault c s).lastPath = s.lastPath := rfl
@[simp] theorem setFault_fault (c : Cause) (s : State) : (setFault c s).fault = true := rfl
@[simp] theorem setFault_faultCause (c : Cause) (s : State) : (setFault c s).faultCause = causeCode c := rfl
@[simp] theorem setFault_hostIn (c : Cause) (s : State) : (setFault c s).hostIn = s.hostIn := rfl
@[simp] theorem setFault_hostOut (c : Cause) (s : State) : (setFault c s).hostOut = s.hostOut := rfl
@[simp] theorem setFault_nanDraw (c : Cause) (s : State) : (setFault c s).nanDraw = s.nanDraw := rfl

/-! `returnWords` -/

@[simp] theorem returnWords_configured (ws : List Word) (s : State) : (returnWords ws s).configured = s.configured := rfl
@[simp] theorem returnWords_fs (ws : List Word) (s : State) : (returnWords ws s).fs = s.fs := rfl
@[simp] theorem returnWords_spms (ws : List Word) (s : State) : (returnWords ws s).spms = s.spms := rfl
@[simp] theorem returnWords_ringLen (ws : List Word) (s : State) : (returnWords ws s).ringLen = s.ringLen := rfl
@[simp] theorem returnWords_param (ws : List Word) (s : State) : (returnWords ws s).param = s.param := rfl
@[simp] theorem returnWords_paramsValid (ws : List Word) (s : State) : (returnWords ws s).paramsValid = s.paramsValid := rfl
@[simp] theorem returnWords_tapCount (ws : List Word) (s : State) : (returnWords ws s).tapCount = s.tapCount := rfl
@[simp] theorem returnWords_tapMs (ws : List Word) (s : State) : (returnWords ws s).tapMs = s.tapMs := rfl
@[simp] theorem returnWords_sRing (ws : List Word) (s : State) : (returnWords ws s).sRing = s.sRing := rfl
@[simp] theorem returnWords_mRing (ws : List Word) (s : State) : (returnWords ws s).mRing = s.mRing := rfl
@[simp] theorem returnWords_lfoPhase (ws : List Word) (s : State) : (returnWords ws s).lfoPhase = s.lfoPhase := rfl
@[simp] theorem returnWords_detEnv (ws : List Word) (s : State) : (returnWords ws s).detEnv = s.detEnv := rfl
@[simp] theorem returnWords_detAtt (ws : List Word) (s : State) : (returnWords ws s).detAtt = s.detAtt := rfl
@[simp] theorem returnWords_detRel (ws : List Word) (s : State) : (returnWords ws s).detRel = s.detRel := rfl
@[simp] theorem returnWords_auxEn (ws : List Word) (s : State) : (returnWords ws s).auxEn = s.auxEn := rfl
@[simp] theorem returnWords_auxSample (ws : List Word) (s : State) : (returnWords ws s).auxSample = s.auxSample := rfl
@[simp] theorem returnWords_lastPath (ws : List Word) (s : State) : (returnWords ws s).lastPath = s.lastPath := rfl
@[simp] theorem returnWords_fault (ws : List Word) (s : State) : (returnWords ws s).fault = s.fault := rfl
@[simp] theorem returnWords_faultCause (ws : List Word) (s : State) : (returnWords ws s).faultCause = s.faultCause := rfl
@[simp] theorem returnWords_hostIn (ws : List Word) (s : State) : (returnWords ws s).hostIn = s.hostIn := rfl
@[simp] theorem returnWords_hostOut (ws : List Word) (s : State) : (returnWords ws s).hostOut = s.hostOut ++ ws := rfl
@[simp] theorem returnWords_nanDraw (ws : List Word) (s : State) : (returnWords ws s).nanDraw = s.nanDraw := rfl

/-! `setHostIn` -/

@[simp] theorem setHostIn_configured (bs : List Byte) (s : State) : (setHostIn bs s).configured = s.configured := rfl
@[simp] theorem setHostIn_fs (bs : List Byte) (s : State) : (setHostIn bs s).fs = s.fs := rfl
@[simp] theorem setHostIn_spms (bs : List Byte) (s : State) : (setHostIn bs s).spms = s.spms := rfl
@[simp] theorem setHostIn_ringLen (bs : List Byte) (s : State) : (setHostIn bs s).ringLen = s.ringLen := rfl
@[simp] theorem setHostIn_param (bs : List Byte) (s : State) : (setHostIn bs s).param = s.param := rfl
@[simp] theorem setHostIn_paramsValid (bs : List Byte) (s : State) : (setHostIn bs s).paramsValid = s.paramsValid := rfl
@[simp] theorem setHostIn_tapCount (bs : List Byte) (s : State) : (setHostIn bs s).tapCount = s.tapCount := rfl
@[simp] theorem setHostIn_tapMs (bs : List Byte) (s : State) : (setHostIn bs s).tapMs = s.tapMs := rfl
@[simp] theorem setHostIn_sRing (bs : List Byte) (s : State) : (setHostIn bs s).sRing = s.sRing := rfl
@[simp] theorem setHostIn_mRing (bs : List Byte) (s : State) : (setHostIn bs s).mRing = s.mRing := rfl
@[simp] theorem setHostIn_lfoPhase (bs : List Byte) (s : State) : (setHostIn bs s).lfoPhase = s.lfoPhase := rfl
@[simp] theorem setHostIn_detEnv (bs : List Byte) (s : State) : (setHostIn bs s).detEnv = s.detEnv := rfl
@[simp] theorem setHostIn_detAtt (bs : List Byte) (s : State) : (setHostIn bs s).detAtt = s.detAtt := rfl
@[simp] theorem setHostIn_detRel (bs : List Byte) (s : State) : (setHostIn bs s).detRel = s.detRel := rfl
@[simp] theorem setHostIn_auxEn (bs : List Byte) (s : State) : (setHostIn bs s).auxEn = s.auxEn := rfl
@[simp] theorem setHostIn_auxSample (bs : List Byte) (s : State) : (setHostIn bs s).auxSample = s.auxSample := rfl
@[simp] theorem setHostIn_lastPath (bs : List Byte) (s : State) : (setHostIn bs s).lastPath = s.lastPath := rfl
@[simp] theorem setHostIn_fault (bs : List Byte) (s : State) : (setHostIn bs s).fault = s.fault := rfl
@[simp] theorem setHostIn_faultCause (bs : List Byte) (s : State) : (setHostIn bs s).faultCause = s.faultCause := rfl
@[simp] theorem setHostIn_hostIn (bs : List Byte) (s : State) : (setHostIn bs s).hostIn = bs := rfl
@[simp] theorem setHostIn_hostOut (bs : List Byte) (s : State) : (setHostIn bs s).hostOut = s.hostOut := rfl
@[simp] theorem setHostIn_nanDraw (bs : List Byte) (s : State) : (setHostIn bs s).nanDraw = s.nanDraw := rfl

/-! `loadParams` -/

@[simp] theorem loadParams_configured (p : ParamBank) (n : Nat) (ts : Taps) (s : State) : (loadParams p n ts s).configured = s.configured := rfl
@[simp] theorem loadParams_fs (p : ParamBank) (n : Nat) (ts : Taps) (s : State) : (loadParams p n ts s).fs = s.fs := rfl
@[simp] theorem loadParams_spms (p : ParamBank) (n : Nat) (ts : Taps) (s : State) : (loadParams p n ts s).spms = s.spms := rfl
@[simp] theorem loadParams_ringLen (p : ParamBank) (n : Nat) (ts : Taps) (s : State) : (loadParams p n ts s).ringLen = s.ringLen := rfl
@[simp] theorem loadParams_param (p : ParamBank) (n : Nat) (ts : Taps) (s : State) : (loadParams p n ts s).param = p := rfl
@[simp] theorem loadParams_paramsValid (p : ParamBank) (n : Nat) (ts : Taps) (s : State) : (loadParams p n ts s).paramsValid = true := rfl
@[simp] theorem loadParams_tapCount (p : ParamBank) (n : Nat) (ts : Taps) (s : State) : (loadParams p n ts s).tapCount = n := rfl
@[simp] theorem loadParams_tapMs (p : ParamBank) (n : Nat) (ts : Taps) (s : State) : (loadParams p n ts s).tapMs = ts := rfl
@[simp] theorem loadParams_sRing (p : ParamBank) (n : Nat) (ts : Taps) (s : State) : (loadParams p n ts s).sRing = s.sRing := rfl
@[simp] theorem loadParams_mRing (p : ParamBank) (n : Nat) (ts : Taps) (s : State) : (loadParams p n ts s).mRing = s.mRing := rfl
@[simp] theorem loadParams_lfoPhase (p : ParamBank) (n : Nat) (ts : Taps) (s : State) : (loadParams p n ts s).lfoPhase = s.lfoPhase := rfl
@[simp] theorem loadParams_detEnv (p : ParamBank) (n : Nat) (ts : Taps) (s : State) : (loadParams p n ts s).detEnv = s.detEnv := rfl
@[simp] theorem loadParams_detAtt (p : ParamBank) (n : Nat) (ts : Taps) (s : State) : (loadParams p n ts s).detAtt = s.detAtt := rfl
@[simp] theorem loadParams_detRel (p : ParamBank) (n : Nat) (ts : Taps) (s : State) : (loadParams p n ts s).detRel = s.detRel := rfl
@[simp] theorem loadParams_auxEn (p : ParamBank) (n : Nat) (ts : Taps) (s : State) : (loadParams p n ts s).auxEn = s.auxEn := rfl
@[simp] theorem loadParams_auxSample (p : ParamBank) (n : Nat) (ts : Taps) (s : State) : (loadParams p n ts s).auxSample = s.auxSample := rfl
@[simp] theorem loadParams_lastPath (p : ParamBank) (n : Nat) (ts : Taps) (s : State) : (loadParams p n ts s).lastPath = s.lastPath := rfl
@[simp] theorem loadParams_fault (p : ParamBank) (n : Nat) (ts : Taps) (s : State) : (loadParams p n ts s).fault = s.fault := rfl
@[simp] theorem loadParams_faultCause (p : ParamBank) (n : Nat) (ts : Taps) (s : State) : (loadParams p n ts s).faultCause = s.faultCause := rfl
@[simp] theorem loadParams_hostIn (p : ParamBank) (n : Nat) (ts : Taps) (s : State) : (loadParams p n ts s).hostIn = s.hostIn := rfl
@[simp] theorem loadParams_hostOut (p : ParamBank) (n : Nat) (ts : Taps) (s : State) : (loadParams p n ts s).hostOut = s.hostOut := rfl
@[simp] theorem loadParams_nanDraw (p : ParamBank) (n : Nat) (ts : Taps) (s : State) : (loadParams p n ts s).nanDraw = s.nanDraw := rfl

/-! `setAuxEn` -/

@[simp] theorem setAuxEn_configured (e : Bool) (s : State) : (setAuxEn e s).configured = s.configured := rfl
@[simp] theorem setAuxEn_fs (e : Bool) (s : State) : (setAuxEn e s).fs = s.fs := rfl
@[simp] theorem setAuxEn_spms (e : Bool) (s : State) : (setAuxEn e s).spms = s.spms := rfl
@[simp] theorem setAuxEn_ringLen (e : Bool) (s : State) : (setAuxEn e s).ringLen = s.ringLen := rfl
@[simp] theorem setAuxEn_param (e : Bool) (s : State) : (setAuxEn e s).param = s.param := rfl
@[simp] theorem setAuxEn_paramsValid (e : Bool) (s : State) : (setAuxEn e s).paramsValid = s.paramsValid := rfl
@[simp] theorem setAuxEn_tapCount (e : Bool) (s : State) : (setAuxEn e s).tapCount = s.tapCount := rfl
@[simp] theorem setAuxEn_tapMs (e : Bool) (s : State) : (setAuxEn e s).tapMs = s.tapMs := rfl
@[simp] theorem setAuxEn_sRing (e : Bool) (s : State) : (setAuxEn e s).sRing = s.sRing := rfl
@[simp] theorem setAuxEn_mRing (e : Bool) (s : State) : (setAuxEn e s).mRing = s.mRing := rfl
@[simp] theorem setAuxEn_lfoPhase (e : Bool) (s : State) : (setAuxEn e s).lfoPhase = s.lfoPhase := rfl
@[simp] theorem setAuxEn_detEnv (e : Bool) (s : State) : (setAuxEn e s).detEnv = s.detEnv := rfl
@[simp] theorem setAuxEn_detAtt (e : Bool) (s : State) : (setAuxEn e s).detAtt = s.detAtt := rfl
@[simp] theorem setAuxEn_detRel (e : Bool) (s : State) : (setAuxEn e s).detRel = s.detRel := rfl
@[simp] theorem setAuxEn_auxEn (e : Bool) (s : State) : (setAuxEn e s).auxEn = e := rfl
@[simp] theorem setAuxEn_auxSample (e : Bool) (s : State) : (setAuxEn e s).auxSample = s.auxSample := rfl
@[simp] theorem setAuxEn_lastPath (e : Bool) (s : State) : (setAuxEn e s).lastPath = s.lastPath := rfl
@[simp] theorem setAuxEn_fault (e : Bool) (s : State) : (setAuxEn e s).fault = s.fault := rfl
@[simp] theorem setAuxEn_faultCause (e : Bool) (s : State) : (setAuxEn e s).faultCause = s.faultCause := rfl
@[simp] theorem setAuxEn_hostIn (e : Bool) (s : State) : (setAuxEn e s).hostIn = s.hostIn := rfl
@[simp] theorem setAuxEn_hostOut (e : Bool) (s : State) : (setAuxEn e s).hostOut = s.hostOut := rfl
@[simp] theorem setAuxEn_nanDraw (e : Bool) (s : State) : (setAuxEn e s).nanDraw = s.nanDraw := rfl

/-! `setAuxSample` -/

@[simp] theorem setAuxSample_configured (a : F64) (s : State) : (setAuxSample a s).configured = s.configured := rfl
@[simp] theorem setAuxSample_fs (a : F64) (s : State) : (setAuxSample a s).fs = s.fs := rfl
@[simp] theorem setAuxSample_spms (a : F64) (s : State) : (setAuxSample a s).spms = s.spms := rfl
@[simp] theorem setAuxSample_ringLen (a : F64) (s : State) : (setAuxSample a s).ringLen = s.ringLen := rfl
@[simp] theorem setAuxSample_param (a : F64) (s : State) : (setAuxSample a s).param = s.param := rfl
@[simp] theorem setAuxSample_paramsValid (a : F64) (s : State) : (setAuxSample a s).paramsValid = s.paramsValid := rfl
@[simp] theorem setAuxSample_tapCount (a : F64) (s : State) : (setAuxSample a s).tapCount = s.tapCount := rfl
@[simp] theorem setAuxSample_tapMs (a : F64) (s : State) : (setAuxSample a s).tapMs = s.tapMs := rfl
@[simp] theorem setAuxSample_sRing (a : F64) (s : State) : (setAuxSample a s).sRing = s.sRing := rfl
@[simp] theorem setAuxSample_mRing (a : F64) (s : State) : (setAuxSample a s).mRing = s.mRing := rfl
@[simp] theorem setAuxSample_lfoPhase (a : F64) (s : State) : (setAuxSample a s).lfoPhase = s.lfoPhase := rfl
@[simp] theorem setAuxSample_detEnv (a : F64) (s : State) : (setAuxSample a s).detEnv = s.detEnv := rfl
@[simp] theorem setAuxSample_detAtt (a : F64) (s : State) : (setAuxSample a s).detAtt = s.detAtt := rfl
@[simp] theorem setAuxSample_detRel (a : F64) (s : State) : (setAuxSample a s).detRel = s.detRel := rfl
@[simp] theorem setAuxSample_auxEn (a : F64) (s : State) : (setAuxSample a s).auxEn = s.auxEn := rfl
@[simp] theorem setAuxSample_auxSample (a : F64) (s : State) : (setAuxSample a s).auxSample = a := rfl
@[simp] theorem setAuxSample_lastPath (a : F64) (s : State) : (setAuxSample a s).lastPath = s.lastPath := rfl
@[simp] theorem setAuxSample_fault (a : F64) (s : State) : (setAuxSample a s).fault = s.fault := rfl
@[simp] theorem setAuxSample_faultCause (a : F64) (s : State) : (setAuxSample a s).faultCause = s.faultCause := rfl
@[simp] theorem setAuxSample_hostIn (a : F64) (s : State) : (setAuxSample a s).hostIn = s.hostIn := rfl
@[simp] theorem setAuxSample_hostOut (a : F64) (s : State) : (setAuxSample a s).hostOut = s.hostOut := rfl
@[simp] theorem setAuxSample_nanDraw (a : F64) (s : State) : (setAuxSample a s).nanDraw = s.nanDraw := rfl

/-! `setDetEnv` -/

@[simp] theorem setDetEnv_configured (e : F64) (s : State) : (setDetEnv e s).configured = s.configured := rfl
@[simp] theorem setDetEnv_fs (e : F64) (s : State) : (setDetEnv e s).fs = s.fs := rfl
@[simp] theorem setDetEnv_spms (e : F64) (s : State) : (setDetEnv e s).spms = s.spms := rfl
@[simp] theorem setDetEnv_ringLen (e : F64) (s : State) : (setDetEnv e s).ringLen = s.ringLen := rfl
@[simp] theorem setDetEnv_param (e : F64) (s : State) : (setDetEnv e s).param = s.param := rfl
@[simp] theorem setDetEnv_paramsValid (e : F64) (s : State) : (setDetEnv e s).paramsValid = s.paramsValid := rfl
@[simp] theorem setDetEnv_tapCount (e : F64) (s : State) : (setDetEnv e s).tapCount = s.tapCount := rfl
@[simp] theorem setDetEnv_tapMs (e : F64) (s : State) : (setDetEnv e s).tapMs = s.tapMs := rfl
@[simp] theorem setDetEnv_sRing (e : F64) (s : State) : (setDetEnv e s).sRing = s.sRing := rfl
@[simp] theorem setDetEnv_mRing (e : F64) (s : State) : (setDetEnv e s).mRing = s.mRing := rfl
@[simp] theorem setDetEnv_lfoPhase (e : F64) (s : State) : (setDetEnv e s).lfoPhase = s.lfoPhase := rfl
@[simp] theorem setDetEnv_detEnv (e : F64) (s : State) : (setDetEnv e s).detEnv = e := rfl
@[simp] theorem setDetEnv_detAtt (e : F64) (s : State) : (setDetEnv e s).detAtt = s.detAtt := rfl
@[simp] theorem setDetEnv_detRel (e : F64) (s : State) : (setDetEnv e s).detRel = s.detRel := rfl
@[simp] theorem setDetEnv_auxEn (e : F64) (s : State) : (setDetEnv e s).auxEn = s.auxEn := rfl
@[simp] theorem setDetEnv_auxSample (e : F64) (s : State) : (setDetEnv e s).auxSample = s.auxSample := rfl
@[simp] theorem setDetEnv_lastPath (e : F64) (s : State) : (setDetEnv e s).lastPath = s.lastPath := rfl
@[simp] theorem setDetEnv_fault (e : F64) (s : State) : (setDetEnv e s).fault = s.fault := rfl
@[simp] theorem setDetEnv_faultCause (e : F64) (s : State) : (setDetEnv e s).faultCause = s.faultCause := rfl
@[simp] theorem setDetEnv_hostIn (e : F64) (s : State) : (setDetEnv e s).hostIn = s.hostIn := rfl
@[simp] theorem setDetEnv_hostOut (e : F64) (s : State) : (setDetEnv e s).hostOut = s.hostOut := rfl
@[simp] theorem setDetEnv_nanDraw (e : F64) (s : State) : (setDetEnv e s).nanDraw = s.nanDraw := rfl

/-! `setLfoPhase` -/

@[simp] theorem setLfoPhase_configured (p : F64) (s : State) : (setLfoPhase p s).configured = s.configured := rfl
@[simp] theorem setLfoPhase_fs (p : F64) (s : State) : (setLfoPhase p s).fs = s.fs := rfl
@[simp] theorem setLfoPhase_spms (p : F64) (s : State) : (setLfoPhase p s).spms = s.spms := rfl
@[simp] theorem setLfoPhase_ringLen (p : F64) (s : State) : (setLfoPhase p s).ringLen = s.ringLen := rfl
@[simp] theorem setLfoPhase_param (p : F64) (s : State) : (setLfoPhase p s).param = s.param := rfl
@[simp] theorem setLfoPhase_paramsValid (p : F64) (s : State) : (setLfoPhase p s).paramsValid = s.paramsValid := rfl
@[simp] theorem setLfoPhase_tapCount (p : F64) (s : State) : (setLfoPhase p s).tapCount = s.tapCount := rfl
@[simp] theorem setLfoPhase_tapMs (p : F64) (s : State) : (setLfoPhase p s).tapMs = s.tapMs := rfl
@[simp] theorem setLfoPhase_sRing (p : F64) (s : State) : (setLfoPhase p s).sRing = s.sRing := rfl
@[simp] theorem setLfoPhase_mRing (p : F64) (s : State) : (setLfoPhase p s).mRing = s.mRing := rfl
@[simp] theorem setLfoPhase_lfoPhase (p : F64) (s : State) : (setLfoPhase p s).lfoPhase = p := rfl
@[simp] theorem setLfoPhase_detEnv (p : F64) (s : State) : (setLfoPhase p s).detEnv = s.detEnv := rfl
@[simp] theorem setLfoPhase_detAtt (p : F64) (s : State) : (setLfoPhase p s).detAtt = s.detAtt := rfl
@[simp] theorem setLfoPhase_detRel (p : F64) (s : State) : (setLfoPhase p s).detRel = s.detRel := rfl
@[simp] theorem setLfoPhase_auxEn (p : F64) (s : State) : (setLfoPhase p s).auxEn = s.auxEn := rfl
@[simp] theorem setLfoPhase_auxSample (p : F64) (s : State) : (setLfoPhase p s).auxSample = s.auxSample := rfl
@[simp] theorem setLfoPhase_lastPath (p : F64) (s : State) : (setLfoPhase p s).lastPath = s.lastPath := rfl
@[simp] theorem setLfoPhase_fault (p : F64) (s : State) : (setLfoPhase p s).fault = s.fault := rfl
@[simp] theorem setLfoPhase_faultCause (p : F64) (s : State) : (setLfoPhase p s).faultCause = s.faultCause := rfl
@[simp] theorem setLfoPhase_hostIn (p : F64) (s : State) : (setLfoPhase p s).hostIn = s.hostIn := rfl
@[simp] theorem setLfoPhase_hostOut (p : F64) (s : State) : (setLfoPhase p s).hostOut = s.hostOut := rfl
@[simp] theorem setLfoPhase_nanDraw (p : F64) (s : State) : (setLfoPhase p s).nanDraw = s.nanDraw := rfl

/-! `endStatic` -/

@[simp] theorem endStatic_configured (r : Ring) (s : State) : (endStatic r s).configured = s.configured := rfl
@[simp] theorem endStatic_fs (r : Ring) (s : State) : (endStatic r s).fs = s.fs := rfl
@[simp] theorem endStatic_spms (r : Ring) (s : State) : (endStatic r s).spms = s.spms := rfl
@[simp] theorem endStatic_ringLen (r : Ring) (s : State) : (endStatic r s).ringLen = s.ringLen := rfl
@[simp] theorem endStatic_param (r : Ring) (s : State) : (endStatic r s).param = s.param := rfl
@[simp] theorem endStatic_paramsValid (r : Ring) (s : State) : (endStatic r s).paramsValid = s.paramsValid := rfl
@[simp] theorem endStatic_tapCount (r : Ring) (s : State) : (endStatic r s).tapCount = s.tapCount := rfl
@[simp] theorem endStatic_tapMs (r : Ring) (s : State) : (endStatic r s).tapMs = s.tapMs := rfl
@[simp] theorem endStatic_sRing (r : Ring) (s : State) : (endStatic r s).sRing = r := rfl
@[simp] theorem endStatic_mRing (r : Ring) (s : State) : (endStatic r s).mRing = s.mRing := rfl
@[simp] theorem endStatic_lfoPhase (r : Ring) (s : State) : (endStatic r s).lfoPhase = s.lfoPhase := rfl
@[simp] theorem endStatic_detEnv (r : Ring) (s : State) : (endStatic r s).detEnv = s.detEnv := rfl
@[simp] theorem endStatic_detAtt (r : Ring) (s : State) : (endStatic r s).detAtt = s.detAtt := rfl
@[simp] theorem endStatic_detRel (r : Ring) (s : State) : (endStatic r s).detRel = s.detRel := rfl
@[simp] theorem endStatic_auxEn (r : Ring) (s : State) : (endStatic r s).auxEn = s.auxEn := rfl
@[simp] theorem endStatic_auxSample (r : Ring) (s : State) : (endStatic r s).auxSample = s.auxSample := rfl
@[simp] theorem endStatic_lastPath (r : Ring) (s : State) : (endStatic r s).lastPath = .static := rfl
@[simp] theorem endStatic_fault (r : Ring) (s : State) : (endStatic r s).fault = s.fault := rfl
@[simp] theorem endStatic_faultCause (r : Ring) (s : State) : (endStatic r s).faultCause = s.faultCause := rfl
@[simp] theorem endStatic_hostIn (r : Ring) (s : State) : (endStatic r s).hostIn = s.hostIn := rfl
@[simp] theorem endStatic_hostOut (r : Ring) (s : State) : (endStatic r s).hostOut = s.hostOut := rfl
@[simp] theorem endStatic_nanDraw (r : Ring) (s : State) : (endStatic r s).nanDraw = s.nanDraw := rfl

/-! `endModulated` -/

@[simp] theorem endModulated_configured (r : Ring) (s : State) : (endModulated r s).configured = s.configured := rfl
@[simp] theorem endModulated_fs (r : Ring) (s : State) : (endModulated r s).fs = s.fs := rfl
@[simp] theorem endModulated_spms (r : Ring) (s : State) : (endModulated r s).spms = s.spms := rfl
@[simp] theorem endModulated_ringLen (r : Ring) (s : State) : (endModulated r s).ringLen = s.ringLen := rfl
@[simp] theorem endModulated_param (r : Ring) (s : State) : (endModulated r s).param = s.param := rfl
@[simp] theorem endModulated_paramsValid (r : Ring) (s : State) : (endModulated r s).paramsValid = s.paramsValid := rfl
@[simp] theorem endModulated_tapCount (r : Ring) (s : State) : (endModulated r s).tapCount = s.tapCount := rfl
@[simp] theorem endModulated_tapMs (r : Ring) (s : State) : (endModulated r s).tapMs = s.tapMs := rfl
@[simp] theorem endModulated_sRing (r : Ring) (s : State) : (endModulated r s).sRing = s.sRing := rfl
@[simp] theorem endModulated_mRing (r : Ring) (s : State) : (endModulated r s).mRing = r := rfl
@[simp] theorem endModulated_lfoPhase (r : Ring) (s : State) : (endModulated r s).lfoPhase = s.lfoPhase := rfl
@[simp] theorem endModulated_detEnv (r : Ring) (s : State) : (endModulated r s).detEnv = s.detEnv := rfl
@[simp] theorem endModulated_detAtt (r : Ring) (s : State) : (endModulated r s).detAtt = s.detAtt := rfl
@[simp] theorem endModulated_detRel (r : Ring) (s : State) : (endModulated r s).detRel = s.detRel := rfl
@[simp] theorem endModulated_auxEn (r : Ring) (s : State) : (endModulated r s).auxEn = s.auxEn := rfl
@[simp] theorem endModulated_auxSample (r : Ring) (s : State) : (endModulated r s).auxSample = s.auxSample := rfl
@[simp] theorem endModulated_lastPath (r : Ring) (s : State) : (endModulated r s).lastPath = .modulated := rfl
@[simp] theorem endModulated_fault (r : Ring) (s : State) : (endModulated r s).fault = s.fault := rfl
@[simp] theorem endModulated_faultCause (r : Ring) (s : State) : (endModulated r s).faultCause = s.faultCause := rfl
@[simp] theorem endModulated_hostIn (r : Ring) (s : State) : (endModulated r s).hostIn = s.hostIn := rfl
@[simp] theorem endModulated_hostOut (r : Ring) (s : State) : (endModulated r s).hostOut = s.hostOut := rfl
@[simp] theorem endModulated_nanDraw (r : Ring) (s : State) : (endModulated r s).nanDraw = s.nanDraw := rfl

/-! `nextDraw` -/

@[simp] theorem nextDraw_configured (s : State) : (nextDraw s).configured = s.configured := rfl
@[simp] theorem nextDraw_fs (s : State) : (nextDraw s).fs = s.fs := rfl
@[simp] theorem nextDraw_spms (s : State) : (nextDraw s).spms = s.spms := rfl
@[simp] theorem nextDraw_ringLen (s : State) : (nextDraw s).ringLen = s.ringLen := rfl
@[simp] theorem nextDraw_param (s : State) : (nextDraw s).param = s.param := rfl
@[simp] theorem nextDraw_paramsValid (s : State) : (nextDraw s).paramsValid = s.paramsValid := rfl
@[simp] theorem nextDraw_tapCount (s : State) : (nextDraw s).tapCount = s.tapCount := rfl
@[simp] theorem nextDraw_tapMs (s : State) : (nextDraw s).tapMs = s.tapMs := rfl
@[simp] theorem nextDraw_sRing (s : State) : (nextDraw s).sRing = s.sRing := rfl
@[simp] theorem nextDraw_mRing (s : State) : (nextDraw s).mRing = s.mRing := rfl
@[simp] theorem nextDraw_lfoPhase (s : State) : (nextDraw s).lfoPhase = s.lfoPhase := rfl
@[simp] theorem nextDraw_detEnv (s : State) : (nextDraw s).detEnv = s.detEnv := rfl
@[simp] theorem nextDraw_detAtt (s : State) : (nextDraw s).detAtt = s.detAtt := rfl
@[simp] theorem nextDraw_detRel (s : State) : (nextDraw s).detRel = s.detRel := rfl
@[simp] theorem nextDraw_auxEn (s : State) : (nextDraw s).auxEn = s.auxEn := rfl
@[simp] theorem nextDraw_auxSample (s : State) : (nextDraw s).auxSample = s.auxSample := rfl
@[simp] theorem nextDraw_lastPath (s : State) : (nextDraw s).lastPath = s.lastPath := rfl
@[simp] theorem nextDraw_fault (s : State) : (nextDraw s).fault = s.fault := rfl
@[simp] theorem nextDraw_faultCause (s : State) : (nextDraw s).faultCause = s.faultCause := rfl
@[simp] theorem nextDraw_hostIn (s : State) : (nextDraw s).hostIn = s.hostIn := rfl
@[simp] theorem nextDraw_hostOut (s : State) : (nextDraw s).hostOut = s.hostOut := rfl
@[simp] theorem nextDraw_nanDraw (s : State) : (nextDraw s).nanDraw = s.nanDraw.next := rfl

/-! `unconfigure` -/

@[simp] theorem unconfigure_configured (s : State) : (unconfigure s).configured = false := rfl
@[simp] theorem unconfigure_fs (s : State) : (unconfigure s).fs = s.fs := rfl
@[simp] theorem unconfigure_spms (s : State) : (unconfigure s).spms = s.spms := rfl
@[simp] theorem unconfigure_ringLen (s : State) : (unconfigure s).ringLen = s.ringLen := rfl
@[simp] theorem unconfigure_param (s : State) : (unconfigure s).param = s.param := rfl
@[simp] theorem unconfigure_paramsValid (s : State) : (unconfigure s).paramsValid = s.paramsValid := rfl
@[simp] theorem unconfigure_tapCount (s : State) : (unconfigure s).tapCount = s.tapCount := rfl
@[simp] theorem unconfigure_tapMs (s : State) : (unconfigure s).tapMs = s.tapMs := rfl
@[simp] theorem unconfigure_sRing (s : State) : (unconfigure s).sRing = s.sRing := rfl
@[simp] theorem unconfigure_mRing (s : State) : (unconfigure s).mRing = s.mRing := rfl
@[simp] theorem unconfigure_lfoPhase (s : State) : (unconfigure s).lfoPhase = s.lfoPhase := rfl
@[simp] theorem unconfigure_detEnv (s : State) : (unconfigure s).detEnv = s.detEnv := rfl
@[simp] theorem unconfigure_detAtt (s : State) : (unconfigure s).detAtt = s.detAtt := rfl
@[simp] theorem unconfigure_detRel (s : State) : (unconfigure s).detRel = s.detRel := rfl
@[simp] theorem unconfigure_auxEn (s : State) : (unconfigure s).auxEn = s.auxEn := rfl
@[simp] theorem unconfigure_auxSample (s : State) : (unconfigure s).auxSample = s.auxSample := rfl
@[simp] theorem unconfigure_lastPath (s : State) : (unconfigure s).lastPath = s.lastPath := rfl
@[simp] theorem unconfigure_fault (s : State) : (unconfigure s).fault = s.fault := rfl
@[simp] theorem unconfigure_faultCause (s : State) : (unconfigure s).faultCause = s.faultCause := rfl
@[simp] theorem unconfigure_hostIn (s : State) : (unconfigure s).hostIn = s.hostIn := rfl
@[simp] theorem unconfigure_hostOut (s : State) : (unconfigure s).hostOut = s.hostOut := rfl
@[simp] theorem unconfigure_nanDraw (s : State) : (unconfigure s).nanDraw = s.nanDraw := rfl

/-! `flushRings` -/

@[simp] theorem flushRings_configured (s : State) : (flushRings s).configured = s.configured := rfl
@[simp] theorem flushRings_fs (s : State) : (flushRings s).fs = s.fs := rfl
@[simp] theorem flushRings_spms (s : State) : (flushRings s).spms = s.spms := rfl
@[simp] theorem flushRings_ringLen (s : State) : (flushRings s).ringLen = s.ringLen := rfl
@[simp] theorem flushRings_param (s : State) : (flushRings s).param = s.param := rfl
@[simp] theorem flushRings_paramsValid (s : State) : (flushRings s).paramsValid = s.paramsValid := rfl
@[simp] theorem flushRings_tapCount (s : State) : (flushRings s).tapCount = s.tapCount := rfl
@[simp] theorem flushRings_tapMs (s : State) : (flushRings s).tapMs = s.tapMs := rfl
@[simp] theorem flushRings_sRing (s : State) : (flushRings s).sRing = ⟨[], 0⟩ := rfl
@[simp] theorem flushRings_mRing (s : State) : (flushRings s).mRing = ⟨[], 0⟩ := rfl
@[simp] theorem flushRings_lfoPhase (s : State) : (flushRings s).lfoPhase = s.lfoPhase := rfl
@[simp] theorem flushRings_detEnv (s : State) : (flushRings s).detEnv = s.detEnv := rfl
@[simp] theorem flushRings_detAtt (s : State) : (flushRings s).detAtt = s.detAtt := rfl
@[simp] theorem flushRings_detRel (s : State) : (flushRings s).detRel = s.detRel := rfl
@[simp] theorem flushRings_auxEn (s : State) : (flushRings s).auxEn = s.auxEn := rfl
@[simp] theorem flushRings_auxSample (s : State) : (flushRings s).auxSample = s.auxSample := rfl
@[simp] theorem flushRings_lastPath (s : State) : (flushRings s).lastPath = s.lastPath := rfl
@[simp] theorem flushRings_fault (s : State) : (flushRings s).fault = s.fault := rfl
@[simp] theorem flushRings_faultCause (s : State) : (flushRings s).faultCause = s.faultCause := rfl
@[simp] theorem flushRings_hostIn (s : State) : (flushRings s).hostIn = s.hostIn := rfl
@[simp] theorem flushRings_hostOut (s : State) : (flushRings s).hostOut = s.hostOut := rfl
@[simp] theorem flushRings_nanDraw (s : State) : (flushRings s).nanDraw = s.nanDraw := rfl

/-! `createRings` -/

@[simp] theorem createRings_configured (L : Nat) (s : State) : (createRings L s).configured = s.configured := rfl
@[simp] theorem createRings_fs (L : Nat) (s : State) : (createRings L s).fs = s.fs := rfl
@[simp] theorem createRings_spms (L : Nat) (s : State) : (createRings L s).spms = s.spms := rfl
@[simp] theorem createRings_ringLen (L : Nat) (s : State) : (createRings L s).ringLen = L := rfl
@[simp] theorem createRings_param (L : Nat) (s : State) : (createRings L s).param = s.param := rfl
@[simp] theorem createRings_paramsValid (L : Nat) (s : State) : (createRings L s).paramsValid = s.paramsValid := rfl
@[simp] theorem createRings_tapCount (L : Nat) (s : State) : (createRings L s).tapCount = s.tapCount := rfl
@[simp] theorem createRings_tapMs (L : Nat) (s : State) : (createRings L s).tapMs = s.tapMs := rfl
@[simp] theorem createRings_sRing (L : Nat) (s : State) : (createRings L s).sRing = ⟨[], 0⟩ := rfl
@[simp] theorem createRings_mRing (L : Nat) (s : State) : (createRings L s).mRing = ⟨[], 0⟩ := rfl
@[simp] theorem createRings_lfoPhase (L : Nat) (s : State) : (createRings L s).lfoPhase = s.lfoPhase := rfl
@[simp] theorem createRings_detEnv (L : Nat) (s : State) : (createRings L s).detEnv = s.detEnv := rfl
@[simp] theorem createRings_detAtt (L : Nat) (s : State) : (createRings L s).detAtt = s.detAtt := rfl
@[simp] theorem createRings_detRel (L : Nat) (s : State) : (createRings L s).detRel = s.detRel := rfl
@[simp] theorem createRings_auxEn (L : Nat) (s : State) : (createRings L s).auxEn = s.auxEn := rfl
@[simp] theorem createRings_auxSample (L : Nat) (s : State) : (createRings L s).auxSample = s.auxSample := rfl
@[simp] theorem createRings_lastPath (L : Nat) (s : State) : (createRings L s).lastPath = s.lastPath := rfl
@[simp] theorem createRings_fault (L : Nat) (s : State) : (createRings L s).fault = s.fault := rfl
@[simp] theorem createRings_faultCause (L : Nat) (s : State) : (createRings L s).faultCause = s.faultCause := rfl
@[simp] theorem createRings_hostIn (L : Nat) (s : State) : (createRings L s).hostIn = s.hostIn := rfl
@[simp] theorem createRings_hostOut (L : Nat) (s : State) : (createRings L s).hostOut = s.hostOut := rfl
@[simp] theorem createRings_nanDraw (L : Nat) (s : State) : (createRings L s).nanDraw = s.nanDraw := rfl

/-! `configure` -/

@[simp] theorem configure_configured (fs spms att rel : F64) (s : State) : (configure fs spms att rel s).configured = true := rfl
@[simp] theorem configure_fs (fs spms att rel : F64) (s : State) : (configure fs spms att rel s).fs = fs := rfl
@[simp] theorem configure_spms (fs spms att rel : F64) (s : State) : (configure fs spms att rel s).spms = spms := rfl
@[simp] theorem configure_ringLen (fs spms att rel : F64) (s : State) : (configure fs spms att rel s).ringLen = s.ringLen := rfl
@[simp] theorem configure_param (fs spms att rel : F64) (s : State) : (configure fs spms att rel s).param = s.param := rfl
@[simp] theorem configure_paramsValid (fs spms att rel : F64) (s : State) : (configure fs spms att rel s).paramsValid = s.paramsValid := rfl
@[simp] theorem configure_tapCount (fs spms att rel : F64) (s : State) : (configure fs spms att rel s).tapCount = s.tapCount := rfl
@[simp] theorem configure_tapMs (fs spms att rel : F64) (s : State) : (configure fs spms att rel s).tapMs = s.tapMs := rfl
@[simp] theorem configure_sRing (fs spms att rel : F64) (s : State) : (configure fs spms att rel s).sRing = s.sRing := rfl
@[simp] theorem configure_mRing (fs spms att rel : F64) (s : State) : (configure fs spms att rel s).mRing = s.mRing := rfl
@[simp] theorem configure_lfoPhase (fs spms att rel : F64) (s : State) : (configure fs spms att rel s).lfoPhase = Fp.posZero := rfl
@[simp] theorem configure_detEnv (fs spms att rel : F64) (s : State) : (configure fs spms att rel s).detEnv = Fp.posZero := rfl
@[simp] theorem configure_detAtt (fs spms att rel : F64) (s : State) : (configure fs spms att rel s).detAtt = att := rfl
@[simp] theorem configure_detRel (fs spms att rel : F64) (s : State) : (configure fs spms att rel s).detRel = rel := rfl
@[simp] theorem configure_auxEn (fs spms att rel : F64) (s : State) : (configure fs spms att rel s).auxEn = s.auxEn := rfl
@[simp] theorem configure_auxSample (fs spms att rel : F64) (s : State) : (configure fs spms att rel s).auxSample = s.auxSample := rfl
@[simp] theorem configure_lastPath (fs spms att rel : F64) (s : State) : (configure fs spms att rel s).lastPath = .none := rfl
@[simp] theorem configure_fault (fs spms att rel : F64) (s : State) : (configure fs spms att rel s).fault = s.fault := rfl
@[simp] theorem configure_faultCause (fs spms att rel : F64) (s : State) : (configure fs spms att rel s).faultCause = s.faultCause := rfl
@[simp] theorem configure_hostIn (fs spms att rel : F64) (s : State) : (configure fs spms att rel s).hostIn = s.hostIn := rfl
@[simp] theorem configure_hostOut (fs spms att rel : F64) (s : State) : (configure fs spms att rel s).hostOut = s.hostOut := rfl
@[simp] theorem configure_nanDraw (fs spms att rel : F64) (s : State) : (configure fs spms att rel s).nanDraw = s.nanDraw := rfl

/-! `stepUnits` -/

@[simp] theorem stepUnits_configured (env phase : F64) (s : State) : (stepUnits env phase s).configured = s.configured := rfl
@[simp] theorem stepUnits_fs (env phase : F64) (s : State) : (stepUnits env phase s).fs = s.fs := rfl
@[simp] theorem stepUnits_spms (env phase : F64) (s : State) : (stepUnits env phase s).spms = s.spms := rfl
@[simp] theorem stepUnits_ringLen (env phase : F64) (s : State) : (stepUnits env phase s).ringLen = s.ringLen := rfl
@[simp] theorem stepUnits_param (env phase : F64) (s : State) : (stepUnits env phase s).param = s.param := rfl
@[simp] theorem stepUnits_paramsValid (env phase : F64) (s : State) : (stepUnits env phase s).paramsValid = s.paramsValid := rfl
@[simp] theorem stepUnits_tapCount (env phase : F64) (s : State) : (stepUnits env phase s).tapCount = s.tapCount := rfl
@[simp] theorem stepUnits_tapMs (env phase : F64) (s : State) : (stepUnits env phase s).tapMs = s.tapMs := rfl
@[simp] theorem stepUnits_sRing (env phase : F64) (s : State) : (stepUnits env phase s).sRing = s.sRing := rfl
@[simp] theorem stepUnits_mRing (env phase : F64) (s : State) : (stepUnits env phase s).mRing = s.mRing := rfl
@[simp] theorem stepUnits_lfoPhase (env phase : F64) (s : State) : (stepUnits env phase s).lfoPhase = phase := rfl
@[simp] theorem stepUnits_detEnv (env phase : F64) (s : State) : (stepUnits env phase s).detEnv = env := rfl
@[simp] theorem stepUnits_detAtt (env phase : F64) (s : State) : (stepUnits env phase s).detAtt = s.detAtt := rfl
@[simp] theorem stepUnits_detRel (env phase : F64) (s : State) : (stepUnits env phase s).detRel = s.detRel := rfl
@[simp] theorem stepUnits_auxEn (env phase : F64) (s : State) : (stepUnits env phase s).auxEn = s.auxEn := rfl
@[simp] theorem stepUnits_auxSample (env phase : F64) (s : State) : (stepUnits env phase s).auxSample = s.auxSample := rfl
@[simp] theorem stepUnits_lastPath (env phase : F64) (s : State) : (stepUnits env phase s).lastPath = s.lastPath := rfl
@[simp] theorem stepUnits_fault (env phase : F64) (s : State) : (stepUnits env phase s).fault = s.fault := rfl
@[simp] theorem stepUnits_faultCause (env phase : F64) (s : State) : (stepUnits env phase s).faultCause = s.faultCause := rfl
@[simp] theorem stepUnits_hostIn (env phase : F64) (s : State) : (stepUnits env phase s).hostIn = s.hostIn := rfl
@[simp] theorem stepUnits_hostOut (env phase : F64) (s : State) : (stepUnits env phase s).hostOut = s.hostOut := rfl
@[simp] theorem stepUnits_nanDraw (env phase : F64) (s : State) : (stepUnits env phase s).nanDraw = s.nanDraw := rfl

end Sys2Proof.Machine
end

