-- ==== Sys2Proof/Laws/Ring.lean ====
section
/-!
SUPPORT. The ring cells: reading after writing, and that every memory operation keeps the canonical form.
-/

namespace Sys2Proof.Machine

/-- A cell below every listed index is not listed. -/
theorem cellRead_of_wf_lt {C : Nat} {cs : List (Nat × F64)} {lo j : Nat} (h : cellsWfFrom C lo cs = true) (hj : j < lo) :
    cellRead cs j = emptyCell := by
  induction cs generalizing lo with
  | nil => rfl
  | cons p cs ih =>
    obtain ⟨k, v⟩ := p
    simp only [cellsWfFrom, Bool.and_eq_true, decide_eq_true_eq] at h
    have hne : j ≠ k := by omega
    simp only [cellRead, hne, if_false]
    exact ih h.2 (by omega)

/-- The form holds from any lower index. -/
theorem cellsWfFrom_mono {C lo lo' : Nat} {cs : List (Nat × F64)} (h : cellsWfFrom C lo cs = true) (hle : lo' ≤ lo) :
    cellsWfFrom C lo' cs = true := by
  cases cs with
  | nil => rfl
  | cons p cs =>
    obtain ⟨k, v⟩ := p
    simp only [cellsWfFrom, Bool.and_eq_true, decide_eq_true_eq] at h ⊢
    exact ⟨⟨⟨by omega, h.1.1.2⟩, h.1.2⟩, h.2⟩

/-- Listing a value that an unlisted cell does not have keeps the form. -/
theorem cellInsert_wf {C lo j : Nat} {v : F64} {cs : List (Nat × F64)} (h : cellsWfFrom C lo cs = true) (hlo : lo ≤ j)
    (hj : j < C) (hv : v ≠ emptyCell) : cellsWfFrom C lo (cellInsert cs j v) = true := by
  induction cs generalizing lo with
  | nil => simp [cellInsert, cellsWfFrom, hlo, hj, hv]
  | cons p cs ih =>
    obtain ⟨k, u⟩ := p
    have hw := h
    simp only [cellsWfFrom, Bool.and_eq_true, decide_eq_true_eq] at h
    obtain ⟨⟨⟨hk, hkC⟩, hu⟩, hcs⟩ := h
    simp only [cellInsert]
    split
    · simp only [cellsWfFrom, Bool.and_eq_true, decide_eq_true_eq]
      exact ⟨⟨⟨hlo, hj⟩, hv⟩, ⟨⟨by omega, hkC⟩, hu⟩, hcs⟩
    · split
      · subst j
        simp only [cellsWfFrom, Bool.and_eq_true, decide_eq_true_eq]
        exact ⟨⟨⟨hlo, hj⟩, hv⟩, hcs⟩
      · simp only [cellsWfFrom, Bool.and_eq_true, decide_eq_true_eq]
        exact ⟨⟨⟨hk, hkC⟩, hu⟩, ih hcs (by omega)⟩

/-- Taking an entry away keeps the form. -/
theorem cellErase_wf {C lo j : Nat} {cs : List (Nat × F64)} (h : cellsWfFrom C lo cs = true) :
    cellsWfFrom C lo (cellErase cs j) = true := by
  induction cs generalizing lo with
  | nil => rfl
  | cons p cs ih =>
    obtain ⟨k, u⟩ := p
    simp only [cellsWfFrom, Bool.and_eq_true, decide_eq_true_eq] at h
    simp only [cellErase]
    split
    · exact cellsWfFrom_mono h.2 (by omega)
    · simp only [cellsWfFrom, Bool.and_eq_true, decide_eq_true_eq]
      exact ⟨h.1, ih h.2⟩

/-- A cell write keeps the canonical form. -/
theorem cellWrite_wf {C j : Nat} {v : F64} {cs : List (Nat × F64)} (h : cellsWfFrom C 0 cs = true) (hj : j < C) :
    cellsWfFrom C 0 (cellWrite cs j v) = true := by
  unfold cellWrite
  split
  · exact cellErase_wf h
  · exact cellInsert_wf h (Nat.zero_le j) hj ‹_›

theorem cellRead_cellInsert (cs : List (Nat × F64)) (j i : Nat) (v : F64) :
    cellRead (cellInsert cs j v) i = if i = j then v else cellRead cs i := by
  induction cs with
  | nil => simp [cellInsert, cellRead]
  | cons p cs ih =>
    obtain ⟨k, u⟩ := p
    simp only [cellInsert]
    split
    · simp only [cellRead]
    · split
      · subst j; simp only [cellRead]; split <;> rfl
      · simp only [cellRead, ih]
        split
        · next h => rw [if_neg (by omega)]
        · rfl

theorem cellRead_cellErase {C lo : Nat} {cs : List (Nat × F64)} (h : cellsWfFrom C lo cs = true) (j i : Nat) :
    cellRead (cellErase cs j) i = if i = j then emptyCell else cellRead cs i := by
  induction cs generalizing lo with
  | nil => simp [cellErase, cellRead]
  | cons p cs ih =>
    obtain ⟨k, u⟩ := p
    simp only [cellsWfFrom, Bool.and_eq_true, decide_eq_true_eq] at h
    simp only [cellErase]
    split
    · next hjk =>
      subst hjk
      split
      · next hij => subst hij; exact cellRead_of_wf_lt h.2 (by omega)
      · next hij => simp [cellRead, hij]
    · next hjk =>
      simp only [cellRead, ih h.2]
      split
      · next h1 => rw [if_neg (by omega)]
      · rfl

/-- What a cell holds after a write: the value at the written index, as before everywhere else. -/
theorem cellRead_cellWrite {C : Nat} {cs : List (Nat × F64)} (h : cellsWfFrom C 0 cs = true) (j i : Nat) (v : F64) :
    cellRead (cellWrite cs j v) i = if i = j then v else cellRead cs i := by
  unfold cellWrite
  split
  · next hv => rw [cellRead_cellErase h, hv]
  · exact cellRead_cellInsert cs j i v

/-- The parts of the canonical form of a ring. -/
theorem Memory.wf_iff (C : Nat) (r : Ring) : Memory.wf C r = true ↔ cellsWfFrom C 0 r.cells = true ∧ r.wp < C := by
  simp [Memory.wf]

/-- `RingWrite` keeps the canonical form. -/
theorem ringWrite_wf {C : Nat} {r : Ring} {v : F64} (h : Memory.wf C r = true) : Memory.wf C (ringWrite C r v) = true := by
  rw [Memory.wf_iff] at h ⊢
  exact ⟨cellWrite_wf h.1 h.2, Nat.mod_lt _ (by omega)⟩

/-- `RingFlush` and `RingCreate` leave a ring in canonical form. -/
theorem ringFlush_wf {C : Nat} (h : 0 < C) (r : Ring) : Memory.wf C (ringFlush r) = true := by
  simp [Memory.wf, ringFlush, cellsWfFrom, h]

theorem ringCreate_wf {C : Nat} (h : 0 < C) (L : Nat) : Memory.wf C (ringCreate L) = true := by
  simp [Memory.wf, ringCreate, cellsWfFrom, h]

/-- The rings of the power-on state are in canonical form. -/
theorem reset_rings_wf : Memory.wf State.reset.ringLen State.reset.sRing = true ∧
    Memory.wf State.reset.ringLen State.reset.mRing = true := by decide

/-- The index of `ringCell` is the spec's `(wp - k) mod C` (00_scope R13). -/
theorem ringIndex_eq_emod {C wp k : Nat} (hk : k ≤ C) : (ringIndex C wp k : Int) = ((wp : Int) - k) % C := by
  unfold ringIndex
  have h : ((wp + C - k : Nat) : Int) = ((wp : Int) - k) + C := by omega
  rw [Int.natCast_emod, h, Int.add_emod_right]

theorem ringIndex_lt {C wp k : Nat} (h : 0 < C) : ringIndex C wp k < C := Nat.mod_lt _ h

/-- The delay of a read is the only thing that can make it fail, and it fails with one cause (40_delay_line R103). -/
theorem ringRead_cases (fr : FpSite → BitVec 53) (k C : Nat) (r : Ring) (d : F64) :
    (delayInRange C d = true ∧
      ringRead fr k C r d =
        .ok (interpolate fr k d (Fp.floor d) (ringCell C r (Fp.floor d)) (ringCell C r (Fp.floor d + 1)))) ∨
    (delayInRange C d = false ∧ ringRead fr k C r d = .error .delayRange) := by
  unfold ringRead
  cases delayInRange C d <;> simp

end Sys2Proof.Machine
end

