-- ==== Sys2Proof/Laws/Ops.lean ====
section
/-!
SUPPORT. Everything each shared operation can do, said once: how a command ends, what each command's meaning answers, and
what a step does.
-/

namespace Sys2Proof.Machine

/-- How a command ends: faulted in the state it found, or with its results. -/
theorem finish_eq_next_iff {s t : State} {r : Except Cause (List Word × State)} :
    finish s r = .next t ↔
      (∃ c, r = .error c ∧ t = setFault c s) ∨ (∃ ws u, r = .ok (ws, u) ∧ t = returnWords ws u) := by
  cases r with
  | error c => simp [finish, raiseFault, eq_comm]
  | ok p => obtain ⟨ws, u⟩ := p; simp [finish, eq_comm]

@[simp] theorem finish_error (s : State) (c : Cause) : finish s (.error c) = .next (setFault c s) := rfl

@[simp] theorem finish_ok (s t : State) (ws : List Word) : finish s (.ok (ws, t)) = .next (returnWords ws t) := rfl

/-- What `SETP` answers. -/
theorem setp_cases (P : Params) (fr : FpSite → BitVec 53) (pk : Packet) (s : State) :
    (validate pk = true ∧
      setp P fr pk s = .ok ([], loadParams (bankOfPacket pk)
        (resolve P fr pk.modeSelectorValue pk.delayTimeShortMs pk.delayTimeLongMs).1
        (resolve P fr pk.modeSelectorValue pk.delayTimeShortMs pk.delayTimeLongMs).2 s)) ∨
    (validate pk = false ∧ setp P fr pk s = .error .paramRange) := by
  unfold setp
  cases validate pk <;> simp

/-- What `GETP` answers. -/
theorem getp_cases (s : State) :
    (s.paramsValid = true ∧ getp s = .ok (packetWords (packetOfBank s.param), s)) ∨
    (s.paramsValid = false ∧ getp s = .error .noParams) := by
  unfold getp
  cases s.paramsValid <;> simp

/-- What `AUXEN` answers. -/
theorem auxen_cases (e : Word) (s : State) :
    (enableReservedZero e = true ∧ auxen e s = .ok ([], setAuxEn (enableBit e) s)) ∨
    (enableReservedZero e = false ∧ auxen e s = .error .illegalCmd) := by
  unfold auxen
  cases enableReservedZero e <;> simp

/-- What `RESET` answers. -/
theorem reset_cases (P : Params) (fr : FpSite → BitVec 53) (fs : F64) (s : State) :
    (finitePositive fs = false ∧ reset P fr fs s = .error .badRate) ∨
    (finitePositive fs = true ∧ maxRingLen P < ringLenFn P fs ∧
      reset P fr fs s = .ok ([resetResult false], unconfigure s)) ∨
    (finitePositive fs = true ∧ ringLenFn P fs ≤ maxRingLen P ∧
      reset P fr fs s = .ok ([resetResult true],
        configure fs (Fp.div (fr .spms) fs Fp.c1000) (detCoef P Fp.c1 fs) (detCoef P Fp.c500 fs)
          (resetRings fs (ringLenFn P fs) s))) := by
  unfold reset
  cases finitePositive fs
  · simp
  · by_cases h : maxRingLen P < ringLenFn P fs
    · simp [h]
    · simp [h, Nat.not_lt.mp h]

/-- The LFO's part of a `PROC`. -/
theorem procLfo_cases (P : Params) (fr : FpSite → BitVec 53) (s : State) :
    (s.param.enableMod = false ∧ procLfo P fr s = .ok none) ∨
    (s.param.enableMod = true ∧ Fp.lt (lfoInc fr s.param.modRateHz s.fs) Fp.c1 = false ∧
      procLfo P fr s = .error .lfoRate) ∨
    (s.param.enableMod = true ∧ Fp.lt (lfoInc fr s.param.modRateHz s.fs) Fp.c1 = true ∧
      procLfo P fr s = .ok (some ⟨lfoWave P s.lfoPhase, unipolar fr (lfoWave P s.lfoPhase),
        advancePhase fr s.lfoPhase (lfoInc fr s.param.modRateHz s.fs)⟩)) := by
  unfold procLfo lfoStep
  cases s.param.enableMod <;> cases Fp.lt (lfoInc fr s.param.modRateHz s.fs) Fp.c1 <;> simp

/-- A static path that answers: the taps were read, and the output and the ring follow from them. -/
theorem staticPath_eq_ok_iff {fr : FpSite → BitVec 53} {x y : F64} {s : State} {r : Ring} :
    staticPath fr x s = .ok (y, r) ↔
      ∃ t, tapReads fr s = .ok t ∧ y = staticOut fr s.param x t ∧
        r = ringWrite s.ringLen s.sRing (staticIn fr s.param x t) := by
  unfold staticPath
  cases tapReads fr s <;> simp [eq_comm]

/-- A modulated tap that answers: its one read succeeded, and the output and the ring follow from it. -/
theorem modTap_eq_ok_iff {P : Params} {fr : FpSite → BitVec 53} {t : ModType} {x ms y : F64} {s : State} {r : Ring} :
    modTap P fr t x ms s = .ok (y, r) ↔
      ∃ yd, ringRead fr 4 s.ringLen s.mRing (msToSamples fr 4 s.spms ms) = .ok yd ∧
        y = modTapOut P fr t x yd ∧ r = ringWrite s.ringLen s.mRing (modTapIn P fr t x yd) := by
  unfold modTap
  cases ringRead fr 4 s.ringLen s.mRing (msToSamples fr 4 s.spms ms) <;> simp [eq_comm]

/-- A path that answers: the modulated or the static one, by the multiplexer. -/
theorem runPath_eq_ok_iff {P : Params} {fr : FpSite → BitVec 53} {x y : F64} {sc : Option F64} {lfo : Option LfoOut}
    {s t : State} :
    runPath P fr x sc lfo s = .ok (y, t) ↔
      (∃ m o r, selectPath s lfo = some (m, o) ∧ modPath P fr m x o sc s = .ok (y, r) ∧ t = endModulated r s) ∨
      (∃ r, selectPath s lfo = none ∧ staticPath fr x s = .ok (y, r) ∧ t = endStatic r s) := by
  constructor
  · intro h
    unfold runPath at h
    split at h
    · next m o hsel =>
      split at h
      · cases h
      · next y' r hm =>
        cases h
        exact .inl ⟨m, o, r, hsel, hm, rfl⟩
    · next hsel =>
      split at h
      · cases h
      · next y' r hs =>
        cases h
        exact .inr ⟨r, hsel, hs, rfl⟩
  · rintro (⟨m, o, r, h1, h2, rfl⟩ | ⟨r, h1, h2, rfl⟩) <;> simp [runPath, h1, h2]

/-- A `PROC` that answers a sample: the guards held, the units stepped, the path answered. -/
theorem proc_eq_ok_iff {P : Params} {fr : FpSite → BitVec 53} {x : F64} {s t : State} {ws : List Word} :
    proc P fr x s = .ok (ws, t) ↔
      s.configured = true ∧ s.paramsValid = true ∧
        ∃ lfo y u, procLfo P fr s = .ok lfo ∧
          runPath P fr x (procScDepth P fr s) lfo (stepUnits (procEnv P fr s) (procPhase s lfo) s) = .ok (y, u) ∧
          ws = [y] ∧ t = nextDraw u := by
  constructor
  · intro h
    unfold proc at h
    split at h
    · next hc =>
      split at h
      · next hp =>
        split at h
        · cases h
        · next lfo hl =>
          split at h
          · cases h
          · next y u hr =>
            cases h
            exact ⟨hc, hp, lfo, y, u, hl, hr, rfl, rfl⟩
      · cases h
    · cases h
  · rintro ⟨hc, hp, lfo, y, u, hl, hr, rfl, rfl⟩
    simp [proc, hc, hp, hl, hr]

/-- What a step does. -/
theorem step_cases (s : State) :
    (s.fault = true ∧ step s = .fault (.stuck s.faultCause)) ∨
    (s.fault = false ∧
      ((∃ i rest, decode s.hostIn = .cmd i rest ∧ step s = exec i (setHostIn rest s)) ∨
       (∃ b rest, decode s.hostIn = .illegal b rest ∧ step s = .next (setFault .illegalCmd (setHostIn rest s))) ∨
       (decode s.hostIn = .incomplete ∧ step s = .next s))) := by
  unfold step
  cases s.fault
  · right
    refine ⟨rfl, ?_⟩
    cases h : decode s.hostIn with
    | cmd i rest => exact .inl ⟨i, rest, rfl, by simp⟩
    | illegal b rest => exact .inr (.inl ⟨b, rest, rfl, by simp [raiseFault]⟩)
    | incomplete => exact .inr (.inr ⟨rfl, by simp⟩)
  · exact .inl ⟨rfl, by simp⟩

end Sys2Proof.Machine
end

