-- ==== Sys2Proof/Laws/PerInstr.lean ====
section
/-!
SUPPORT. Statements for every command, one lemma per constructor: how long its encoding is and which byte it starts with.
-/

namespace Sys2Proof.Laws.EncodeLength

/-- A command is one command byte, which decodes to its opcode, and eight bytes for each operand word its opcode takes
(spec 30_encoding R70, R73, R83). -/
def Statement (i : Instr) : Prop :=
  (encode i).length = 1 + 8 * operandWords i.opcode ∧ (encode i).head?.bind decodeByte = some i.opcode

theorem reset (fs : F64) : Statement (.reset fs) := ⟨rfl, decodeByte_opcodeByte _⟩
theorem setp (pk : Packet) : Statement (.setp pk) := ⟨rfl, decodeByte_opcodeByte _⟩
theorem getp : Statement .getp := ⟨rfl, decodeByte_opcodeByte _⟩
theorem proc (x : F64) : Statement (.proc x) := ⟨rfl, decodeByte_opcodeByte _⟩
theorem auxen (e : Word) : Statement (.auxen e) := ⟨rfl, decodeByte_opcodeByte _⟩
theorem auxin (a : F64) : Statement (.auxin a) := ⟨rfl, decodeByte_opcodeByte _⟩
theorem gets : Statement .gets := ⟨rfl, decodeByte_opcodeByte _⟩

end Sys2Proof.Laws.EncodeLength
end

