-- ==== Sys2Proof/Tests/Slice0.lean ====
section
/-!
SUPPORT. Tests against the spec's own examples and vectors (95_test_vectors and the section files' examples), and for every
obligation with hypotheses a witness that meets them.
-/

set_option Elab.async false

namespace Sys2Proof.Tests

open Sys2Proof Sys2Proof.Machine

/-! The test configuration TC of spec 95_test_vectors (a fixed ring length of 16384, that of 1000 Hz), and small states. -/

def testP : Params where
  ringLenRaw := fun _ => 16384
  maxRingLenRaw := 2 ^ 53
  tapSchedule := fun _ => .one .short
  modMinRaw := fun m t =>
    match m, t with
    | .mode1, .flanger => 0x3FF0000000000000#64
    | .mode1, .vibrato => 0x0000000000000000#64
    | .mode1, .chorus => 0x4024000000000000#64
    | .mode2, .flanger => 0x4000000000000000#64
    | .mode2, .vibrato => 0x0000000000000000#64
    | .mode2, .chorus => 0x4014000000000000#64
  modRngRaw := fun m t =>
    match m, t with
    | .mode1, .flanger => 0x4010000000000000#64
    | .mode1, .vibrato => 0x4020000000000000#64
    | .mode1, .chorus => 0x4034000000000000#64
    | .mode2, .flanger => 0x4010000000000000#64
    | .mode2, .vibrato => 0x4010000000000000#64
    | .mode2, .chorus => 0x4024000000000000#64
  modDryDbRaw := fun _ => 0x0000000000000000#64
  modWetDbRaw := fun _ => 0x0000000000000000#64
  flangerFbPctRaw := 0x4049000000000000#64
  lfoWaveRaw := fun ph =>
    Fp.sub 1 (Fp.mul 1 0x4000000000000000#64
      (Fp.abs (Fp.sub 1 (Fp.mul 1 0x4000000000000000#64 ph) 0x3FF0000000000000#64))) 0x3FF0000000000000#64
  detCoefRaw := fun _ _ => 0x3FE0000000000000#64
  detDbFloor := 0xC058000000000000#64
  detFlush := 0x0000000000000000#64
  log10 := fun _ => 0x0000000000000000#64
  pow10 := fun _ => 0x3FF0000000000000#64
  nChannels := 2

/-- NaN bits for the tests; no tested value depends on them. -/
def fr1 : FpSite → BitVec 53 := fun _ => 1

/-- The result words, the state after and the fault cause of a command. -/
def words : Except Cause (List Word × State) → Option (List Word)
  | .ok (ws, _) => some ws
  | .error _ => none

def after : Except Cause (List Word × State) → State
  | .ok (_, s) => s
  | .error _ => State.reset

def causeOf : Except Cause (List Word × State) → Option Cause
  | .ok _ => none
  | .error c => some c

/-- The base packet of 95_test_vectors L2.3: fb=0, blend=0.5, mode=14, short=100, long=250, depth=0, rate=1, FLANGER. -/
def pkBase : Packet :=
  ⟨0x0000000000000000#64, 0x3FE0000000000000#64, 14#64, 0x4059000000000000#64, 0x406F400000000000#64,
   0x0000000000000000#64, 0x3FF0000000000000#64, 0#64, 0#64⟩

/-- Configured at 1000 Hz with rings of 16 cells (`SPMS = 1.0`), one tap at 1.0 ms, the bank of `pkBase`. -/
def sBase : State :=
  { State.reset with
    configured := true, fs := 0x408F400000000000#64, spms := 0x3FF0000000000000#64, ringLen := 16,
    param := bankOfPacket pkBase, paramsValid := true, tapCount := 1,
    tapMs := ⟨0x3FF0000000000000#64, 0, 0, 0⟩ }

/-- `sBase` with the Flanger of mode 1 on, at 1.0 Hz, and a rate factor of zero, so that every delay is 0 samples. -/
def sMod : State :=
  { sBase with
    spms := 0x0000000000000000#64
    param := { bankOfPacket pkBase with modeSelectorValue := 1#64, enableMod := true } }

/-! Well-formedness: each check refuses an ill-formed command (30_encoding R77, R79). -/

theorem test_wf_accepts_legal :
    (Instr.setp { pkBase with flags := 3#64 }).wf = true ∧ (Instr.auxen 1#64).wf = true ∧ Instr.gets.wf = true := by decide

theorem test_wf_refuses_flags : (Instr.setp { pkBase with flags := 4#64 }).wf = false := by decide

theorem test_wf_refuses_enable : (Instr.auxen 2#64).wf = false := by decide

/-! Decoding, from the bytes the spec writes out. -/

/-- 95_test_vectors L2.1. -/
theorem test_decode_reset :
    decode [0x01, 0x00, 0x00, 0x00, 0x00, 0x00, 0x40, 0x8F, 0x40] = .cmd (.reset 0x408F400000000000#64) [] := by decide

/-- 95_test_vectors P1, the byte stream of the second command: every one of the nine words in its place. -/
theorem test_decode_setp :
    decode
      [0x02, 0x00, 0x00, 0x00, 0x00, 0x00, 0x00, 0x59, 0x40, 0x00, 0x00, 0x00, 0x00, 0x00, 0x00, 0xF0, 0x3F,
       0x0E, 0x00, 0x00, 0x00, 0x00, 0x00, 0x00, 0x00, 0x00, 0x00, 0x00, 0x00, 0x00, 0x00, 0xF0, 0x3F,
       0x00, 0x00, 0x00, 0x00, 0x00, 0x00, 0xF0, 0x3F, 0x00, 0x00, 0x00, 0x00, 0x00, 0x00, 0x00, 0x00,
       0x00, 0x00, 0x00, 0x00, 0x00, 0x00, 0xF0, 0x3F, 0x00, 0x00, 0x00, 0x00, 0x00, 0x00, 0x00, 0x00,
       0x00, 0x00, 0x00, 0x00, 0x00, 0x00, 0x00, 0x00, 0x04] =
      .cmd (.setp
        ⟨0x4059000000000000#64, 0x3FF0000000000000#64, 14#64, 0x3FF0000000000000#64, 0x3FF0000000000000#64,
         0x0000000000000000#64, 0x3FF0000000000000#64, 0#64, 0#64⟩) [0x04] := by decide +kernel

theorem test_decode_getp : decode [0x03, 0x07] = .cmd .getp [0x07] := by decide

theorem test_decode_proc :
    decode [0x04, 0x00, 0x00, 0x00, 0x00, 0x00, 0x00, 0xF0, 0x3F] = .cmd (.proc 0x3FF0000000000000#64) [] := by decide

theorem test_decode_auxen :
    decode [0x05, 0x02, 0x00, 0x00, 0x00, 0x00, 0x00, 0x00, 0x80] = .cmd (.auxen 0x8000000000000002#64) [] := by decide

theorem test_decode_auxin :
    decode [0x06, 0x01, 0x23, 0x45, 0x67, 0x89, 0xAB, 0xCD, 0xEF] = .cmd (.auxin 0xEFCDAB8967452301#64) [] := by decide

theorem test_decode_gets : decode [0x07] = .cmd .gets [] := by decide

/-- 95_test_vectors L2.1: the illegal bytes, and the opcodes beside the legal ones. -/
theorem test_decode_illegal :
    [0x00, 0x08, 0x0F, 0x10, 0x11, 0x14, 0x81, 0xFF].map decodeByte = List.replicate 8 none := by decide

theorem test_decode_waits : decode [0x04, 0x00, 0x00] = .incomplete ∧ decode [] = .incomplete := by decide

/-- 95_test_vectors L2.1: a `PROC` result of 0.25. -/
theorem test_result_bytes :
    resultBytes [0x3FD0000000000000#64] = [0x00, 0x00, 0x00, 0x00, 0x00, 0x00, 0xD0, 0x3F] := by decide

/-- The opcode table's numbering: the command byte is bits 7 to 0, the operand word the 64 bits above it. -/
theorem test_table_word :
    decodeTableWord 72 (0x3FF0000000000000 * 2 ^ 8 + 0x04) = some (.proc 0x3FF0000000000000#64) ∧
    decodeTableWord 8 0x06 = some (.auxin 0#64) ∧ decodeTableWord 8 0x08 = none := by decide

/-- The first step after reset runs the instruction placed: `GETS` at power-on returns `0x0` (95_test_vectors L2.7). -/
theorem test_fetch_runs_gets :
    step (State.reset.withFetchWord 8 0x07) = .next { State.reset with hostOut := [0#64] } := rfl

theorem test_fetch_runs_auxen :
    step (State.reset.withFetchWord 72 (1 * 2 ^ 8 + 0x05)) = .next { State.reset with auxEn := true } := rfl

/-- 95_test_vectors P4c: byte `14`, no operand read. -/
theorem test_step_illegal :
    step { State.reset with hostIn := [0x14, 0x07] } =
      .next { State.reset with hostIn := [0x07], fault := true, faultCause := 1 } := rfl

/-! `RESET` (95_test_vectors L2.7; P7b). -/

theorem test_reset_1000 :
    let r := reset testP fr1 0x408F400000000000#64 State.reset
    words r = some [1#64] ∧ (after r).ringLen = 16384 ∧ (after r).spms = 0x3FF0000000000000#64 ∧
      (after r).configured = true ∧ (after r).detRel = 0x3FE0000000000000#64 := by decide +kernel

/-- `MAX_RING_LEN = 2^20` and 96000 Hz: 0, unconfigured; `minRingLen` alone is 1152000. -/
theorem test_reset_capacity :
    let r := reset { testP with maxRingLenRaw := 2 ^ 20 } fr1 0x40F7700000000000#64 sBase
    words r = some [0#64] ∧ (after r).configured = false ∧ (after r).fs = sBase.fs := by decide +kernel

/-- 44100 Hz gives `SPMS = 44.1` (0x40460CCCCCCCCCCD); 5e-324 Hz gives `SPMS = 0.0` and the two-cell minimum. -/
theorem test_reset_spms :
    Fp.div 1 0x40E5888000000000#64 Fp.c1000 = 0x40460CCCCCCCCCCD#64 ∧
    Fp.div 1 0x0000000000000001#64 Fp.c1000 = 0x0000000000000000#64 ∧ minRingLen 0x0000000000000001#64 = 2 ∧
    minRingLen 0x40E5888000000000#64 = 529200 := by decide +kernel

/-! `SETP`, `GETP` (41_tap_resolver R127, R129; 95_test_vectors L2.3). -/

theorem test_setp_taps :
    let r := setp testP fr1 pkBase State.reset
    (after r).tapCount = 4 ∧
      (after r).tapMs =
        ⟨0x406F400000000000#64, 0x407F400000000000#64, 0x4087700000000000#64, 0x408F400000000000#64⟩ ∧
      (after r).paramsValid = true := by decide +kernel

/-- Accepted: the base packet, `fb = -0.0`, `depth = 100.0`. Refused: one change each, as the table has them. -/
theorem test_setp_validation :
    [pkBase, { pkBase with feedbackPct := 0x8000000000000000#64 },
      { pkBase with modDepthPct := 0x4059000000000000#64 }].map validate = [true, true, true] ∧
    [{ pkBase with feedbackPct := 0x4059000000000001#64 }, { pkBase with blend := 0x3FF0000000000001#64 },
      { pkBase with modeSelectorValue := 0#64 }, { pkBase with modeSelectorValue := 15#64 },
      { pkBase with delayTimeShortMs := 0x8000000000000000#64 },
      { pkBase with delayTimeShortMs := 0x7FF0000000000000#64 },
      { pkBase with delayTimeLongMs := 0x7FF8000000000000#64 },
      { pkBase with modDepthPct := 0xC014000000000000#64 }, { pkBase with modRateHz := 0x0000000000000000#64 },
      { pkBase with modRateHz := 0x7FF0000000000000#64 }, { pkBase with modType := 3#64 },
      { pkBase with flags := 4#64 }].map validate = List.replicate 12 false := by decide +kernel

/-- 95_test_vectors L2.3, the `GETP` line. -/
theorem test_getp_packet :
    words (getp (after (setp testP fr1 pkBase State.reset))) =
      some [0x0000000000000000#64, 0x3FE0000000000000#64, 0x000000000000000E#64, 0x4059000000000000#64,
        0x406F400000000000#64, 0x0000000000000000#64, 0x3FF0000000000000#64, 0x0000000000000000#64,
        0x0000000000000000#64] := by decide +kernel

/-- 95_test_vectors P4b. -/
theorem test_getp_faults : causeOf (getp State.reset) = some .noParams := rfl

/-! `AUXEN`, `AUXIN`, `GETS`. -/

theorem test_auxen :
    (after (auxen 1#64 State.reset)).auxEn = true ∧ causeOf (auxen 2#64 State.reset) = some .illegalCmd := by decide

/-- 44_sidechain R202: the latched sample is heard only with the input enabled. -/
theorem test_auxin_heard :
    detInput (setAuxSample 0x3FF0000000000000#64 State.reset) = 0x0000000000000000#64 ∧
    detInput (setAuxEn true (setAuxSample 0x3FF0000000000000#64 State.reset)) = 0x3FF0000000000000#64 := by decide

/-- 95_test_vectors L2.7, the `GETS` table. -/
theorem test_gets_words :
    [State.reset, { State.reset with configured := true }, { State.reset with paramsValid := true }, sBase,
      { sBase with lastPath := .static }, { sBase with lastPath := .modulated },
      { sBase with lastPath := .modulated, auxEn := true }].map statusWord =
      [0x0#64, 0x1#64, 0x2#64, 0x3#64, 0xB#64, 0x13#64, 0x17#64] := by decide

/-! `PROC`. -/

/-- 95_test_vectors L2.4 S3, the last `PROC`: taps 4.615125, 3.2025, 2.05, 1.0, `y = 1.358453125`, `win = 1.6635062500000002`. -/
theorem test_proc_static :
    let r := proc testP fr1 0x0000000000000000#64
      { sBase with
        ringLen := 16384
        tapCount := 4
        tapMs := ⟨0x3FF0000000000000#64, 0x4000000000000000#64, 0x4008000000000000#64, 0x4010000000000000#64⟩
        param := { bankOfPacket pkBase with feedbackPct := 0x4059000000000000#64 }
        sRing := ⟨[(0, 0x3FF0000000000000#64), (1, 0x4000666666666666#64), (2, 0x40099EB851EB851F#64),
          (3, 0x401275E353F7CED9#64)], 4⟩ }
    words r = some [0x3FF5BC395810624E#64] ∧ (after r).sRing.wp = 5 ∧
      cellRead (after r).sRing.cells 4 = 0x3FFA9DB8BAC710CC#64 ∧ (after r).lastPath = .static := by decide +kernel

/-- 95_test_vectors L2.5 M3, step 2: phase 0.2, a delay of 2.2, `y = 0.7999999999999998`, `win = 0.3999999999999999`. -/
theorem test_proc_modulated :
    let r := proc testP fr1 0x0000000000000000#64
      { sBase with
        lfoPhase := 0x3FC999999999999A#64
        param :=
          { bankOfPacket pkBase with
            modeSelectorValue := 1#64, modDepthPct := 0x4049000000000000#64, modRateHz := 0x4059000000000000#64,
            enableMod := true }
        mRing := ⟨[(0, 0x3FF0000000000000#64), (1, 0x3FE0000000000000#64)], 2⟩ }
    words r = some [0x3FE9999999999998#64] ∧ cellRead (after r).mRing.cells 2 = 0x3FD9999999999998#64 ∧
      (after r).mRing.wp = 3 ∧ (after r).sRing = ⟨[], 0⟩ ∧ (after r).lastPath = .modulated := by decide +kernel

/-- 95_test_vectors L2.5 M8: `rate = FS` faults, `rate = 999.9999999999999` gives the phase 0.9999999999999999. -/
theorem test_lfo_bound :
    lfoStep testP fr1 0 0x408F400000000000#64 0x408F400000000000#64 = .error .lfoRate ∧
    (match lfoStep testP fr1 0 0x408F3FFFFFFFFFFF#64 0x408F400000000000#64 with
      | .ok o => o.phase
      | .error _ => 0) = 0x3FEFFFFFFFFFFFFF#64 := by
  constructor
  · rw [lfoStep, if_neg (by decide +kernel)]
  · decide +kernel

/-- 95_test_vectors L2.5 M4: Chorus in mode 2 at depth 0.2 and `b = 0.5` delays by 10.5 ms. -/
theorem test_chorus_delay :
    modDelayMs testP fr1 .mode2 .chorus (paramDepth fr1 .chorus 0x4044000000000000#64)
      ⟨0x3FE0000000000000#64, 0, 0⟩ = 0x4025000000000000#64 := by decide +kernel

/-- 95_test_vectors L2.6 D1: the envelope 0.1875 and the input -2.0 (attack), and a NaN and an infinite input. -/
theorem test_detector :
    detStepEnv testP fr1 Fp.c0p5 Fp.c0p5 0x3FC8000000000000#64 0xC000000000000000#64 = 0x4000C00000000000#64 ∧
    detStepEnv testP fr1 Fp.c0p5 Fp.c0p5 0x4000C00000000000#64 0x7FF8000000000000#64 = 0x0000000000000000#64 ∧
    detStepEnv testP fr1 Fp.c0p5 Fp.c0p5 0 0x7FF0000000000000#64 = 0x0000000000000000#64 := by decide +kernel

/-- Attack and release apart: from the envelope 0.5, an input of 1.0 follows the attack coefficient 0.0 to 1.0, an input of 0.0
the release coefficient 0.5 to 0.25 (44_sidechain R204 by hand). D1, D3: a zero envelope gives the floor, and a linear level of
1.0 the depth 1.0. -/
theorem test_detector_branches :
    detStepEnv testP fr1 0 Fp.c0p5 Fp.c0p5 Fp.c1 = Fp.c1 ∧ detStepEnv testP fr1 0 Fp.c0p5 Fp.c0p5 0 = Fp.c0p25 ∧
    detStepDb testP fr1 0 = 0xC058000000000000#64 ∧ scDepth testP fr1 0 = Fp.c1 := by decide +kernel

/-! The ring (95_test_vectors L2.2): `C = 8` after the writes 1.0, 2.0, 3.0. -/

def ring8 : Ring := ⟨[(0, 0x3FF0000000000000#64), (1, 0x4000000000000000#64), (2, 0x4008000000000000#64)], 3⟩

/-- The value of a read, or 1e308 where it faults. -/
def readOr (d : F64) : F64 :=
  match ringRead fr1 0 8 ring8 d with
  | .ok v => v
  | .error _ => 0x7FE1CCF385EBC8A0#64

theorem test_ring_reads :
    ring8 = [0x3FF0000000000000#64, 0x4000000000000000#64, 0x4008000000000000#64].foldl (ringWrite 8) (ringFlush ring8) ∧
    [0x8000000000000000#64, 0x3FD0000000000000#64, 0x3FF0000000000000#64, 0x4004000000000000#64,
      0x401C000000000000#64, 0x401E000000000000#64, 0xBFF0000000000000#64, 0x7FF8000000000000#64].map readOr =
      [0x0000000000000000#64, 0x3FE8000000000000#64, 0x4008000000000000#64, 0x3FF8000000000000#64,
        0x0000000000000000#64, 0x7FE1CCF385EBC8A0#64, 0x7FE1CCF385EBC8A0#64, 0x7FE1CCF385EBC8A0#64] := by
  decide +kernel

/-! Arithmetic: hand-checked corners of 00_scope R9 and R12. -/

/-- 0.1 + 0.2 = 0.30000000000000004; the least subnormal halved is a tie to even; 1e308 + 1e308 overflows;
`sqrt 2`; `fmax(-0.0, +0.0) = +0.0`; `fmax(NaN, 1.0) = 1.0`. -/
theorem test_arithmetic :
    Fp.add 1 0x3FB999999999999A#64 0x3FC999999999999A#64 = 0x3FD3333333333334#64 ∧
    Fp.mul 1 0x0000000000000001#64 0x3FE0000000000000#64 = 0x0000000000000000#64 ∧
    Fp.add 1 0x7FE1CCF385EBC8A0#64 0x7FE1CCF385EBC8A0#64 = 0x7FF0000000000000#64 ∧
    Fp.sqrt 1 0x4000000000000000#64 = 0x3FF6A09E667F3BCD#64 ∧
    Fp.fmax 1 0x8000000000000000#64 0x0000000000000000#64 = 0x0000000000000000#64 ∧
    Fp.fmax 1 0x7FF8000000000000#64 0x3FF0000000000000#64 = 0x3FF0000000000000#64 := by decide +kernel

/-- 00_scope R8, R12: the decimal literals of the pseudocode are the binary64 values nearest to them. -/
theorem test_literals :
    ["0.05", "0.10", "0.2", "0.25", "0.5", "0.60", "0.8", "1.0", "2.0", "4.0", "20.0", "100.0", "200.0", "500.0",
      "1000.0"].map (fun l => parseReal l.toList) =
      [Fp.c0p05, Fp.c0p10, Fp.c0p2, Fp.c0p25, Fp.c0p5, Fp.c0p60, Fp.c0p8, Fp.c1, Fp.c2, Fp.c4, Fp.c20, Fp.c100,
        Fp.c200, Fp.c500, Fp.c1000].map some := by decide +kernel

/-! The assembler (30_encoding R85 to R87). -/

theorem test_assembler_lines :
    assembleLine "PROC -0.0 ; silence".toList = some (.cmd (.proc 0x8000000000000000#64)) ∧
    assembleLine "AUXIN 5e-324".toList = some (.cmd (.auxin 0x0000000000000001#64)) ∧
    assembleLine "RESET 0x408F400000000000".toList = some (.cmd (.reset 0x408F400000000000#64)) ∧
    assembleLine "PROCS 1.0, 2.0".toList = some (.procs 0x3FF0000000000000#64 0x4000000000000000#64) ∧
    assembleLine "AUXEN 2".toList = none ∧ assembleLine "FLUSH".toList = some .flush := by decide +kernel

/-- 95_test_vectors P5, the packet of its `SETP`. -/
theorem test_assembler_setp :
    assembleLine
      ("SETP fb=25.0, blend=0.75, mode=14, short=120.0, long=0x3FD3333333333334, ".toList ++
        "depth=12.5, rate=0.5, type=CHORUS, mod=1, sc=0".toList) =
      some (.cmd (.setp
        ⟨0x4039000000000000#64, 0x3FE8000000000000#64, 14#64, 0x405E000000000000#64, 0x3FD3333333333334#64,
         0x4029000000000000#64, 0x3FE0000000000000#64, 2#64, 1#64⟩)) := by decide +kernel

/-! Witnesses: for every obligation with hypotheses, values that meet them all, clause by clause, at the ends of the ranges. -/

/-- The next state of an outcome. -/
def nextOf : Host.Outcome State Fault Refusal → Option State
  | .next t => some t
  | .fault _ => none
  | .refused _ => none

theorem eq_next_of_nextOf {o : Host.Outcome State Fault Refusal} {p : State → Bool}
    (h : (nextOf o).map p = some true) : ∃ t, o = .next t ∧ p t = true := by
  cases o <;> simp_all [nextOf]

theorem witness_DecodeThenEncode :
    ∃ (bs : List Byte) (i : Instr) (rest : List Byte), decode bs = .cmd i rest ∧ rest ≠ [] :=
  ⟨[0x03, 0x07], .getp, [0x07], by decide, by decide⟩

theorem witness_CommandByteMap :
    ∃ (s : State) (b : Byte) (rest : List Byte), s.fault = false ∧ s.hostIn = b :: rest ∧ decodeByte b = none :=
  ⟨{ State.reset with hostIn := [0x08, 0x07] }, 0x08, [0x07], rfl, rfl, by decide⟩

theorem witness_ReservedEncodingsFault :
    ([0x00, 0x08, 0x10, 0xFF] : List Byte).all (fun b =>
      b.extractLsb' 4 4 ≠ 0#4 ∨ b.extractLsb' 0 4 = 0#4 ∨ 8 ≤ (b.extractLsb' 0 4).toNat) = true ∧
    ([2#64, 0x8000000000000000#64] : List Word).all (fun e => e.extractLsb' 1 63 ≠ 0#63) = true ∧
    ([4#64, 0x8000000000000000#64] : List Word).all (fun w => w.extractLsb' 2 62 ≠ 0#62) = true := by decide

theorem witness_StepRunsTheCommand :
    ∃ (s : State) (i : Instr) (rest : List Byte), s.fault = false ∧ decode s.hostIn = .cmd i rest :=
  ⟨{ State.reset with hostIn := [0x07, 0x03] }, .gets, [0x03], rfl, by decide⟩

theorem witness_FaultIsFinalAndLeavesTheRest :
    (∃ s : State, s.fault = true) ∧
    ∃ (i : Instr) (s t : State), s.fault = false ∧ exec i s = .next t ∧ t.fault = true :=
  ⟨⟨setFault .badRate State.reset, rfl⟩, .getp, State.reset, setFault .noParams State.reset, rfl, rfl, rfl⟩

theorem witness_WaitsForAWholeCommand :
    (∃ s : State, s.fault = false ∧ s.hostIn = []) ∧
    ∃ (s : State) (b : Byte) (op : Opcode) (bs : List Byte), s.fault = false ∧ s.hostIn = b :: bs ∧
      decodeByte b = some op ∧ bs.length < 8 * operandWords op ∧ bs.length + 1 = 8 * operandWords op :=
  ⟨⟨State.reset, rfl, rfl⟩, { State.reset with hostIn := 0x04 :: List.replicate 7 0x00 }, 0x04, .proc,
    List.replicate 7 0x00, rfl, rfl, by decide, by decide, by decide⟩

/-- `-0.0`, `+inf` and a NaN. -/
theorem witness_ResetRefusesBadRate :
    ([0x8000000000000000#64, 0x7FF0000000000000#64, 0x7FF8000000000000#64] : List F64).all (fun fs =>
      Fp.isFinite fs = false ∨ Fp.lt Fp.posZero fs = false) = true := by decide +kernel

/-- 1e300 Hz needs more than 2^53 cells, so no `MAX_RING_LEN` holds them. -/
theorem witness_ResetCapacityFailure :
    Fp.isFinite 0x7E37E43C8800759C#64 = true ∧ Fp.lt Fp.posZero 0x7E37E43C8800759C#64 = true ∧
    maxRingLen Config.hw < ringLenFn Config.hw 0x7E37E43C8800759C#64 ∧
    State.reset.configured = false ∧ exec .gets State.reset = .next { State.reset with hostOut := [0#64] } ∧
    ∀ fs : F64, Instr.gets ≠ .reset fs := by
  refine ⟨by decide +kernel, by decide +kernel, ?_, rfl, rfl, fun _ => Instr.noConfusion⟩
  have h1 := (maxRingLen_bounds Config.hw).2
  have h2 := minRingLen_le_ringLenFn Config.hw 0x7E37E43C8800759C#64
  have h3 : 2 ^ 53 < minRingLen 0x7E37E43C8800759C#64 := by decide +kernel
  omega

/-- The least positive rate and the largest finite one. -/
theorem witness_ResetCompletes :
    ([0x0000000000000001#64, 0x7FEFFFFFFFFFFFFF#64] : List F64).all (fun fs =>
      Fp.isFinite fs = true ∧ Fp.lt Fp.posZero fs = true) = true := by decide +kernel

theorem witness_UnchangedRateResetFlushes :
    sBase.configured = true ∧ finitePositive 0x408F400000000000#64 = true ∧
    Fp.feq 0x408F400000000000#64 sBase.fs = true ∧
    ringLenFn testP 0x408F400000000000#64 ≤ maxRingLen testP := by decide +kernel

/-- At 1000 Hz from `sBase`: whether or not the rings fit, the answer is a next state without a fault. -/
theorem witness_ResetFrame : ∃ t : State, exec (.reset 0x408F400000000000#64) sBase = .next t ∧ t.fault = false := by
  rcases reset_cases Config.hw fixedNan 0x408F400000000000#64 sBase with ⟨h, -⟩ | ⟨-, -, h⟩ | ⟨-, -, h⟩
  · exact absurd h (by decide +kernel)
  · exact ⟨_, (congrArg (finish sBase) h).trans (finish_ok _ _ _), rfl⟩
  · refine ⟨_, (congrArg (finish sBase) h).trans (finish_ok _ _ _), ?_⟩
    simp only [resetRings]
    split <;> rfl

theorem witness_SetpCompletes : validate pkBase = true ∧
    validate { pkBase with feedbackPct := 0x4059000000000000#64, flags := 3#64 } = true := by decide +kernel

theorem witness_SetpChecksTheContract :
    State.reset.fault = false ∧ (∃ t, exec (.setp pkBase) State.reset = .next t ∧ t.fault = false) ∧
    ∃ t, exec (.setp { pkBase with modeSelectorValue := 15#64 }) State.reset = .next t ∧ t.fault = true :=
  ⟨rfl,
    by
      have h := eq_next_of_nextOf (o := exec (.setp pkBase) State.reset) (p := fun t => !t.fault) (by decide +kernel)
      simpa using h,
    eq_next_of_nextOf (p := fun t => t.fault) (by decide +kernel)⟩

/-- The state after `SETP` of the base packet at power-on, its rows as the instance has them. -/
def sParams : State :=
  loadParams (bankOfPacket pkBase)
    (resolve Config.hw fixedNan pkBase.modeSelectorValue pkBase.delayTimeShortMs pkBase.delayTimeLongMs).1
    (resolve Config.hw fixedNan pkBase.modeSelectorValue pkBase.delayTimeShortMs pkBase.delayTimeLongMs).2 State.reset

theorem sParams_good : ParamsGood sParams := ⟨by decide +kernel, rfl⟩

theorem witness_GetpThenSetpChangesNothing : sParams.paramsValid = true ∧ ParamsGood sParams := ⟨rfl, sParams_good⟩

theorem witness_GetpReturnsTheLastPacket :
    validate pkBase = true ∧ ∃ t, exec (.setp pkBase) State.reset = .next t ∧ t.paramsValid = true :=
  ⟨by decide +kernel, eq_next_of_nextOf (p := fun t => t.paramsValid) (by decide +kernel)⟩

theorem witness_GetpCompletes : sBase.paramsValid = true ∧ State.reset.paramsValid = false := ⟨rfl, rfl⟩

/-- The least and the largest legal times. -/
theorem witness_FixedScheduleRows :
    finitePositive 0x0000000000000001#64 = true ∧ finitePositive 0x7FEFFFFFFFFFFFFF#64 = true := by decide +kernel

/-- Row 14 of the least time: four active taps, and the index beyond them. -/
theorem witness_ResolvedTapProperties :
    let r := resolve testP fr1 14#64 0x0000000000000001#64 0x0000000000000001#64
    finitePositive 0x0000000000000001#64 = true ∧ r.1 ≤ 4 ∧ 3 < r.1 ∧ 2 + 1 < r.1 := by decide +kernel

theorem witness_AuxenCompletes : (2#64 : Word) ≠ 0#64 ∧ (2#64 : Word) ≠ 1#64 := by decide

/-- A `PROC` on the static path that completes, from `sBase`. -/
theorem witness_static_runs : ∃ t, exec (.proc 0x3FF0000000000000#64) sBase = .next t ∧ t.lastPath = .static := by
  have h := eq_next_of_nextOf (o := exec (.proc 0x3FF0000000000000#64) sBase) (p := fun t => t.lastPath = .static)
    (by decide +kernel)
  simpa using h

theorem witness_AuxinCompletes : ∃ (x : F64) (s t : State), exec (.proc x) s = .next t ∧ t.lastPath = .static := by
  obtain ⟨t, h⟩ := witness_static_runs
  exact ⟨_, _, t, h⟩

theorem witness_ProcNeedsResetAndParameters :
    State.reset.configured = false ∧
    { sBase with paramsValid := false }.configured = true ∧ { sBase with paramsValid := false }.paramsValid = false :=
  ⟨rfl, rfl, rfl⟩

/-- `sBase`, and `sBase` in mode 14 with the LFO on. -/
theorem witness_ProcStaticCompletes :
    ∀ s ∈ [sBase, { sBase with param := { sBase.param with enableMod := true } }],
      s.configured = true ∧ s.paramsValid = true ∧
      ¬(s.param.enableMod = true ∧ (s.param.modeSelectorValue = 1#64 ∨ s.param.modeSelectorValue = 2#64)) ∧
      (s.param.enableMod = true →
        Fp.lt (Fp.div (Config.freeNan s.nanDraw .lfoInc) s.param.modRateHz s.fs) 0x3FF0000000000000#64 = true) ∧
      (∀ i < 4, i < s.tapCount →
        delayInRange s.ringLen (Fp.mul (Config.freeNan s.nanDraw (.msToSamples i)) (s.tapMs.get i) s.spms) = true) := by
  decide +kernel

/-- A finite delay of any number of ms is in range when `SPMS` is zero. -/
theorem delayInRange_of_zero (q : BitVec 53) {d : F64} (hd : Fp.isFinite d = true) :
    delayInRange 16 (Fp.mul q d sMod.spms) = true := by
  have hz : ∃ sg : Bool, Fp.mul q d sMod.spms = Fp.pack sg 0 := by
    rw [Fp.mul_of_isFinite q hd (by decide)]
    refine ⟨Fp.sign d != Fp.sign sMod.spms, ?_⟩
    have h0 : Fp.units sMod.spms = 0 := by decide +kernel
    rw [h0, Nat.mul_zero, Fp.round_zero Fp.one1074_pos]
  obtain ⟨sg, hz⟩ := hz
  rw [hz]
  cases sg <;> decide +kernel

/-- No delay is in range when `SPMS` is `+inf`. -/
theorem delayInRange_inf (q : BitVec 53) (d : F64) : delayInRange 16 (Fp.mul q d 0x7FF0000000000000#64) = false := by
  unfold Fp.mul
  have hn : Fp.isNaN 0x7FF0000000000000#64 = false := by decide
  have hi : Fp.isInf 0x7FF0000000000000#64 = true := by decide
  have hnan : ∀ r : BitVec 53, delayInRange 16 (Fp.nanOf r) = false := fun r => by
    simp [delayInRange, Fp.le, Fp.isNaN_nanOf]
  rw [hn, hi]
  cases Fp.isNaN d
  · simp only [Bool.or_true, Bool.or_self, if_true, Bool.false_eq_true, if_false]
    split
    · exact hnan q
    · cases Fp.sign d <;> decide +kernel
  · exact hnan q

/-- A finite value plus a zero is finite. -/
theorem isFinite_add_zero (q : BitVec 53) {a b : F64} (ha : Fp.isFinite a = true) (hb : Fp.mag b = 0) :
    Fp.isFinite (Fp.add q a b) = true := by
  by_cases hz : Fp.mag a = 0
  · have hbf : Fp.isFinite b = true := by rw [Fp.isFinite_iff, hb]; norm_num
    have hva : Fp.value a = 0 := by unfold Fp.value; rw [(Fp.units_eq_zero_iff a).mpr hz]; simp
    have hvb : Fp.value b = 0 := by unfold Fp.value; rw [(Fp.units_eq_zero_iff b).mpr hb]; simp
    rw [Fp.add_of_isFinite q ha hbf, hva, hvb, add_zero, if_pos rfl]
    split <;> decide
  · rw [Fp.add_of_isZero_right q ha hb hz]; exact ha

/-- The Flanger at depth zero: every delay is finite, whatever the instance's tables and waveform. -/
theorem isFinite_flanger_delay (fr : FpSite → BitVec 53) (m : ModMode) {depth : F64} (ph : F64) (hd : Fp.mag depth = 0) :
    Fp.isFinite (delayUni fr (modMin Config.hw m .flanger) (modRng Config.hw m .flanger) depth
      (unipolar fr (lfoWave Config.hw ph))) = true := by
  apply isFinite_add_zero
  · exact (modMin_good _ _ _).1
  · rw [Fp.mul_of_isZero _ _ (modRng_good _ _ _).1, Fp.mag_pack (by norm_num)]
    rw [Fp.mul_of_isZero _ hd (isFinite_unipolar _ _ _), Fp.mag_pack (by norm_num)]

/-- Depth zero, doubled, is zero. -/
theorem depth_zero :
    Fp.mul (Config.freeNan ⟨0, 0⟩ .depthDouble) (Fp.div (Config.freeNan ⟨0, 0⟩ .depthScale) 0x0000000000000000#64
      0x4069000000000000#64) 0x4000000000000000#64 = 0 := by decide +kernel

/-- The Flanger in mode 1 at depth zero, with the LFO at 1.0 Hz of 1000, on `sMod`. -/
theorem witness_ProcModulatedCompletes :
    sMod.configured = true ∧ sMod.paramsValid = true ∧ sMod.param.enableMod = true ∧
    sMod.param.modeSelectorValue = 1#64 ∧ sMod.param.enableSidechain = false ∧ sMod.param.modType = .flanger ∧
    (let fr := Config.freeNan sMod.nanDraw
     let inc := Fp.div (fr .lfoInc) sMod.param.modRateHz sMod.fs
     let b := lfoWave Config.hw sMod.lfoPhase
     let u := Fp.add (fr .lfoUni) (Fp.mul (fr .lfoHalf) 0x3FE0000000000000#64 b) 0x3FE0000000000000#64
     let d := Fp.div (fr .depthScale) sMod.param.modDepthPct 0x4069000000000000#64
     let depth := Fp.mul (fr .depthDouble) d 0x4000000000000000#64
     let mMin := modMin Config.hw .mode1 sMod.param.modType
     let mRng := modRng Config.hw .mode1 sMod.param.modType
     let delayMs := Fp.add (fr .modDelay) mMin (Fp.mul (fr .modSpan) (Fp.mul (fr .modScale) depth u) mRng)
     Fp.lt inc 0x3FF0000000000000#64 = true ∧
       delayInRange sMod.ringLen (Fp.mul (fr (.msToSamples 4)) delayMs sMod.spms) = true) := by
  refine ⟨rfl, rfl, rfl, rfl, rfl, rfl, by decide +kernel, ?_⟩
  apply delayInRange_of_zero
  apply isFinite_flanger_delay (Config.freeNan sMod.nanDraw) .mode1 sMod.lfoPhase
  exact (congrArg Fp.mag depth_zero).trans (by decide)

/-- A `PROC` on the modulated path that completes, from `sMod`. -/
theorem witness_modulated_runs : ∃ t, exec (.proc 0x3FF0000000000000#64) sMod = .next t ∧ t.lastPath = .modulated := by
  obtain ⟨-, -, -, -, -, -, hinc, hd⟩ := witness_ProcModulatedCompletes
  have hl := (procLfo_cases Config.hw (Config.freeNan sMod.nanDraw) sMod).resolve_left (by simp [sMod])
  obtain ⟨-, hbad, -⟩ | ⟨-, -, hl⟩ := hl
  · exact absurd (hbad.symm.trans hinc) (by decide)
  let fr := Config.freeNan sMod.nanDraw
  let o : LfoOut := ⟨lfoWave Config.hw sMod.lfoPhase, unipolar fr (lfoWave Config.hw sMod.lfoPhase),
    advancePhase fr sMod.lfoPhase (lfoInc fr sMod.param.modRateHz sMod.fs)⟩
  let s1 := stepUnits (procEnv Config.hw fr sMod) (procPhase sMod (some o)) sMod
  obtain ⟨yd, hyd⟩ : ∃ yd, ringRead fr 4 s1.ringLen s1.mRing (msToSamples fr 4 s1.spms
      (modDelayMs Config.hw fr .mode1 s1.param.modType (modDepth fr s1.param none) o)) = .ok yd := ⟨_, if_pos hd⟩
  have hm : modPath Config.hw fr .mode1 0x3FF0000000000000#64 o none s1 = .ok (_, _) :=
    modTap_eq_ok_iff.mpr ⟨yd, hyd, rfl, rfl⟩
  have hr := runPath_eq_ok_iff.mpr (.inl ⟨.mode1, o, _, show selectPath s1 (some o) = _ from rfl, hm, rfl⟩)
  have hp := proc_eq_ok_iff.mpr ⟨rfl, rfl, _, _, _, hl, hr, rfl, rfl⟩
  exact ⟨_, (congrArg (finish sMod) hp).trans (finish_ok _ _ _), rfl⟩

/-- The same in mode 2. -/
theorem witness_ProcModulatedCompletes_mode2 :
    (let fr := Config.freeNan sMod.nanDraw
     let b := lfoWave Config.hw sMod.lfoPhase
     let u := Fp.add (fr .lfoUni) (Fp.mul (fr .lfoHalf) 0x3FE0000000000000#64 b) 0x3FE0000000000000#64
     let d := Fp.div (fr .depthScale) sMod.param.modDepthPct 0x4069000000000000#64
     let depth := Fp.mul (fr .depthDouble) d 0x4000000000000000#64
     let mMin := modMin Config.hw .mode2 sMod.param.modType
     let mRng := modRng Config.hw .mode2 sMod.param.modType
     let delayMs := Fp.add (fr .modDelay) mMin (Fp.mul (fr .modSpan) (Fp.mul (fr .modScale) depth u) mRng)
     delayInRange sMod.ringLen (Fp.mul (fr (.msToSamples 4)) delayMs sMod.spms) = true) := by
  apply delayInRange_of_zero
  apply isFinite_flanger_delay (Config.freeNan sMod.nanDraw) .mode2 sMod.lfoPhase
  exact (congrArg Fp.mag depth_zero).trans (by decide)

/-- The rate equal to `FS`: an increment of exactly 1.0. -/
theorem witness_ProcLfoRateFaults :
    let s := { sMod with param := { sMod.param with modRateHz := 0x408F400000000000#64 } }
    s.configured = true ∧ s.paramsValid = true ∧ s.param.enableMod = true ∧
      Fp.lt (Fp.div (Config.freeNan s.nanDraw .lfoInc) s.param.modRateHz s.fs) 0x3FF0000000000000#64 = false := by
  decide +kernel

/-- Tap 3 at 16 samples of a ring of 16 cells, taps 0 to 2 within it. -/
theorem witness_ProcTapOutsideTheRingFaults :
    let s :=
      { sBase with
        tapCount := 4
        tapMs := ⟨0x3FF0000000000000#64, 0x3FF0000000000000#64, 0x402E000000000000#64, 0x4030000000000000#64⟩ }
    s.configured = true ∧ s.paramsValid = true ∧ s.param.enableMod = false ∧ 3 < s.tapCount ∧
      delayInRange s.ringLen (Fp.mul (Config.freeNan s.nanDraw (.msToSamples 2)) (s.tapMs.get 2) s.spms) = true ∧
      delayInRange s.ringLen (Fp.mul (Config.freeNan s.nanDraw (.msToSamples 3)) (s.tapMs.get 3) s.spms) = false := by
  decide +kernel

/-- The modulated path of `sMod` with a rate factor of `+inf`: the delay in samples is `+inf` or a NaN. -/
theorem witness_ProcTapOutsideTheRingFaults_modulated :
    let s := { sMod with spms := 0x7FF0000000000000#64 }
    let fr := Config.freeNan s.nanDraw
    let inc := Fp.div (fr .lfoInc) s.param.modRateHz s.fs
    let o : LfoOut :=
      ⟨lfoWave Config.hw s.lfoPhase, unipolar fr (lfoWave Config.hw s.lfoPhase), advancePhase fr s.lfoPhase inc⟩
    s.configured = true ∧ s.paramsValid = true ∧ s.param.enableMod = true ∧ s.param.modeSelectorValue = 1#64 ∧
      Fp.lt inc 0x3FF0000000000000#64 = true ∧
      delayInRange s.ringLen (Fp.mul (fr (.msToSamples 4))
        (modDelayMs Config.hw fr .mode1 s.param.modType (modDepth fr s.param (procScDepth Config.hw fr s)) o) s.spms) =
          false := by
  refine ⟨rfl, rfl, rfl, rfl, by decide +kernel, ?_⟩
  exact delayInRange_inf _ _

theorem witness_ProcStaticFrame :
    (∃ t, exec (.proc 0x3FF0000000000000#64) sBase = .next t ∧ t.lastPath = .static) ∧
    sBase.param.enableMod = false ∧ sBase.param.enableSidechain = false :=
  ⟨witness_static_runs, rfl, rfl⟩

theorem witness_ProcModulatedFrame :
    (∃ t, exec (.proc 0x3FF0000000000000#64) sMod = .next t ∧ t.lastPath = .modulated) ∧
    sMod.param.enableMod = true ∧ sMod.param.modeSelectorValue = 1#64 ∧ sMod.param.enableSidechain = false :=
  ⟨witness_modulated_runs, rfl, rfl, rfl⟩

theorem witness_OnlyResetResizes :
    (Instr.proc 0x3FF0000000000000#64).opcode ≠ .reset ∧
    ∃ t, exec (.proc 0x3FF0000000000000#64) sBase = .next t ∧ t.lastPath = .static :=
  ⟨by decide, witness_static_runs⟩

theorem witness_OneWriterForParametersAndAux :
    (Instr.proc 0x3FF0000000000000#64).opcode ≠ .setp ∧ (Instr.proc 0x3FF0000000000000#64).opcode ≠ .auxen ∧
    (Instr.proc 0x3FF0000000000000#64).opcode ≠ .auxin ∧
    ∃ t, exec (.proc 0x3FF0000000000000#64) sBase = .next t ∧ t.lastPath = .static :=
  ⟨by decide, by decide, by decide, witness_static_runs⟩

theorem witness_OnlyProcAndResetTouchTheRings :
    (Instr.setp pkBase).opcode ≠ .proc ∧ (Instr.setp pkBase).opcode ≠ .reset ∧
    ∃ t, exec (.setp pkBase) State.reset = .next t ∧ t.paramsValid = true :=
  ⟨by decide, by decide, eq_next_of_nextOf (p := fun t => t.paramsValid) (by decide +kernel)⟩

theorem witness_RepeatedCommandsAreIdempotent :
    (Instr.setp pkBase).opcode = .setp ∧
    (∃ t, exec (.setp pkBase) State.reset = .next t ∧ t.paramsValid = true) ∧
    (Instr.auxen 1#64).opcode = .auxen ∧ exec (.auxen 1#64) State.reset = .next { State.reset with auxEn := true } ∧
    Instr.getp.opcode = .getp ∧ sBase.paramsValid = true :=
  ⟨rfl, eq_next_of_nextOf (p := fun t => t.paramsValid) (by decide +kernel), rfl, rfl, rfl, rfl⟩

theorem witness_PseudoCommandsExpand : sBase.configured = true := rfl

/-- `V = 0.8` (95_test_vectors L1.4). -/
theorem witness_AverageDividesByFour :
    Fp.isFinite 0x3FE999999999999A#64 = true ∧ Fp.mag 0x3FE999999999999A#64 ≠ 0 := by decide

/-- Feedback `-0.0`, which `SETP` accepts. -/
theorem witness_ZeroFeedbackWritesTheDryInput :
    Fp.mag { bankOfPacket pkBase with feedbackPct := 0x8000000000000000#64 }.feedbackPct = 0 ∧
    Fp.isFinite (feedbackSum fr1 ⟨0x4010000000000000#64, 0x4008000000000000#64, 0x4000000000000000#64,
      0x3FF0000000000000#64⟩) = true ∧
    Fp.isNaN 0x3FD3333333333333#64 = false ∧ Fp.mag 0x3FD3333333333333#64 ≠ 0 := by decide +kernel

theorem witness_BlendZeroIsDry :
    { bankOfPacket pkBase with blend := 0x0000000000000000#64 }.blend = 0x0000000000000000#64 ∧
    Fp.isFinite (tapAverage fr1 ⟨0x4010000000000000#64, 0x4008000000000000#64, 0, 0⟩) = true ∧
    Fp.isNaN 0x3FD3333333333333#64 = false ∧ Fp.mag 0x3FD3333333333333#64 ≠ 0 := by decide +kernel

theorem witness_BlendOneIsTheAverage :
    { bankOfPacket pkBase with blend := 0x3FF0000000000000#64 }.blend = 0x3FF0000000000000#64 ∧
    Fp.isNaN (tapAverage fr1 ⟨0x4010000000000000#64, 0x4008000000000000#64, 0, 0⟩) = false ∧
    Fp.mag (tapAverage fr1 ⟨0x4010000000000000#64, 0x4008000000000000#64, 0, 0⟩) ≠ 0 ∧
    Fp.isFinite 0x3FD3333333333333#64 = true := by decide +kernel

/-- The newest and the oldest cell, one written and one not. -/
theorem witness_RingRemembersItsWrites :
    1 ≤ 1 ∧ 1 ≤ 8 ∧ 1 ≤ 3 ∧ 8 ≤ 8 ∧ ¬ 8 ≤ 3 ∧ Memory.wf 8 ring8 = true ∧ ringCreate 8 = ringFlush ring8 := by decide

/-- The delays 1 and `C - 1 = 3` of a ring of 4 cells. -/
theorem witness_WholeDelayReadsAPastWrite :
    ([1, 3] : List Nat).all (fun n => 4 ≤ 2 ^ 53 ∧ 1 ≤ n ∧ n + 1 ≤ 4 ∧ Fp.isNaN (ringCell 4 ring8 n) = false ∧
      Fp.mag (ringCell 4 ring8 n) ≠ 0 ∧ Fp.isFinite (ringCell 4 ring8 (n + 1)) = true) = true := by decide +kernel

/-- Within: `-0.0` and `C - 1`; outside: 7.5, -1.0 and a NaN. -/
theorem witness_ReadRangeAndIndex :
    ([0x8000000000000000#64, 0x401C000000000000#64] : List F64).all (fun d =>
      Fp.le Fp.posZero d = true ∧ Fp.le d (Fp.ofNat (8 - 1)) = true) = true ∧
    ([0x401E000000000000#64, 0xBFF0000000000000#64, 0x7FF8000000000000#64] : List F64).all (fun d =>
      Fp.le Fp.posZero d = false ∨ Fp.le d (Fp.ofNat (8 - 1)) = false) = true := by decide +kernel

/-- `-0.0` and 2.5. -/
theorem witness_FractionOfADelayIsExact :
    ([0x8000000000000000#64, 0x4004000000000000#64] : List F64).all (fun d =>
      Fp.isFinite d = true ∧ Fp.le Fp.posZero d = true ∧ Fp.floor d ≤ 2 ^ 53) = true := by decide +kernel

theorem witness_DepthZeroGivesMinimumOrCentre :
    Fp.mag 0x8000000000000000#64 = 0 ∧ ModType.vibrato ≠ .flanger ∧ ModType.chorus ≠ .flanger := by decide

/-- A range from 1.0 to 5.0 ms with the depth, `u` and `b` at both ends. -/
theorem witness_ModulatedDelayStaysInRange :
    Fp.isFinite 0x3FF0000000000000#64 = true ∧ Fp.le Fp.posZero 0x3FF0000000000000#64 = true ∧
    Fp.isFinite 0x4010000000000000#64 = true ∧ Fp.le Fp.posZero 0x4010000000000000#64 = true ∧
    ([0x8000000000000000#64, 0x0000000000000000#64, 0x3FF0000000000000#64] : List F64).all (fun v =>
      Fp.le Fp.posZero v = true ∧ Fp.le v 0x3FF0000000000000#64 = true) = true ∧
    ([0xBFF0000000000000#64, 0x3FF0000000000000#64] : List F64).all (fun b =>
      Fp.le 0xBFF0000000000000#64 b = true ∧ Fp.le b 0x3FF0000000000000#64 = true) = true := by decide +kernel

/-- `sBase` with the sidechain on: the `PROC` completes whatever the instance's detector parameters are. -/
theorem witness_SidechainDepthIgnoresModDepth :
    let s := { sBase with param := { sBase.param with enableSidechain := true } }
    s.param.enableSidechain = true ∧ ∃ t, exec (.proc 0x3FF0000000000000#64) s = .next t ∧ t.lastPath = .static := by
  refine ⟨rfl, ?_⟩
  have h := eq_next_of_nextOf
    (o := exec (.proc 0x3FF0000000000000#64) { sBase with param := { sBase.param with enableSidechain := true } })
    (p := fun t => t.lastPath = .static) (by decide +kernel)
  simpa using h

theorem witness_NanInputClearsTheEnvelope : Fp.isNaN 0x7FF8000000000000#64 = true := by decide

theorem witness_SilenceKeepsTheEnvelopeAtZero : Fp.isFinite Fp.c0p5 = true := by decide

/-- The state after `SETP` at power-on, `GETP` next in the stream: unconfigured, with parameters in contract. -/
theorem witness_StepKeepsTheInvariant :
    ∃ s t : State, Inv s ∧ s.paramsValid = true ∧ step s = .next t ∧ t.hostOut ≠ [] := by
  refine ⟨setHostIn [0x03] sParams, _, ⟨⟨by decide, by decide, by decide, by decide⟩, ?_,
    fun _ => ⟨sParams_good.inContract, sParams_good.resolved⟩,
    fun h => absurd h (by decide), by decide, ⟨fun _ => rfl, fun h => absurd h (by decide)⟩⟩, rfl, rfl, by decide +kernel⟩
  refine ⟨by decide +kernel, by decide +kernel, fun i hi => ?_⟩
  have h4 : (setHostIn [0x03] sParams).tapCount = 4 := by decide +kernel
  rw [h4] at hi
  match i, hi with
  | _ + 4, _ => rfl

theorem witness_StepKeepsThePhase :
    ∃ s t : State, Inv s ∧ PhaseGood s ∧ step s = .next t ∧ t.auxEn = true := by
  refine ⟨State.reset.withFetchWord 72 (1 * 2 ^ 8 + 0x05), { State.reset with auxEn := true },
    ⟨⟨by decide, by decide, by decide, by decide⟩, ⟨by decide, by decide, fun i _ => ?_⟩,
      fun h => absurd h (by decide), fun h => absurd h (by decide), by decide,
      ⟨fun _ => rfl, fun h => absurd h (by decide)⟩⟩, ⟨by decide, by decide⟩, rfl, rfl⟩
  match i with
  | 0 => rfl
  | 1 => rfl
  | 2 => rfl
  | 3 => rfl
  | _ + 4 => rfl

theorem witness_ChannelsAreIndependent :
    ∃ (k : Nat) (sys sys' : System), stepChannel k sys = .next sys' ∧ sys.channels.length = 2 ∧ k = 1 ∧ sys' ≠ sys :=
  ⟨1, ⟨[State.reset, State.reset.withFetchWord 8 0x07]⟩, ⟨[State.reset, { State.reset with hostOut := [0#64] }]⟩,
    rfl, rfl, rfl, by decide⟩

/-- Two channels at power-on never draw the same free NaN bits. -/
theorem test_channels_draw_apart :
    (instanceReset 0).nanDraw.source ≠ (instanceReset 1).nanDraw.source ∧
    (nextDraw (instanceReset 1)).nanDraw = ⟨1, 1⟩ := by decide

/-- A tie between two subnormals, and the overflow threshold. -/
theorem witness_RoundingIsNearest :
    (0 < 2 ∧ Fp.roundUnits 3 2 < 2047 * 2 ^ 52 ∧ 2 < 2047 * 2 ^ 52 ∧ Fp.roundUnits 3 2 = 2 ∧
      |(3 : Int) - 2 * Fp.unitsOfMag 2| = |(3 : Int) - 2 * Fp.unitsOfMag 1|) ∧
    (Fp.roundUnits (2 ^ 53 * 2 ^ 2046) 1 = 2047 * 2 ^ 52) := by decide +kernel

end Sys2Proof.Tests
end

section
/-!
PROOFS. Scope (00_scope R9): rounding is to nearest with ties to even, and the free bits of a NaN result reach every NaN.
-/

namespace Sys2Proof.Machine.Fp

/-! Rounding to nearest: which of two representable values is nearer is decided by their midpoint. -/

theorem abs_sub_left_le_iff {x a b : Int} (hab : a < b) : |x - a| ≤ |x - b| ↔ 2 * x ≤ a + b := by
  rw [← sq_le_sq]
  constructor <;> intro h <;> nlinarith

theorem abs_sub_right_le_iff {x a b : Int} (hab : a < b) : |x - b| ≤ |x - a| ↔ a + b ≤ 2 * x := by
  rw [← sq_le_sq]
  constructor <;> intro h <;> nlinarith

/-- How far the value at magnitude `m` lies from `n / d` units, in units of `1 / d`. -/
def distance (n d m : Nat) : Int := |(n : Int) - d * unitsOfMag m|

theorem scaled_unitsOfMag_lt {d a b : Nat} (hd : 0 < d) (hab : a < b) :
    (d * unitsOfMag a : Int) < d * unitsOfMag b := by
  exact_mod_cast Nat.mul_lt_mul_of_pos_left (unitsOfMag_strictMono hab) hd

/-- The lower of two values is at least as near exactly when `n / d` is at most their midpoint. -/
theorem distance_lower_le_iff {n d a b : Nat} (hd : 0 < d) (hab : a < b) :
    distance n d a ≤ distance n d b ↔ 2 * n ≤ d * (unitsOfMag a + unitsOfMag b) := by
  unfold distance
  rw [abs_sub_left_le_iff (scaled_unitsOfMag_lt hd hab), Nat.mul_add]
  norm_cast

/-- The upper of two values is at least as near exactly when `n / d` is at least their midpoint. -/
theorem distance_upper_le_iff {n d a b : Nat} (hd : 0 < d) (hab : a < b) :
    distance n d b ≤ distance n d a ↔ d * (unitsOfMag a + unitsOfMag b) ≤ 2 * n := by
  unfold distance
  rw [abs_sub_right_le_iff (scaled_unitsOfMag_lt hd hab), Nat.mul_add]
  norm_cast

/-- No value below the rounded one is nearer, and only an even rounded one has an equally near value below it. -/
theorem roundRaw_nearest_below {n d m : Nat} (hd : 0 < d) (hm : m < roundRaw n d) :
    distance n d (roundRaw n d) ≤ distance n d m ∧
    (distance n d (roundRaw n d) = distance n d m → roundRaw n d % 2 = 0) := by
  obtain ⟨k, hk⟩ := Nat.exists_eq_add_one_of_ne_zero (Nat.ne_zero_of_lt hm)
  obtain ⟨hlow, hodd⟩ := roundRaw_lower hd hk
  rw [hk] at hm ⊢
  have hmid : d * (unitsOfMag m + unitsOfMag (k + 1)) ≤ d * (unitsOfMag k + unitsOfMag (k + 1)) :=
    Nat.mul_le_mul_left d (Nat.add_le_add_right (unitsOfMag_strictMono.monotone (Nat.le_of_lt_succ hm)) _)
  refine ⟨(distance_upper_le_iff hd hm).mpr (hmid.trans hlow), fun htie => ?_⟩
  have hge := (distance_lower_le_iff hd hm).mp htie.ge
  have := hodd (hlow.antisymm (hge.trans hmid))
  omega

/-- No value above the rounded one is nearer, and only an even rounded one has an equally near value above it. -/
theorem roundRaw_nearest_above {n d m : Nat} (hd : 0 < d) (hm : roundRaw n d < m) :
    distance n d (roundRaw n d) ≤ distance n d m ∧
    (distance n d (roundRaw n d) = distance n d m → roundRaw n d % 2 = 0) := by
  obtain ⟨hup, heven⟩ := roundRaw_upper (n := n) hd
  have hmid : d * (unitsOfMag (roundRaw n d) + unitsOfMag (roundRaw n d + 1)) ≤
      d * (unitsOfMag (roundRaw n d) + unitsOfMag m) :=
    Nat.mul_le_mul_left d (Nat.add_le_add_left (unitsOfMag_strictMono.monotone hm) _)
  refine ⟨(distance_lower_le_iff hd hm).mpr (hup.trans hmid), fun htie => ?_⟩
  have hle := (distance_upper_le_iff hd hm).mp htie.ge
  exact heven (hup.antisymm (hmid.trans hle))

theorem roundRaw_nearest {n d : Nat} (hd : 0 < d) (m : Nat) :
    distance n d (roundRaw n d) ≤ distance n d m ∧
    (distance n d (roundRaw n d) = distance n d m → m ≠ roundRaw n d → roundRaw n d % 2 = 0) := by
  rcases Nat.lt_trichotomy m (roundRaw n d) with hlt | rfl | hgt
  · exact (roundRaw_nearest_below hd hlt).imp_right fun h htie _ => h htie
  · exact ⟨le_rfl, fun _ hne => absurd rfl hne⟩
  · exact (roundRaw_nearest_above hd hgt).imp_right fun h htie _ => h htie

theorem roundUnits_eq_roundRaw {n d : Nat} (h : roundUnits n d < 2047 * 2 ^ 52) : roundUnits n d = roundRaw n d := by
  rw [roundUnits_eq] at h ⊢
  omega

/-- Rounding overflows from the midpoint above the odd magnitude `m` on, where infinity has magnitude `m + 1`. -/
theorem lt_roundRaw_iff_of_odd {n d m : Nat} (hd : 0 < d) (hm : m % 2 = 1) :
    m < roundRaw n d ↔ d * (unitsOfMag m + unitsOfMag (m + 1)) ≤ 2 * n := by
  rw [← Nat.not_le, roundRaw_le_iff hd]
  omega

theorem roundUnits_eq_inf_iff {n d : Nat} (hd : 0 < d) :
    roundUnits n d = 2047 * 2 ^ 52 ↔
      d * (unitsOfMag (2047 * 2 ^ 52 - 1) + unitsOfMag (2047 * 2 ^ 52)) ≤ 2 * n := by
  have hodd := lt_roundRaw_iff_of_odd (n := n) (m := 2047 * 2 ^ 52 - 1) hd (by norm_num)
  rw [Nat.sub_add_cancel (by norm_num)] at hodd
  rw [← hodd, roundUnits_eq]
  omega

/-! The free bits of a NaN. -/

/-- The free bits that give the NaN `a`: its sign above its payload. -/
def nanBits (a : F64) : BitVec 53 := BitVec.ofNat 53 ((if sign a then 2 ^ 52 else 0) + (mag a - 2047 * 2 ^ 52))

theorem toNat_nanBits {a : F64} (h : isNaN a = true) :
    (nanBits a).toNat = (if sign a then 2 ^ 52 else 0) + (mag a - 2047 * 2 ^ 52) := by
  have := mag_lt a
  rw [isNaN_iff] at h
  rw [nanBits, BitVec.toNat_ofNat, Nat.mod_eq_of_lt]
  split <;> omega

theorem nanOf_nanBits {a : F64} (h : isNaN a = true) : nanOf (nanBits a) = a := by
  have hq := toNat_nanBits h
  have hlt := mag_lt a
  rw [isNaN_iff] at h
  have hsign : decide (2 ^ 52 ≤ (nanBits a).toNat) = sign a := by
    rw [hq]
    cases sign a
    · simp only [Bool.false_eq_true, if_false, decide_eq_false_iff_not]; omega
    · simp
  have hpayload : (nanBits a).toNat % 2 ^ 52 = mag a - 2047 * 2 ^ 52 := by
    rw [hq]
    split <;> omega
  rw [nanOf, hsign, hpayload, if_neg (by omega), Nat.add_sub_cancel' h.le, pack_sign_mag]

end Sys2Proof.Machine.Fp

namespace Sys2Proof.Proofs

open Machine

/-- Settles O59: the model's rounding is characterised by midpoints, and the midpoint of two values says which is nearer. -/
theorem roundingIsNearest : Obligations.RoundingIsNearest := by
  intro n d hd
  refine ⟨fun hfin m _ => ?_, Fp.roundUnits_eq_inf_iff hd⟩
  rw [Fp.roundUnits_eq_roundRaw hfin]
  exact Fp.roundRaw_nearest hd m

/-- Settles O60: the bits of a NaN are its own sign and payload, and every choice of bits gives a NaN. -/
theorem freeNanReachesEveryNan : Obligations.FreeNanReachesEveryNan := by
  intro a
  constructor
  · exact fun h => ⟨Fp.nanBits a, Fp.nanOf_nanBits h⟩
  · rintro ⟨q, rfl⟩
    exact Fp.isNaN_nanOf q

end Sys2Proof.Proofs
end

section
/-!
PROOFS. The machine's state (10_state R20 to R37): what a completed command leaves behind, said once for every command, and
from it that every step keeps the invariant and the LFO's phase in its range.
-/

namespace Sys2Proof.Machine.Fp

/-! Values that are not negative. -/

theorem le_posZero_of_sign_false {a : F64} (hn : isNaN a = false) (hs : sign a = false) : le posZero a = true := by
  rw [le_iff]
  refine ⟨by decide, hn, ?_⟩
  have h0 : ordKey posZero = 0 := by decide
  rw [h0, ordKey, hs]
  simp

theorem ordKey_eq_mag_of_nonneg {a : F64} (h : le posZero a = true) : ordKey a = mag a := by
  rw [le_iff] at h
  have h0 : ordKey posZero = 0 := by decide
  have := ordKey_natAbs a
  omega

theorem value_eq_units_of_nonneg {a : F64} (h : le posZero a = true) : value a = units a := by
  have hk := (value_le_iff_ordKey_le posZero a).mpr ((le_iff _ _).mp h).2.2
  have h0 : value posZero = 0 := by decide
  have := value_natAbs a
  omega

theorem sign_of_pos {a : F64} (h : lt posZero a = true) : sign a = false := by
  obtain ⟨-, -, hk⟩ := (lt_iff _ _).mp h
  have h0 : ordKey posZero = 0 := by decide
  by_contra hs
  simp only [ordKey, Bool.not_eq_false] at hs hk h0
  rw [if_pos hs] at hk
  omega

theorem le_posZero_of_pos {a : F64} (h : lt posZero a = true) : le posZero a = true :=
  le_posZero_of_sign_false ((lt_iff _ _).mp h).2.1 (sign_of_pos h)

/-- Values that compare equal are the same bit pattern where they are not zero. -/
theorem eq_of_feq_of_pos {a b : F64} (h : feq a b = true) (ha : lt posZero a = true) (hb : lt posZero b = true) :
    a = b := by
  simp only [feq, Bool.and_eq_true, decide_eq_true_eq] at h
  have hk := h.2
  rw [ordKey_eq_mag_of_nonneg (le_posZero_of_pos ha), ordKey_eq_mag_of_nonneg (le_posZero_of_pos hb)] at hk
  exact ext_sign_mag ((sign_of_pos ha).trans (sign_of_pos hb).symm) (by exact_mod_cast hk)

/-- Among values that are not negative the order is that of the magnitudes. -/
theorem lt_iff_mag_lt {a b : F64} (ha : le posZero a = true) (hb : le posZero b = true) :
    lt a b = true ↔ mag a < mag b := by
  rw [lt_iff, ordKey_eq_mag_of_nonneg ha, ordKey_eq_mag_of_nonneg hb]
  simp [((le_iff _ _).mp ha).2.1, ((le_iff _ _).mp hb).2.1]

/-- `fmax` with `+0.0` is never negative and never a NaN. -/
theorem le_posZero_fmax_posZero (q : BitVec 53) (a : F64) : le posZero (fmax q a posZero) = true := by
  have h0 : isNaN posZero = false := by decide
  have hz : le posZero posZero = true := by decide
  unfold fmax
  rw [h0]
  split
  · exact hz
  · next hn =>
    have hle : ¬ ordKey a < ordKey posZero → le posZero a = true := fun h =>
      (le_iff _ _).mpr ⟨h0, by simpa using hn, not_lt.mp h⟩
    simp only [Bool.false_eq_true, if_false]
    split
    · exact hz
    · next hge =>
      split
      · exact hle hge
      · split
        · exact hz
        · exact hle hge

/-- A sum that is not negative: no NaN, at least zero, and rounded from the exact sum. -/
theorem add_of_value_nonneg (q : BitVec 53) {a b : F64} {n : Nat} (ha : isFinite a = true) (hb : isFinite b = true)
    (h : value a + value b = n) : le posZero (add q a b) = true ∧ mag (add q a b) = roundUnits n 1 := by
  rw [add_of_isFinite q ha hb, h]
  split
  · next hn =>
    rw [Int.natCast_eq_zero] at hn
    rw [hn, roundUnits_zero one_pos]
    split <;> decide
  · rw [decide_eq_false (by omega), Int.natAbs_natCast]
    exact ⟨le_posZero_of_sign_false (isNaN_round _ _ _) (sign_round _ _ _), mag_round _ _ _⟩

theorem isFinite_neg {a : F64} (ha : isFinite a = true) : isFinite (neg a) = true := by
  rw [isFinite_iff, neg, mag_pack (mag_lt a)]
  rwa [isFinite_iff] at ha

theorem value_neg (a : F64) : value (neg a) = -value a := by
  have hs : sign (neg a) = !sign a := sign_pack (mag_lt a)
  have hu : units (neg a) = units a := by rw [units, neg, mag_pack (mag_lt a), units]
  unfold value
  rw [hs, hu]
  cases sign a <;> simp

/-- A quotient of a value that is not negative by a positive one is not negative. -/
theorem le_posZero_div (q : BitVec 53) {a b : F64} (ha : isFinite a = true) (hb : isFinite b = true)
    (hpa : lt posZero a = true) (hpb : lt posZero b = true) : le posZero (div q a b) = true := by
  have hz : isZero b = false := by
    have hm := (lt_iff_mag_lt (by decide) (le_posZero_of_pos hpb)).mp hpb
    simp only [isZero, decide_eq_false_iff_not]
    omega
  rw [div_of_isFinite q ha hb hz, sign_of_pos hpa, sign_of_pos hpb]
  exact le_posZero_of_sign_false (isNaN_round _ _ _) (sign_round _ _ _)

/-! The unit interval: the values in `[0.0, 1.0)`. -/

/-- A value in `[0.0, 1.0)`. -/
def InUnit (a : F64) : Prop := le posZero a = true ∧ lt a c1 = true

theorem inUnit_iff (a : F64) : InUnit a ↔ le posZero a = true ∧ mag a < mag c1 :=
  and_congr_right fun h => lt_iff_mag_lt h (by decide)

theorem InUnit.isFinite {a : F64} (h : InUnit a) : isFinite a = true :=
  (isFinite_iff a).mpr (lt_trans ((inUnit_iff a).mp h).2 (by decide))

/-- A value below `1.0` is at most the binary64 next to it. -/
theorem InUnit.units_le {a : F64} (h : InUnit a) : units a ≤ unitsOfMag (mag c1 - 1) :=
  unitsOfMag_strictMono.monotone (Nat.le_sub_one_of_lt ((inUnit_iff a).mp h).2)

/-- Twice the last value below `1.0` is the last one below `2.0`. -/
theorem two_mul_units_below_c1 : 2 * unitsOfMag (mag c1 - 1) = unitsOfMag (mag c2 - 1) := by decide +kernel

/-- The last value below `2.0`, less `1.0`, is below `1.0`. -/
theorem units_below_c2_sub_one : unitsOfMag (mag c2 - 1) ≤ unitsOfMag (mag c1 - 1) + one1074 := by decide +kernel

/-- A sum of two values in `[0.0, 1.0)` does not round up to `2.0`. -/
theorem InUnit.add {a b : F64} (q : BitVec 53) (ha : InUnit a) (hb : InUnit b) :
    le posZero (add q a b) = true ∧ mag (add q a b) ≤ mag c2 - 1 := by
  have hv : value a + value b = (units a + units b : Nat) := by
    rw [value_eq_units_of_nonneg ha.1, value_eq_units_of_nonneg hb.1, Nat.cast_add]
  obtain ⟨hle, hm⟩ := add_of_value_nonneg q ha.isFinite hb.isFinite hv
  refine ⟨hle, ?_⟩
  rw [hm]
  apply roundUnits_le_of_le one_pos (by decide)
  have := ha.units_le
  have := hb.units_le
  have := two_mul_units_below_c1
  omega

/-- A value in `[1.0, 2.0)` less `1.0` lies in `[0.0, 1.0)`. -/
theorem inUnit_sub_c1 {a : F64} (q : BitVec 53) (hlow : le c1 a = true) (hhigh : mag a ≤ mag c2 - 1) :
    InUnit (sub q a c1) := by
  have hfin : isFinite a = true := (isFinite_iff a).mpr (lt_of_le_of_lt hhigh (by decide))
  have hge : value c1 ≤ value a := (value_le_iff_ordKey_le _ _).mpr ((le_iff _ _).mp hlow).2.2
  have hc1 : value c1 = one1074 := by rw [value_eq_units_of_nonneg (by decide), units_c1]
  have hu : units a ≤ unitsOfMag (mag c2 - 1) := unitsOfMag_strictMono.monotone hhigh
  have hbound := units_below_c2_sub_one
  have hv : value a + value (neg c1) = (units a - one1074 : Nat) := by
    have := value_natAbs a
    rw [value_neg, hc1]
    omega
  obtain ⟨hle, hm⟩ := add_of_value_nonneg q hfin (isFinite_neg (a := c1) (by decide)) hv
  have hround : roundUnits (units a - one1074) 1 ≤ mag c1 - 1 := roundUnits_le_of_le one_pos (by decide) (by omega)
  have hpos : 0 < mag c1 := by decide
  refine (inUnit_iff _).mpr ⟨hle, ?_⟩
  rw [sub, hm]
  omega

end Sys2Proof.Machine.Fp

namespace Sys2Proof.Machine

/-! What the updates of single elements keep in range. -/

theorem finitePositive_iff (a : F64) :
    finitePositive a = true ↔ Fp.isFinite a = true ∧ Fp.lt Fp.posZero a = true := by
  simp [finitePositive]

/-- The envelope of a detector step is clamped at zero (44_sidechain R204). -/
theorem detStepEnv_nonneg (P : Params) (fr : FpSite → BitVec 53) (att rel env a : F64) :
    Fp.le Fp.posZero (detStepEnv P fr att rel env a) = true :=
  Fp.le_posZero_fmax_posZero _ _

theorem procEnv_nonneg (P : Params) (fr : FpSite → BitVec 53) {s : State} (h : Fp.le Fp.posZero s.detEnv = true) :
    Fp.le Fp.posZero (procEnv P fr s) = true := by
  unfold procEnv
  split
  · exact detStepEnv_nonneg _ _ _ _ _ _
  · exact h

/-- The wrap brings a phase advanced by less than one turn back into `[0.0, 1.0)` (43_modulation R170). -/
theorem inUnit_advancePhase (fr : FpSite → BitVec 53) {phase inc : F64} (hp : Fp.InUnit phase) (hi : Fp.InUnit inc) :
    Fp.InUnit (advancePhase fr phase inc) := by
  obtain ⟨hle, hm⟩ := hp.add (fr .lfoAdvance) hi
  simp only [advancePhase]
  split
  · next hwrap => exact Fp.inUnit_sub_c1 _ hwrap hm
  · next hstay =>
    refine ⟨hle, (Fp.lt_iff _ _).mpr ⟨((Fp.le_iff _ _).mp hle).2.1, by decide, ?_⟩⟩
    by_contra hge
    exact hstay ((Fp.le_iff _ _).mpr ⟨by decide, ((Fp.le_iff _ _).mp hle).2.1, not_lt.mp hge⟩)

theorem lfoInc_nonneg (fr : FpSite → BitVec 53) {rate fs : F64} (hr : finitePositive rate = true)
    (hf : finitePositive fs = true) : Fp.le Fp.posZero (lfoInc fr rate fs) = true := by
  rw [finitePositive_iff] at hr hf
  exact Fp.le_posZero_div _ hr.1 hf.1 hr.2 hf.2

/-! The parameter packet and the resolved taps. -/

theorem finitePositive_modRateHz_of_validate {pk : Packet} (h : validate pk = true) :
    finitePositive pk.modRateHz = true := by
  simp only [validate, Bool.and_eq_true] at h
  exact h.1.1.2

theorem modTypeWord_modTypeOfWord {w : Word} (h : w.toNat ≤ 2) : modTypeWord (modTypeOfWord w) = w := by
  unfold modTypeOfWord
  split
  · next h0 => exact h0.symm
  · next h0 =>
    split
    · next h1 => exact h1.symm
    · next h1 =>
      show 2#64 = w
      bv_omega

theorem flagsWord_of_reservedZero {w : Word} (h : flagsReservedZero w = true) :
    flagsWord (w.getLsbD 0) (w.getLsbD 1) = w := by
  have hw : w.toNat < 4 := by
    simp only [flagsReservedZero, beq_iff_eq] at h
    have := congrArg BitVec.toNat h
    simp only [BitVec.toNat_ushiftRight, Nat.shiftRight_eq_div_pow] at this
    simp at this
    omega
  obtain ⟨n, hn, rfl⟩ : ∃ n, n < 4 ∧ w = BitVec.ofNat 64 n := ⟨w.toNat, hw, by simp⟩
  interval_cases n <;> decide

/-- An in-contract packet is the packet of its bank: no bit is lost (41_tap_resolver R129). -/
theorem packetOfBank_bankOfPacket {pk : Packet} (h : validate pk = true) : packetOfBank (bankOfPacket pk) = pk := by
  simp only [validate, Bool.and_eq_true, decide_eq_true_eq] at h
  obtain ⟨⟨-, htype⟩, hflags⟩ := h
  simp only [packetOfBank, bankOfPacket, modTypeWord_modTypeOfWord htype, flagsWord_of_reservedZero hflags]

@[simp] theorem length_chainTaps (fr : FpSite → BitVec 53) (shortMs longMs : F64) (i : Nat) (acc : F64) (bs : List Base) :
    (chainTaps fr shortMs longMs i acc bs).length = bs.length := by
  induction bs generalizing i acc with
  | nil => rfl
  | cons b bs ih => simp [chainTaps, ih]

theorem length_rowSources_bounds (r : SchedRow) : 1 ≤ (rowSources r).length ∧ (rowSources r).length ≤ 4 := by
  cases r <;> simp [rowSources]

theorem get_tapsOfList_of_length_le {ts : List F64} {i : Nat} (h : ts.length ≤ i) :
    (tapsOfList ts).get i = Fp.posZero := by
  match i with
  | 0 | 1 | 2 | 3 => exact List.getD_eq_default _ _ h
  | _ + 4 => rfl

/-! Every command that completes. -/

/-- The state of a `PROC` whose units have stepped, before its path runs (42_process R140). -/
def procUnits (s : State) (lfo : Option LfoOut) : State :=
  stepUnits (procEnv Config.hw (Config.freeNan s.nanDraw) s) (procPhase s lfo) s

/-- The state in which each command ends when it raises no fault, with the guards that let it complete. -/
inductive Completes : Instr → State → State → Prop
  | resetNoRoom {fs s} (rate : finitePositive fs = true) (full : maxRingLen Config.hw < ringLenFn Config.hw fs) :
    Completes (.reset fs) s (returnWords [resetResult false] (unconfigure s))
  | resetDone {fs s} (rate : finitePositive fs = true) (fits : ringLenFn Config.hw fs ≤ maxRingLen Config.hw) :
    Completes (.reset fs) s (returnWords [resetResult true]
      (configure fs (Fp.div (fixedNan .spms) fs Fp.c1000) (detCoef Config.hw Fp.c1 fs) (detCoef Config.hw Fp.c500 fs)
        (resetRings fs (ringLenFn Config.hw fs) s)))
  | setp {pk s} (inContract : validate pk = true) :
    Completes (.setp pk) s (returnWords [] (loadParams (bankOfPacket pk)
      (resolve Config.hw fixedNan pk.modeSelectorValue pk.delayTimeShortMs pk.delayTimeLongMs).1
      (resolve Config.hw fixedNan pk.modeSelectorValue pk.delayTimeShortMs pk.delayTimeLongMs).2 s))
  | getp {s} (valid : s.paramsValid = true) : Completes .getp s (returnWords (packetWords (packetOfBank s.param)) s)
  | procStatic {x s lfo y r} (configured : s.configured = true) (valid : s.paramsValid = true)
      (units : procLfo Config.hw (Config.freeNan s.nanDraw) s = .ok lfo) (path : selectPath (procUnits s lfo) lfo = none)
      (ring : staticPath (Config.freeNan s.nanDraw) x (procUnits s lfo) = .ok (y, r)) :
    Completes (.proc x) s (returnWords [y] (nextDraw (endStatic r (procUnits s lfo))))
  | procModulated {x s lfo m o y r} (configured : s.configured = true) (valid : s.paramsValid = true)
      (units : procLfo Config.hw (Config.freeNan s.nanDraw) s = .ok lfo)
      (path : selectPath (procUnits s lfo) lfo = some (m, o))
      (ring : modPath Config.hw (Config.freeNan s.nanDraw) m x o (procScDepth Config.hw (Config.freeNan s.nanDraw) s)
        (procUnits s lfo) = .ok (y, r)) :
    Completes (.proc x) s (returnWords [y] (nextDraw (endModulated r (procUnits s lfo))))
  | auxen {e s} (reserved : enableReservedZero e = true) :
    Completes (.auxen e) s (returnWords [] (setAuxEn (enableBit e) s))
  | auxin {a s} : Completes (.auxin a) s (returnWords [] (setAuxSample a s))
  | gets {s} : Completes .gets s (returnWords [statusWord s] s)

/-- A `PROC` that answers a sample completes, on the one path or the other. -/
theorem completes_of_proc_eq_ok {x : F64} {s u : State} {ws : List Word}
    (h : proc Config.hw (Config.freeNan s.nanDraw) x s = .ok (ws, u)) : Completes (.proc x) s (returnWords ws u) := by
  obtain ⟨hc, hv, lfo, y, w, hl, hr, rfl, rfl⟩ := proc_eq_ok_iff.mp h
  obtain ⟨m, o, r, hsel, hp, rfl⟩ | ⟨r, hsel, hp, rfl⟩ := runPath_eq_ok_iff.mp hr
  · exact .procModulated hc hv hl hsel hp
  · exact .procStatic hc hv hl hsel hp

/-- A command ends faulted in the state it found, or it completes, where every result of its meaning completes it. -/
theorem finish_cases {i : Instr} {s t : State} {r : Except Cause (List Word × State)}
    (hr : ∀ ws u, r = .ok (ws, u) → Completes i s (returnWords ws u)) (h : finish s r = .next t) :
    (∃ c, t = setFault c s) ∨ Completes i s t := by
  obtain ⟨c, -, rfl⟩ | ⟨ws, u, hok, rfl⟩ := finish_eq_next_iff.mp h
  · exact .inl ⟨c, rfl⟩
  · exact .inr (hr ws u hok)

/-- What a command does: it raises a fault and leaves the rest, or it completes. -/
theorem exec_cases {i : Instr} {s t : State} (h : exec i s = .next t) : (∃ c, t = setFault c s) ∨ Completes i s t := by
  cases i with
  | reset fs =>
    refine finish_cases (fun ws u hok => ?_) h
    obtain ⟨-, he⟩ | ⟨hr, hfull, he⟩ | ⟨hr, hfits, he⟩ := reset_cases Config.hw fixedNan fs s
    all_goals cases he.symm.trans hok
    · exact .resetNoRoom hr hfull
    · exact .resetDone hr hfits
  | setp pk =>
    refine finish_cases (fun ws u hok => ?_) h
    obtain ⟨hv, he⟩ | ⟨-, he⟩ := setp_cases Config.hw fixedNan pk s
    all_goals cases he.symm.trans hok
    exact .setp hv
  | getp =>
    refine finish_cases (fun ws u hok => ?_) h
    obtain ⟨hv, he⟩ | ⟨-, he⟩ := getp_cases s
    all_goals cases he.symm.trans hok
    exact .getp hv
  | proc x => exact finish_cases (fun _ _ => completes_of_proc_eq_ok) h
  | auxen e =>
    refine finish_cases (fun ws u hok => ?_) h
    obtain ⟨hz, he⟩ | ⟨-, he⟩ := auxen_cases e s
    all_goals cases he.symm.trans hok
    exact .auxen hz
  | auxin a => cases h; exact .inr .auxin
  | gets => cases h; exact .inr .gets

/-- What a step keeps: it is enough that taking bytes off the stream, a fault and every completed command keep it. -/
theorem step_keeps {Q : State → Prop} (take : ∀ bs s, Q s → Q (setHostIn bs s)) (fault : ∀ c s, Q s → Q (setFault c s))
    (complete : ∀ i s t, Completes i s t → Q s → Q t) {s t : State} (hs : Q s) (h : step s = .next t) : Q t := by
  obtain ⟨-, he⟩ | ⟨-, ⟨i, rest, -, he⟩ | ⟨b, rest, -, he⟩ | ⟨-, he⟩⟩ := step_cases s
  all_goals rw [he] at h
  · cases h
  · obtain ⟨c, rfl⟩ | hc := exec_cases h
    · exact fault c _ (take rest s hs)
    · exact complete i _ t hc (take rest s hs)
  · cases h
    exact fault _ _ (take rest s hs)
  · cases h
    exact hs

/-! Which elements a completed command leaves as they were. -/

/-- A successful `RESET` empties both rings and keeps their length only at an unchanged rate (45_control R223, R224). -/
theorem resetRings_eq (fs : F64) (L : Nat) (s : State) :
    resetRings fs L s =
      { s with
        sRing := ⟨[], 0⟩, mRing := ⟨[], 0⟩
        ringLen := if s.configured && Fp.feq fs s.fs then s.ringLen else L } := by
  unfold resetRings
  split <;> rfl

theorem Completes.params_eq {i : Instr} {s t : State} (h : Completes i s t) (hi : i.opcode ≠ .setp) :
    t.param = s.param ∧ t.paramsValid = s.paramsValid ∧ t.tapCount = s.tapCount ∧ t.tapMs = s.tapMs := by
  cases h
  case setp => exact absurd rfl hi
  all_goals simp [resetRings_eq, procUnits]

theorem Completes.auxEn_eq {i : Instr} {s t : State} (h : Completes i s t) (hi : i.opcode ≠ .auxen) :
    t.auxEn = s.auxEn := by
  cases h
  case auxen => exact absurd rfl hi
  all_goals simp [resetRings_eq, procUnits]

theorem Completes.auxSample_eq {i : Instr} {s t : State} (h : Completes i s t) (hi : i.opcode ≠ .auxin) :
    t.auxSample = s.auxSample := by
  cases h
  case auxin => exact absurd rfl hi
  all_goals simp [resetRings_eq, procUnits]

theorem Completes.rate_eq {i : Instr} {s t : State} (h : Completes i s t) (hi : i.opcode ≠ .reset) :
    t.ringLen = s.ringLen ∧ t.configured = s.configured ∧ t.fs = s.fs ∧ t.spms = s.spms ∧ t.detAtt = s.detAtt ∧
      t.detRel = s.detRel := by
  cases h
  case resetNoRoom => exact absurd rfl hi
  case resetDone => exact absurd rfl hi
  all_goals simp [procUnits]

theorem Completes.fault_eq {i : Instr} {s t : State} (h : Completes i s t) :
    t.fault = s.fault ∧ t.faultCause = s.faultCause := by
  cases h
  all_goals simp [resetRings_eq, procUnits]

/-! Each part of the invariant reads these elements and no other. -/

section
variable {s t : State}

theorem RingsGood.of_eq (h : RingsGood s) (hC : t.ringLen = s.ringLen) (hS : t.sRing = s.sRing) (hM : t.mRing = s.mRing) :
    RingsGood t := by
  obtain ⟨hlow, hhigh, hs, hm⟩ := h
  constructor <;> simpa only [hC, hS, hM]

theorem TapsGood.of_eq (h : TapsGood s) (hcount : t.tapCount = s.tapCount) (htaps : t.tapMs = s.tapMs) : TapsGood t := by
  obtain ⟨hlow, hhigh, hz⟩ := h
  constructor <;> simpa only [hcount, htaps]

theorem ParamsGood.of_eq (h : ParamsGood s) (hparam : t.param = s.param) (hcount : t.tapCount = s.tapCount)
    (htaps : t.tapMs = s.tapMs) : ParamsGood t := by
  obtain ⟨hin, hres⟩ := h
  constructor <;> simpa only [hparam, hcount, htaps]

theorem RateGood.of_eq (h : RateGood s) (hC : t.ringLen = s.ringLen) (hfs : t.fs = s.fs) (hspms : t.spms = s.spms)
    (hatt : t.detAtt = s.detAtt) (hrel : t.detRel = s.detRel) : RateGood t := by
  obtain ⟨hrate, hms, hlen, hfits, hattack, hrelease⟩ := h
  constructor <;> simpa only [hC, hfs, hspms, hatt, hrel]

theorem FaultGood.of_eq (h : FaultGood s) (hf : t.fault = s.fault) (hc : t.faultCause = s.faultCause) : FaultGood t := by
  obtain ⟨hclear, hcause⟩ := h
  constructor <;> simpa only [hf, hc]

end

/-! The parts of the invariant through a completed command. -/

/-- The rings after a successful `RESET` have the length of its rate, also where they kept it. -/
theorem ringLen_resetRings {fs : F64} {s : State} (hr : finitePositive fs = true)
    (hs : s.configured = true → RateGood s) :
    (resetRings fs (ringLenFn Config.hw fs) s).ringLen = ringLenFn Config.hw fs := by
  simp only [resetRings_eq]
  split
  · next h =>
    rw [Bool.and_eq_true] at h
    obtain ⟨hc, heq⟩ := h
    have hrate := hs hc
    have hfs : fs = s.fs :=
      Fp.eq_of_feq_of_pos heq ((finitePositive_iff _).mp hr).2 ((finitePositive_iff _).mp hrate.rate).2
    rw [hfs]
    exact hrate.ringLen
  · rfl

theorem staticPath_ring_wf {fr : FpSite → BitVec 53} {x y : F64} {s : State} {r : Ring}
    (h : staticPath fr x s = .ok (y, r)) (hw : Memory.wf s.ringLen s.sRing = true) : Memory.wf s.ringLen r = true := by
  obtain ⟨t, -, -, rfl⟩ := staticPath_eq_ok_iff.mp h
  exact ringWrite_wf hw

theorem modPath_ring_wf {P : Params} {fr : FpSite → BitVec 53} {m : ModMode} {x y : F64} {o : LfoOut} {sc : Option F64}
    {s : State} {r : Ring} (h : modPath P fr m x o sc s = .ok (y, r)) (hw : Memory.wf s.ringLen s.mRing = true) :
    Memory.wf s.ringLen r = true := by
  obtain ⟨yd, -, -, rfl⟩ := modTap_eq_ok_iff.mp h
  exact ringWrite_wf hw

theorem Completes.ringsGood {i : Instr} {s t : State} (h : Completes i s t) (hrate : s.configured = true → RateGood s)
    (hs : RingsGood s) : RingsGood t := by
  obtain ⟨hlow, hhigh, hS, hM⟩ := hs
  cases h
  case resetDone fs hr hfits =>
    have hC := ringLen_resetRings hr hrate
    have hC2 := two_le_ringLenFn Config.hw fs
    have hCmax := le_trans hfits (maxRingLen_bounds Config.hw).2
    have hwf := ringCreate_wf (Nat.lt_of_lt_of_le two_pos hC2) 0
    constructor <;> simp only [returnWords_ringLen, configure_ringLen, hC]
    · exact hC2
    · exact hCmax
    · simpa [resetRings_eq, ringCreate] using hwf
    · simpa [resetRings_eq, ringCreate] using hwf
  case procStatic hring =>
    have hwf := staticPath_ring_wf hring hS
    constructor <;> simpa [procUnits]
  case procModulated hring =>
    have hwf := modPath_ring_wf hring hM
    constructor <;> simpa [procUnits]
  all_goals constructor <;> simpa

/-- Resolved taps are one to four, the others zero (41_tap_resolver R120, R125). -/
theorem tapsGood_of_resolve {P : Params} {fr : FpSite → BitVec 53} {mode : Word} {shortMs longMs : F64} {s : State}
    (h : (s.tapCount, s.tapMs) = resolve P fr mode shortMs longMs) : TapsGood s := by
  obtain ⟨hcount, htaps⟩ := Prod.mk.inj h
  have hb := length_rowSources_bounds (schedRow P mode)
  refine ⟨hcount ▸ hb.1, hcount ▸ hb.2, fun i hi => ?_⟩
  rw [htaps]
  exact get_tapsOfList_of_length_le (by rw [length_chainTaps, ← hcount]; exact hi)

/-- `SETP` leaves an in-contract bank and its resolution (41_tap_resolver R127). -/
theorem paramsGood_loadParams {pk : Packet} (h : validate pk = true) (ws : List Word) (s : State) :
    ParamsGood (returnWords ws (loadParams (bankOfPacket pk)
      (resolve Config.hw fixedNan pk.modeSelectorValue pk.delayTimeShortMs pk.delayTimeLongMs).1
      (resolve Config.hw fixedNan pk.modeSelectorValue pk.delayTimeShortMs pk.delayTimeLongMs).2 s)) where
  inContract := (congrArg validate (packetOfBank_bankOfPacket h)).trans h
  resolved := rfl

theorem Completes.tapsGood {i : Instr} {s t : State} (h : Completes i s t) (hs : TapsGood s) : TapsGood t := by
  have hframe := h.params_eq
  cases h
  case setp hv => exact tapsGood_of_resolve (paramsGood_loadParams hv [] s).resolved
  all_goals
    obtain ⟨-, -, hcount, htaps⟩ := hframe nofun
    exact hs.of_eq hcount htaps

theorem Completes.paramsGood {i : Instr} {s t : State} (h : Completes i s t) (hs : s.paramsValid = true → ParamsGood s)
    (ht : t.paramsValid = true) : ParamsGood t := by
  have hframe := h.params_eq
  cases h
  case setp hv => exact paramsGood_loadParams hv [] s
  all_goals
    obtain ⟨hparam, hvalid, hcount, htaps⟩ := hframe nofun
    exact (hs (hvalid ▸ ht)).of_eq hparam hcount htaps

theorem Completes.rateGood {i : Instr} {s t : State} (h : Completes i s t) (hs : s.configured = true → RateGood s)
    (ht : t.configured = true) : RateGood t := by
  have hframe := h.rate_eq
  cases h
  case resetNoRoom => simp at ht
  case resetDone fs hr hfits =>
    have hC := ringLen_resetRings hr hs
    exact ⟨hr, rfl, hC, hC.trans_le hfits, rfl, rfl⟩
  all_goals
    obtain ⟨hC, hconf, hfs, hspms, hatt, hrel⟩ := hframe nofun
    exact (hs (hconf ▸ ht)).of_eq hC hfs hspms hatt hrel

theorem Completes.detEnv_nonneg {i : Instr} {s t : State} (h : Completes i s t) (hs : Fp.le Fp.posZero s.detEnv = true) :
    Fp.le Fp.posZero t.detEnv = true := by
  cases h
  case resetDone => simp only [returnWords_detEnv, configure_detEnv]; decide
  case procStatic => simpa [procUnits] using procEnv_nonneg _ _ hs
  case procModulated => simpa [procUnits] using procEnv_nonneg _ _ hs
  all_goals simpa

theorem causeCode_bounds (c : Cause) : 1 ≤ causeCode c ∧ causeCode c ≤ 7 := by
  cases c <;> decide

/-! The invariant. -/

theorem Inv.setHostIn {s : State} (h : Inv s) (bs : List Byte) : Inv (setHostIn bs s) where
  rings := h.rings.of_eq rfl rfl rfl
  taps := h.taps.of_eq rfl rfl
  params hv := (h.params hv).of_eq rfl rfl rfl
  rate hc := (h.rate hc).of_eq rfl rfl rfl rfl rfl
  env := h.env
  faults := h.faults.of_eq rfl rfl

theorem Inv.setFault {s : State} (h : Inv s) (c : Cause) : Inv (setFault c s) where
  rings := h.rings.of_eq rfl rfl rfl
  taps := h.taps.of_eq rfl rfl
  params hv := (h.params hv).of_eq rfl rfl rfl
  rate hc := (h.rate hc).of_eq rfl rfl rfl rfl rfl
  env := h.env
  faults := ⟨nofun, fun _ => causeCode_bounds c⟩

theorem Completes.inv {i : Instr} {s t : State} (h : Completes i s t) (hs : Inv s) : Inv t where
  rings := h.ringsGood hs.rate hs.rings
  taps := h.tapsGood hs.taps
  params := h.paramsGood hs.params
  rate := h.rateGood hs.rate
  env := h.detEnv_nonneg hs.env
  faults := hs.faults.of_eq h.fault_eq.1 h.fault_eq.2

/-! The phase. -/

theorem phaseGood_iff (s : State) : PhaseGood s ↔ Fp.InUnit s.lfoPhase := Iff.rfl

/-- The phase of a `PROC` in a good state: the rate's increment lies in `[0.0, 1.0)` where the LFO steps. -/
theorem inUnit_procPhase {P : Params} {fr : FpSite → BitVec 53} {s : State} {lfo : Option LfoOut} (hs : Inv s)
    (hp : Fp.InUnit s.lfoPhase) (hc : s.configured = true) (hv : s.paramsValid = true) (hl : procLfo P fr s = .ok lfo) :
    Fp.InUnit (procPhase s lfo) := by
  obtain ⟨-, he⟩ | ⟨-, -, he⟩ | ⟨-, hlt, he⟩ := procLfo_cases P fr s
  all_goals cases he.symm.trans hl
  · exact hp
  · have hrate := finitePositive_modRateHz_of_validate (hs.params hv).inContract
    exact inUnit_advancePhase fr hp ⟨lfoInc_nonneg fr hrate (hs.rate hc).rate, hlt⟩

theorem Completes.phaseGood {i : Instr} {s t : State} (h : Completes i s t) (hs : Inv s) (hp : PhaseGood s) :
    PhaseGood t := by
  rw [phaseGood_iff] at hp ⊢
  cases h
  case resetDone =>
    simp only [returnWords_lfoPhase, configure_lfoPhase, Fp.InUnit]
    decide
  case procStatic hc hv hl _ _ => simpa [procUnits] using inUnit_procPhase hs hp hc hv hl
  case procModulated hc hv hl _ _ => simpa [procUnits] using inUnit_procPhase hs hp hc hv hl
  all_goals simpa

end Sys2Proof.Machine

namespace Sys2Proof.Proofs

open Machine

/-- Settles O56: each part of the invariant is kept by every command that completes, and a fault keeps the rest. -/
theorem stepKeepsTheInvariant : Obligations.StepKeepsTheInvariant := by
  intro s t hs h
  exact step_keeps (Q := Inv) (fun bs _ hq => hq.setHostIn bs) (fun c _ hq => hq.setFault c)
    (fun _ _ _ hc hq => hc.inv hq) hs h

/-- Settles O57: the increment is below one turn, so the advanced phase stays below two and one wrap brings it back. -/
theorem stepKeepsThePhase : Obligations.StepKeepsThePhase := by
  intro s t hs hp h
  have hboth : Inv t ∧ PhaseGood t := step_keeps (Q := fun u => Inv u ∧ PhaseGood u)
    (fun bs _ hq => ⟨hq.1.setHostIn bs, hq.2⟩) (fun c _ hq => ⟨hq.1.setFault c, hq.2⟩)
    (fun _ _ _ hc hq => ⟨hc.inv hq.1, hc.phaseGood hq.1 hq.2⟩) ⟨hs, hp⟩ h
  exact hboth.2

/-- Settles O33: a fault changes none of these elements, and a completed command other than the writer none either. -/
theorem oneWriterForParametersAndAux : Obligations.OneWriterForParametersAndAux := by
  intro i s t h
  obtain ⟨c, rfl⟩ | hc := exec_cases h
  · exact ⟨fun _ => ⟨rfl, rfl, rfl, rfl⟩, fun _ => rfl, fun _ => rfl⟩
  · exact ⟨hc.params_eq, hc.auxEn_eq, hc.auxSample_eq⟩

/-- Settles O52: the last operation of the detector step is the maximum with `+0.0`. -/
theorem envelopeNeverNegative : Obligations.EnvelopeNeverNegative :=
  detStepEnv_nonneg

/-- Settles O55: the power-on values, the inactive taps read one by one. -/
theorem powerOnMeetsTheInvariants : Obligations.PowerOnMeetsTheInvariants := by
  refine ⟨⟨⟨by decide, by decide, reset_rings_wf.1, reset_rings_wf.2⟩, ⟨by decide, by decide, fun i _ => ?_⟩, nofun, nofun,
    by decide, ⟨fun _ => rfl, nofun⟩⟩, by decide, by decide⟩
  match i with
  | 0 | 1 | 2 | 3 => rfl
  | _ + 4 => rfl

end Sys2Proof.Proofs
end

section
/-!
PROOFS. Commands as atomic moves of the state (20_memory R51 to R57): every command ends, a step performs the decoded one,
which elements a command leaves alone, and which commands may be repeated.
-/

namespace Sys2Proof.Machine

/-! How a command ends. -/

theorem exists_finish_eq_next (s : State) (r : Except Cause (List Word × State)) : ∃ t, finish s r = .next t := by
  cases r with
  | error c => exact ⟨_, finish_error s c⟩
  | ok p => exact ⟨_, finish_ok s p.2 p.1⟩

theorem step_of_decode_eq_cmd {s : State} {i : Instr} {rest : List Byte} (hf : s.fault = false)
    (hd : decode s.hostIn = .cmd i rest) : step s = exec i (setHostIn rest s) := by
  obtain ⟨h, -⟩ | ⟨-, ⟨j, r, h, he⟩ | ⟨b, r, h, -⟩ | ⟨h, -⟩⟩ := step_cases s
  · cases hf.symm.trans h
  all_goals cases hd.symm.trans h
  exact he

/-- The elements that only `PROC` and `RESET` write: the rings, the LFO's phase, the envelope, `LAST_PATH` and the draw of
free NaN bits (20_memory R51, 10_state R37). Performing a command does not touch the stream either. -/
theorem Completes.engine_eq {i : Instr} {s t : State} (h : Completes i s t) (hp : i.opcode ≠ .proc) (hr : i.opcode ≠ .reset) :
    t.sRing = s.sRing ∧ t.mRing = s.mRing ∧ t.lfoPhase = s.lfoPhase ∧ t.detEnv = s.detEnv ∧ t.lastPath = s.lastPath ∧
      t.hostIn = s.hostIn ∧ t.nanDraw = s.nanDraw := by
  cases h
  case resetNoRoom => exact absurd rfl hr
  case resetDone => exact absurd rfl hr
  case procStatic => exact absurd rfl hp
  case procModulated => exact absurd rfl hp
  all_goals simp

/-! An update made twice. -/

@[simp] theorem returnWords_nil (s : State) : returnWords [] s = s := by
  simp [returnWords]

@[simp] theorem setFault_setFault (c : Cause) (s : State) : setFault c (setFault c s) = setFault c s := rfl

@[simp] theorem loadParams_loadParams (p : ParamBank) (count : Nat) (taps : Taps) (s : State) :
    loadParams p count taps (loadParams p count taps s) = loadParams p count taps s := rfl

@[simp] theorem setAuxEn_setAuxEn (e : Bool) (s : State) : setAuxEn e (setAuxEn e s) = setAuxEn e s := rfl

@[simp] theorem setAuxSample_setAuxSample (a : F64) (s : State) : setAuxSample a (setAuxSample a s) = setAuxSample a s := rfl

@[simp] theorem statusWord_returnWords (ws : List Word) (s : State) : statusWord (returnWords ws s) = statusWord s := rfl

/-! What the commands other than `PROC` and `RESET` answer. -/

theorem exec_setp_of_validate {pk : Packet} (h : validate pk = true) (s : State) :
    exec (.setp pk) s = .next (loadParams (bankOfPacket pk)
      (resolve Config.hw fixedNan pk.modeSelectorValue pk.delayTimeShortMs pk.delayTimeLongMs).1
      (resolve Config.hw fixedNan pk.modeSelectorValue pk.delayTimeShortMs pk.delayTimeLongMs).2 s) := by
  simp [exec, execSetp, setp, h]

theorem exec_setp_of_not_validate {pk : Packet} (h : validate pk = false) (s : State) :
    exec (.setp pk) s = .next (setFault .paramRange s) := by
  simp [exec, execSetp, setp, h]

theorem exec_getp_of_paramsValid {s : State} (h : s.paramsValid = true) :
    exec .getp s = .next (returnWords (packetWords (packetOfBank s.param)) s) := by
  simp [exec, execGetp, getp, h]

theorem exec_auxen_of_reservedZero {e : Word} (h : enableReservedZero e = true) (s : State) :
    exec (.auxen e) s = .next (setAuxEn (enableBit e) s) := by
  simp [exec, execAuxen, auxen, h]

theorem exec_auxen_of_not_reservedZero {e : Word} (h : enableReservedZero e = false) (s : State) :
    exec (.auxen e) s = .next (setFault .illegalCmd s) := by
  simp [exec, execAuxen, auxen, h]

theorem exec_auxin (a : F64) (s : State) : exec (.auxin a) s = .next (setAuxSample a s) := by
  simp [exec, execAuxin]

theorem exec_gets (s : State) : exec .gets s = .next (returnWords [statusWord s] s) := rfl

/-! Commands that may be repeated (20_memory R56). -/

/-- A command whose whole effect is one idempotent update leaves, when repeated, the state it made. -/
theorem exec_again_of_effect {i : Instr} {f : State → State} (he : ∀ s, exec i s = .next (f s)) (hf : ∀ s, f (f s) = f s)
    {s t : State} (h : exec i s = .next t) : exec i t = .next t := by
  cases (he s).symm.trans h
  rw [he, hf]

theorem exec_setp_again {pk : Packet} {s t : State} (h : exec (.setp pk) s = .next t) : exec (.setp pk) t = .next t := by
  cases hv : validate pk with
  | false => exact exec_again_of_effect (exec_setp_of_not_validate hv) (setFault_setFault _) h
  | true => exact exec_again_of_effect (exec_setp_of_validate hv) (loadParams_loadParams _ _ _) h

theorem exec_auxen_again {e : Word} {s t : State} (h : exec (.auxen e) s = .next t) : exec (.auxen e) t = .next t := by
  cases hz : enableReservedZero e with
  | false => exact exec_again_of_effect (exec_auxen_of_not_reservedZero hz) (setFault_setFault _) h
  | true => exact exec_again_of_effect (exec_auxen_of_reservedZero hz) (setAuxEn_setAuxEn _) h

theorem exec_auxin_again {a : F64} {s t : State} (h : exec (.auxin a) s = .next t) : exec (.auxin a) t = .next t :=
  exec_again_of_effect (exec_auxin a) (setAuxSample_setAuxSample a) h

/-- A repeated `GETP` returns the packet again: its results are no part of `PARAM`. -/
theorem exec_getp_again {s : State} (h : s.paramsValid = true) (ws : List Word) :
    exec .getp (returnWords ws s) = .next (returnWords (packetWords (packetOfBank s.param)) (returnWords ws s)) :=
  exec_getp_of_paramsValid (s := returnWords ws s) h

/-- A repeated `GETS` returns the status word again: its results are no part of the status. -/
theorem exec_gets_again (s : State) (ws : List Word) :
    exec .gets (returnWords ws s) = .next (returnWords [statusWord s] (returnWords ws s)) := by
  rw [exec_gets, statusWord_returnWords]

end Sys2Proof.Machine

namespace Sys2Proof.Proofs

open Machine

/-- Settles O32: a fault leaves the rate's elements, and so does every completed command that is no `RESET`. -/
theorem onlyResetResizes : Obligations.OnlyResetResizes := by
  intro i s t hi h
  obtain ⟨c, rfl⟩ | hc := exec_cases h
  · simp
  · exact hc.rate_eq hi

/-- Settles O34: both rings are left whole, so every cell and both pointers are. -/
theorem onlyProcAndResetTouchTheRings : Obligations.OnlyProcAndResetTouchTheRings := by
  intro i s t hp hr h
  obtain ⟨c, rfl⟩ | hc := exec_cases h
  · simp
  · obtain ⟨hS, hM, hrest⟩ := hc.engine_eq hp hr
    rw [hS, hM]
    exact ⟨fun _ => rfl, rfl, fun _ => rfl, rfl, hrest⟩

/-- Settles O35: `SETP`, `AUXEN` and `AUXIN` are each one idempotent update, a fault included, and what `GETP` and `GETS`
return is read from elements they do not write. -/
theorem repeatedCommandsAreIdempotent : Obligations.RepeatedCommandsAreIdempotent := by
  constructor
  · intro i s t hi h
    cases i with
    | setp pk => exact exec_setp_again h
    | auxen e => exact exec_auxen_again h
    | auxin a => exact exec_auxin_again h
    | reset | getp | proc | gets => simp [Instr.opcode] at hi
  · intro i s hi
    cases i with
    | getp =>
      have hv : s.paramsValid = true := by simpa [Instr.opcode] using hi
      exact ⟨_, exec_getp_of_paramsValid hv, exec_getp_again hv _⟩
    | gets => exact ⟨_, exec_gets s, exec_gets_again s _⟩
    | reset | setp | proc | auxen | auxin => simp [Instr.opcode] at hi

/-- Settles O6: at `FAULT = 0` the decoder's answer alone selects what a step does. -/
theorem stepRunsTheCommand : Obligations.StepRunsTheCommand :=
  fun _ _ _ => step_of_decode_eq_cmd

/-- Settles O9: each command's meaning answers results or a fault cause, and `finish` makes a next state of either. -/
theorem everyCommandEnds : Obligations.EveryCommandEnds := by
  intro i s
  cases i with
  | auxin a => exact ⟨_, exec_auxin a s⟩
  | gets => exact ⟨_, exec_gets s⟩
  | reset | setp | getp | proc | auxen => exact exists_finish_eq_next s _

end Sys2Proof.Proofs
end

section
/-!
PROOFS. The command encoding (30_encoding R70 to R84, R87): the decoder and the encoder are inverse to each other, the reserved
encodings raise their faults, and the pseudo-commands expand.
-/

namespace Sys2Proof

/-! The decoder reads exactly what the encoder writes. -/

theorem decodeByte_eq_some_iff {b : Byte} {op : Opcode} : decodeByte b = some op ↔ b = opcodeByte op := by
  constructor
  · intro h
    unfold decodeByte at h
    split at h
    · cases h
    · next hhi =>
      have hb : b.toNat = (b.extractLsb' 0 4).toNat := by
        have := congrArg BitVec.toNat (not_not.mp hhi)
        simp only [BitVec.extractLsb'_toNat, Nat.shiftRight_eq_div_pow, BitVec.toNat_ofNat] at this ⊢
        omega
      apply BitVec.eq_of_toNat_eq
      rw [hb]
      split at h <;> cases h <;> assumption
  · rintro rfl
    exact decodeByte_opcodeByte op

theorem decodeByte_eq_none_iff {b : Byte} : decodeByte b = none ↔ ∀ op, b ≠ opcodeByte op := by
  simp only [Option.eq_none_iff_forall_ne_some, ne_eq, decodeByte_eq_some_iff]

/-- The ILLEGAL command bytes by their fields: `RSV` not zero, or `OPC` 0 or from 8 up (30_encoding R82). -/
theorem decodeByte_eq_none_of_reserved {b : Byte}
    (h : b.extractLsb' 4 4 ≠ 0#4 ∨ b.extractLsb' 0 4 = 0#4 ∨ 8 ≤ (b.extractLsb' 0 4).toNat) : decodeByte b = none := by
  rw [decodeByte_eq_none_iff]
  rintro op rfl
  cases op <;> revert h <;> decide

theorem toNat_wordOfBytes (b0 b1 b2 b3 b4 b5 b6 b7 : Byte) :
    (wordOfBytes b0 b1 b2 b3 b4 b5 b6 b7).toNat =
      b0.toNat + 2 ^ 8 * (b1.toNat + 2 ^ 8 * (b2.toNat + 2 ^ 8 * (b3.toNat + 2 ^ 8 * (b4.toNat + 2 ^ 8 * (b5.toNat +
        2 ^ 8 * (b6.toNat + 2 ^ 8 * b7.toNat)))))) := by
  simp only [wordOfBytes, BitVec.toNat_append]
  repeat rw [← Nat.shiftLeft_add_eq_or_of_lt (BitVec.isLt _)]
  simp only [Nat.shiftLeft_eq]
  omega

theorem wordBytes_wordOfBytes (b0 b1 b2 b3 b4 b5 b6 b7 : Byte) :
    wordBytes (wordOfBytes b0 b1 b2 b3 b4 b5 b6 b7) = [b0, b1, b2, b3, b4, b5, b6, b7] := by
  simp only [wordBytes, List.cons.injEq, and_true, ← BitVec.toNat_inj, BitVec.extractLsb'_toNat, toNat_wordOfBytes,
    Nat.shiftRight_eq_div_pow]
  omega

theorem takeWords_eq_some_iff {n : Nat} {bs rest : List Byte} {ws : List Word} :
    takeWords n bs = some (ws, rest) ↔ ws.length = n ∧ bs = ws.flatMap wordBytes ++ rest := by
  constructor
  · intro h
    fun_induction takeWords generalizing ws rest with
    | case1 bs => cases h; exact ⟨rfl, rfl⟩
    | case2 n b0 b1 b2 b3 b4 b5 b6 b7 bs vs r hr ih =>
      cases h
      obtain ⟨rfl, rfl⟩ := ih hr
      simp [wordBytes_wordOfBytes]
    | case3 => cases h
    | case4 => cases h
  · rintro ⟨rfl, rfl⟩
    exact takeWords_flatMap_wordBytes ws rest

/-- As many words as an opcode takes are some command's operands. -/
theorem exists_instr_of_length : ∀ {op : Opcode} {ws : List Word}, ws.length = operandWords op →
    ∃ i : Instr, i.opcode = op ∧ i.operands = ws
  | .reset, [fs], _ => ⟨.reset fs, rfl, rfl⟩
  | .setp, [w0, w1, w2, w3, w4, w5, w6, w7, w8], _ => ⟨.setp ⟨w0, w1, w2, w3, w4, w5, w6, w7, w8⟩, rfl, rfl⟩
  | .getp, [], _ => ⟨.getp, rfl, rfl⟩
  | .proc, [x], _ => ⟨.proc x, rfl, rfl⟩
  | .auxen, [e], _ => ⟨.auxen e, rfl, rfl⟩
  | .auxin, [a], _ => ⟨.auxin a, rfl, rfl⟩
  | .gets, [], _ => ⟨.gets, rfl, rfl⟩

theorem opcode_operands_of_instrOfWords {op : Opcode} {ws : List Word} {i : Instr} (hlen : ws.length = operandWords op)
    (h : instrOfWords op ws = some i) : i.opcode = op ∧ i.operands = ws := by
  obtain ⟨j, rfl, rfl⟩ := exists_instr_of_length hlen
  cases (instrOfWords_operands j).symm.trans h
  exact ⟨rfl, rfl⟩

/-- The parts a decoded command is read from (30_encoding R83). -/
theorem decode_cons_eq_cmd_iff {b : Byte} {bs rest : List Byte} {i : Instr} :
    decode (b :: bs) = .cmd i rest ↔
      ∃ op ws, decodeByte b = some op ∧ takeWords (operandWords op) bs = some (ws, rest) ∧ instrOfWords op ws = some i := by
  simp only [decode]
  cases decodeByte b with
  | none => simp
  | some op =>
    rcases hws : takeWords (operandWords op) bs with _ | ⟨ws, r⟩
    · simp [hws]
    · cases hi : instrOfWords op ws <;> simp [hws, hi, and_comm]

theorem decode_eq_cmd_iff {bs rest : List Byte} {i : Instr} : decode bs = .cmd i rest ↔ bs = encode i ++ rest := by
  cases bs with
  | nil => simp [decode, encode]
  | cons b bs =>
    simp only [decode_cons_eq_cmd_iff, decodeByte_eq_some_iff, takeWords_eq_some_iff]
    constructor
    · rintro ⟨op, ws, rfl, ⟨hlen, rfl⟩, hi⟩
      obtain ⟨rfl, rfl⟩ := opcode_operands_of_instrOfWords hlen hi
      rfl
    · intro h
      obtain ⟨rfl, rfl⟩ := List.cons.inj h
      exact ⟨_, _, rfl, ⟨length_operands i, rfl⟩, instrOfWords_operands i⟩

theorem decode_of_decodeByte_eq_none {b : Byte} (h : decodeByte b = none) (bs : List Byte) :
    decode (b :: bs) = .illegal b bs := by
  simp [decode, h]

/-! Reserved bits of the operands, as the model tests them by a shift. -/

theorem extractLsb'_eq_zero_of_ushiftRight {w n m : Nat} {x : BitVec w} (h : x >>> n = 0#w) : x.extractLsb' n m = 0#m := by
  rw [← BitVec.setWidth_ushiftRight_eq_extractLsb, h, BitVec.setWidth_zero]

theorem enableReservedZero_eq_false {e : Word} (h : e.extractLsb' 1 63 ≠ 0#63) : enableReservedZero e = false :=
  beq_false_of_ne (mt extractLsb'_eq_zero_of_ushiftRight h)

theorem flagsReservedZero_eq_false {w : Word} (h : w.extractLsb' 2 62 ≠ 0#62) : flagsReservedZero w = false :=
  beq_false_of_ne (mt extractLsb'_eq_zero_of_ushiftRight h)

namespace Machine

theorem validate_eq_false_of_flags {pk : Packet} (h : flagsReservedZero pk.flags = false) : validate pk = false := by
  simp [validate, h]

theorem step_of_decodeByte_eq_none {s : State} {b : Byte} {rest : List Byte} (hf : s.fault = false)
    (hin : s.hostIn = b :: rest) (hb : decodeByte b = none) :
    step s = .next (setFault .illegalCmd (setHostIn rest s)) := by
  simp [step, hf, hin, decode_of_decodeByte_eq_none hb, raiseFault]

end Machine

end Sys2Proof

namespace Sys2Proof.Proofs

open Machine

/-- Settles O1: the decoder reads exactly the encoder's bytes. -/
theorem encodeThenDecode : Obligations.EncodeThenDecode :=
  fun _ _ => decode_eq_cmd_iff.mpr rfl

/-- Settles O2: the other direction of the same equivalence. -/
theorem decodeThenEncode : Obligations.DecodeThenEncode :=
  fun _ _ _ => decode_eq_cmd_iff.mp

/-- Settles O4: a reserved command byte decodes to no opcode, and the commands test their reserved operand bits before they
write anything. -/
theorem reservedEncodingsFault : Obligations.ReservedEncodingsFault :=
  ⟨fun _ _ _ hf hin hb => step_of_decodeByte_eq_none hf hin (decodeByte_eq_none_of_reserved hb),
    fun s _ he => exec_auxen_of_not_reservedZero (enableReservedZero_eq_false he) s,
    fun s _ hpk => exec_setp_of_not_validate (validate_eq_false_of_flags (flagsReservedZero_eq_false hpk)) s⟩

/-- Settles O3: a byte that decodes is the command byte of its opcode, and every other byte is none of the seven. -/
theorem commandByteMap : Obligations.CommandByteMap := by
  refine ⟨fun b => ?_, rfl, fun _ _ _ => step_of_decodeByte_eq_none⟩
  cases h : decodeByte b with
  | some op =>
    obtain rfl := decodeByte_eq_some_iff.mp h
    cases op <;> rfl
  | none =>
    have hne := decodeByte_eq_none_iff.mp h
    split_ifs with h1 h2 h3 h4 h5 h6 h7
    exacts [absurd h1 (hne .reset), absurd h2 (hne .setp), absurd h3 (hne .getp), absurd h4 (hne .proc),
      absurd h5 (hne .auxen), absurd h6 (hne .auxin), absurd h7 (hne .gets), rfl]

/-- Settles O5: the bytes of each whole command are its encoding, and 0x14 is no opcode's byte. -/
theorem sampleWordsDecode : Obligations.SampleWordsDecode :=
  ⟨decode_eq_cmd_iff.mpr rfl, decode_eq_cmd_iff.mpr rfl, decode_eq_cmd_iff.mpr rfl, decode_eq_cmd_iff.mpr rfl,
    decode_eq_cmd_iff.mpr rfl, decode_eq_cmd_iff.mpr rfl, decode_of_decodeByte_eq_none rfl []⟩

/-- Settles O36: each expansion is the line of `expandLine` for it. -/
theorem pseudoCommandsExpand : Obligations.PseudoCommandsExpand :=
  ⟨fun _ h => if_pos h, fun _ _ _ => rfl⟩

end Sys2Proof.Proofs
end

section
/-!
PROOFS. The delay line (40_delay_line): what a ring cell holds after a write and after any writes, binary64 on whole numbers
and on the fraction of a delay, and a `PROC` whose delay lies outside the ring.
-/

namespace Sys2Proof.Machine.Fp

/-! Exact values: a significand of at most 53 bits at any shift is a binary64. -/

theorem exists_unitsOfMag_eq {M sh : Nat} (hM : M < 2 ^ 53) :
    ∃ m, m < (sh + 2) * 2 ^ 52 ∧ unitsOfMag m = M * 2 ^ sh := by
  induction sh generalizing M with
  | zero => exact ⟨M, by omega, unitsOfMag_split ⟨by omega, hM, .inr rfl⟩⟩
  | succ sh ih =>
    by_cases hlow : M < 2 ^ 52
    · obtain ⟨m, hm, hu⟩ := ih (M := 2 * M) (by omega)
      exact ⟨m, hm.trans_le (Nat.mul_le_mul_right _ (Nat.le_succ _)), by rw [hu, pow_succ]; ring⟩
    · exact ⟨(sh + 1) * 2 ^ 52 + M, by omega, unitsOfMag_split ⟨rfl, hM, .inl (by omega)⟩⟩

/-- Rounding a representable number of units gives a finite magnitude of exactly that many. -/
theorem roundUnits_representable {M sh : Nat} (hM : M < 2 ^ 53) (hsh : sh ≤ 2045) :
    roundUnits (M * 2 ^ sh) 1 < 2047 * 2 ^ 52 ∧ unitsOfMag (roundUnits (M * 2 ^ sh) 1) = M * 2 ^ sh := by
  obtain ⟨m, hm, hu⟩ := exists_unitsOfMag_eq (sh := sh) hM
  have hfin : m < 2047 * 2 ^ 52 := hm.trans_le (Nat.mul_le_mul_right _ (Nat.add_le_add_right hsh 2))
  have hexact := roundUnits_exact (m := m) one_pos hfin.le
  rw [Nat.mul_one, hu] at hexact
  rw [hexact]
  exact ⟨hfin, hu⟩

theorem one1074_eq : one1074 = 2 ^ 1074 := rfl

/-- A natural up to 2^53 is a whole number of at most 53 bits, times one or two. -/
theorem ofNat_exact {n : Nat} (hn : n ≤ 2 ^ 53) : isFinite (ofNat n) = true ∧ units (ofNat n) = n * one1074 := by
  have h : roundUnits (n * one1074) 1 < 2047 * 2 ^ 52 ∧ unitsOfMag (roundUnits (n * one1074) 1) = n * one1074 := by
    rw [one1074_eq]
    by_cases hlt : n < 2 ^ 53
    · exact roundUnits_representable hlt (by omega)
    · have he : n * 2 ^ 1074 = 2 ^ 52 * 2 ^ 1075 := by
        rw [show n = 2 ^ 53 by omega, ← pow_add, ← pow_add]
      rw [he]
      exact roundUnits_representable (by omega) (by omega)
  rw [isFinite_iff, units, ofNat, mag_round]
  exact h

theorem ofNat_nonneg (n : Nat) : le posZero (ofNat n) = true :=
  le_posZero_of_sign_false (isNaN_round _ _ _) (sign_round _ _ _)

theorem floor_ofNat {n : Nat} (hn : n ≤ 2 ^ 53) : floor (ofNat n) = n := by
  rw [floor, (ofNat_exact hn).2, Nat.mul_div_cancel _ one1074_pos]

/-- Among values that are not negative the order is that of their units. -/
theorem le_iff_units_le {a b : F64} (ha : le posZero a = true) (hb : le posZero b = true) :
    le a b = true ↔ units a ≤ units b := by
  rw [le_iff, ← value_le_iff_ordKey_le, value_eq_units_of_nonneg ha, value_eq_units_of_nonneg hb]
  simp [((le_iff _ _).mp ha).2.1, ((le_iff _ _).mp hb).2.1]

theorem ofNat_le_ofNat {m n : Nat} (h : m ≤ n) (hn : n ≤ 2 ^ 53) : le (ofNat m) (ofNat n) = true := by
  rw [le_iff_units_le (ofNat_nonneg m) (ofNat_nonneg n), (ofNat_exact (h.trans hn)).2, (ofNat_exact hn).2]
  exact Nat.mul_le_mul_right _ h

theorem floor_le_of_le_ofNat {d : F64} {n : Nat} (h0 : le posZero d = true) (h : le d (ofNat n) = true) (hn : n ≤ 2 ^ 53) :
    floor d ≤ n := by
  rw [le_iff_units_le h0 (ofNat_nonneg n), (ofNat_exact hn).2] at h
  exact Nat.div_le_of_le_mul (by rwa [Nat.mul_comm])

/-- What is left of a value after its whole part has no more significant bits than the value. -/
theorem units_mod_one1074 (a : F64) : ∃ M sh, M < 2 ^ 53 ∧ sh ≤ 1074 ∧ units a % one1074 = M * 2 ^ sh := by
  obtain ⟨sh, M, hsp⟩ := exists_split (mag a)
  rw [units, unitsOfMag_split hsp, one1074_eq]
  by_cases hsh : sh ≤ 1074
  · refine ⟨M % 2 ^ (1074 - sh), sh, lt_of_le_of_lt (Nat.mod_le _ _) hsp.2.1, hsh, ?_⟩
    rw [← Nat.mul_mod_mul_right, ← pow_add, Nat.sub_add_cancel hsh]
  · have hdvd : 2 ^ 1074 ∣ M * 2 ^ sh := Dvd.dvd.mul_left (pow_dvd_pow 2 (by omega)) M
    exact ⟨0, 0, by norm_num, by omega, by rw [Nat.mod_eq_zero_of_dvd hdvd, Nat.zero_mul]⟩

/-- The fraction of a delay is computed without rounding. -/
theorem sub_floor_exact (q : BitVec 53) {d : F64} (hd : isFinite d = true) (h0 : le posZero d = true)
    (hf : floor d ≤ 2 ^ 53) :
    le posZero (sub q d (ofNat (floor d))) = true ∧ units (sub q d (ofNat (floor d))) = units d % one1074 := by
  obtain ⟨hfin, hu⟩ := ofNat_exact hf
  have hdm : floor d * one1074 + units d % one1074 = units d := Nat.div_add_mod' _ _
  have hv : value d + value (neg (ofNat (floor d))) = (units d % one1074 : Nat) := by
    rw [value_neg, value_eq_units_of_nonneg h0, value_eq_units_of_nonneg (ofNat_nonneg _), hu]
    omega
  obtain ⟨hle, hm⟩ := add_of_value_nonneg q hd (isFinite_neg hfin) hv
  refine ⟨hle, ?_⟩
  obtain ⟨M, sh, hM, hsh, hr⟩ := units_mod_one1074 d
  rw [units, sub, hm, hr]
  exact (roundUnits_representable hM (by omega)).2

/-! Operands that change nothing. -/

theorem sub_self_of_nonneg (q : BitVec 53) {a : F64} (ha : isFinite a = true) (hs : sign a = false) :
    sub q a a = posZero := by
  rw [sub, add_of_isFinite q ha (isFinite_neg ha), value_neg, add_neg_cancel, if_pos rfl, hs]
  rfl

theorem add_comm_of_isFinite (q : BitVec 53) {a b : F64} (ha : isFinite a = true) (hb : isFinite b = true) :
    add q a b = add q b a := by
  rw [add_of_isFinite q ha hb, add_of_isFinite q hb ha, Int.add_comm, Bool.and_comm]

/-- A zero plus a value that is no zero and no NaN is that value, an infinity too. -/
theorem add_of_isZero_left (q : BitVec 53) {a b : F64} (ha : mag a = 0) (hb : isNaN b = false) (hne : mag b ≠ 0) :
    add q a b = b := by
  have haf : isFinite a = true := by rw [isFinite_iff, ha]; norm_num
  by_cases hbf : isFinite b = true
  · rw [add_comm_of_isFinite q haf hbf, add_of_isZero_right q hbf ha hne]
  · have hbi : isInf b = true := by
      rw [isFinite_iff] at hbf
      rw [isNaN_false_iff] at hb
      rw [isInf, decide_eq_true_eq]
      omega
    simp [add, isNaN_of_isFinite haf, isInf_of_isFinite haf, hb, hbi]

end Sys2Proof.Machine.Fp

namespace Sys2Proof.Machine

/-! The ring's cells. -/

theorem ringIndex_self {C wp : Nat} (h : wp < C) : ringIndex C wp C = wp := by
  rw [ringIndex, Nat.add_sub_cancel, Nat.mod_eq_of_lt h]

/-- One write moves every cell one further behind the write pointer. -/
theorem ringIndex_succ {C wp k : Nat} (hk : k < C) : ringIndex C ((wp + 1) % C) (k + 1) = ringIndex C wp k := by
  unfold ringIndex
  rw [show (wp + 1) % C + C - (k + 1) = (wp + 1) % C + (C - (k + 1)) by omega, Nat.mod_add_mod]
  congr 1
  omega

theorem ringIndex_ne_wp {C wp k : Nat} (hwp : wp < C) (h1 : 1 ≤ k) (hk : k < C) : ringIndex C wp k ≠ wp := by
  unfold ringIndex
  by_cases h : k ≤ wp
  · rw [show wp + C - k = wp - k + C by omega, Nat.add_mod_right, Nat.mod_eq_of_lt (by omega)]
    omega
  · rw [Nat.mod_eq_of_lt (by omega)]
    omega

theorem cellRead_ringWrite_wp {C : Nat} {r : Ring} (h : Memory.wf C r = true) (v : F64) :
    cellRead (ringWrite C r v).cells r.wp = v := by
  rw [Memory.wf_iff] at h
  rw [ringWrite, cellRead_cellWrite h.1, if_pos rfl]

/-- The newest cell after a write holds the value written. -/
theorem ringCell_ringWrite_one {C : Nat} {r : Ring} (h : Memory.wf C r = true) (v : F64) :
    ringCell C (ringWrite C r v) 1 = v := by
  obtain ⟨-, hwp⟩ := (Memory.wf_iff _ _).mp h
  have hi : ringIndex C (ringWrite C r v).wp 1 = r.wp := by
    rw [ringWrite, ringIndex_succ (k := 0) (by omega), ringIndex, Nat.sub_zero, Nat.add_mod_right, Nat.mod_eq_of_lt hwp]
  rw [ringCell, hi, cellRead_ringWrite_wp h]

/-- Every older cell holds what stood one nearer before the write. -/
theorem ringCell_ringWrite_succ {C k : Nat} {r : Ring} (h : Memory.wf C r = true) (v : F64) (h1 : 1 ≤ k) (hk : k < C) :
    ringCell C (ringWrite C r v) (k + 1) = ringCell C r k := by
  obtain ⟨hcells, hwp⟩ := (Memory.wf_iff _ _).mp h
  rw [ringCell, ringWrite, ringIndex_succ hk, cellRead_cellWrite hcells, if_neg (ringIndex_ne_wp hwp h1 hk), ringCell]

theorem foldl_ringWrite_wf {C : Nat} {r : Ring} (h : Memory.wf C r = true) (ws : List F64) :
    Memory.wf C (ws.foldl (ringWrite C) r) = true := by
  induction ws generalizing r with
  | nil => exact h
  | cons w ws ih => exact ih (ringWrite_wf h)

/-- After any writes into an empty ring the cell `k + 1` behind holds the value that `k` later writes followed, or `+0.0`
(40_delay_line R100). -/
theorem ringCell_foldl_ringWrite {C k : Nat} (ws : List F64) (hk : k < C) :
    ringCell C (ws.foldl (ringWrite C) ⟨[], 0⟩) (k + 1) = ws.reverse.getD k Fp.posZero := by
  induction ws using List.reverseRecOn generalizing k with
  | nil => rfl
  | append_singleton ws w ih =>
    have hwf : Memory.wf C (ws.foldl (ringWrite C) ⟨[], 0⟩) = true :=
      foldl_ringWrite_wf (ringCreate_wf (by omega) C) ws
    rw [List.foldl_concat, List.reverse_concat]
    cases k with
    | zero => exact ringCell_ringWrite_one hwf w
    | succ k =>
      rw [ringCell_ringWrite_succ hwf w (by omega) hk, ih (by omega)]
      rfl

/-- The `k`-th latest of a list of values, counted from its end. -/
theorem getD_reverse_eq_ite {ws : List F64} {k : Nat} (hk : 1 ≤ k) (z : F64) :
    ws.reverse.getD (k - 1) z = if k ≤ ws.length then ws.getD (ws.length - k) z else z := by
  split
  · rw [List.getD_eq_getElem?_getD, List.getElem?_reverse (by omega), List.getD_eq_getElem?_getD]
    congr 2
    omega
  · exact List.getD_eq_default _ _ (by rw [List.length_reverse]; omega)

/-! The fractional read. -/

theorem delayInRange_iff (C : Nat) (d : F64) :
    delayInRange C d = true ↔ Fp.le Fp.posZero d = true ∧ Fp.le d (Fp.ofNat (C - 1)) = true := by
  simp [delayInRange]

theorem ringRead_of_inRange (fr : FpSite → BitVec 53) (k : Nat) {C : Nat} (r : Ring) {d : F64}
    (h : delayInRange C d = true) :
    ringRead fr k C r d =
      .ok (interpolate fr k d (Fp.floor d) (ringCell C r (Fp.floor d)) (ringCell C r (Fp.floor d + 1))) :=
  if_pos h

theorem ringRead_of_not_inRange (fr : FpSite → BitVec 53) (k : Nat) {C : Nat} (r : Ring) {d : F64}
    (h : delayInRange C d = false) : ringRead fr k C r d = .error .delayRange := by
  simp [ringRead, h]

/-- At a whole delay the fraction is zero, so the far cell has weight zero and the near one weight one
(40_delay_line R103 (a)). -/
theorem interpolate_whole (fr : FpSite → BitVec 53) (k : Nat) {n : Nat} {y1 y2 : F64} (hn : n ≤ 2 ^ 53)
    (hnan : Fp.isNaN y1 = false) (hne : Fp.mag y1 ≠ 0) (hfin : Fp.isFinite y2 = true) :
    interpolate fr k (Fp.ofNat n) n y1 y2 = y1 := by
  have hf : Fp.sub (fr (.ringFrac k)) (Fp.ofNat n) (Fp.ofNat n) = Fp.posZero :=
    Fp.sub_self_of_nonneg _ (Fp.ofNat_exact hn).1 (Fp.sign_round _ _ _)
  have hrest : Fp.sub (fr (.ringRest k)) Fp.c1 Fp.posZero = Fp.c1 :=
    Fp.add_of_isZero_right _ (by decide) (by decide) (by decide)
  have hfar : Fp.mag (Fp.mul (fr (.ringFar k)) Fp.posZero y2) = 0 := by
    rw [Fp.mul_of_isZero _ (by decide) hfin, Fp.mag_pack (by norm_num)]
  simp only [interpolate, hf, hrest, Fp.mul_c1_left _ hnan]
  exact Fp.add_of_isZero_left _ hfar hnan hne

/-! A `PROC` whose path cannot read its ring. -/

theorem modModeOf_eq_some_iff {w : Word} {m : ModMode} :
    modModeOf w = some m ↔ (w = 1#64 ∧ m = .mode1) ∨ (w = 2#64 ∧ m = .mode2) := by
  unfold modModeOf
  split
  · next h => simp [h, eq_comm]
  · next h1 =>
    split
    · next h => simp [h, eq_comm]
    · next h2 => simp [h1, h2]

theorem modModeOf_eq_none_iff {w : Word} : modModeOf w = none ↔ ¬(w = 1#64 ∨ w = 2#64) := by
  unfold modModeOf
  split_ifs with h1 h2 <;> simp [*]

/-- The static path is taken when the modulation is off or its mode has none (42_process R142). -/
theorem selectPath_procUnits_eq_none {s : State} {lfo : Option LfoOut}
    (hpath : ¬(s.param.enableMod = true ∧ (s.param.modeSelectorValue = 1#64 ∨ s.param.modeSelectorValue = 2#64)))
    (hl : procLfo Config.hw (Config.freeNan s.nanDraw) s = .ok lfo) : selectPath (procUnits s lfo) lfo = none := by
  cases lfo with
  | none => rfl
  | some o =>
    have hmod : s.param.enableMod = true := by
      by_contra hoff
      simp [procLfo, hoff] at hl
    have hmode : modModeOf (procUnits s (some o)).param.modeSelectorValue = none :=
      modModeOf_eq_none_iff.mpr fun h => hpath ⟨hmod, h⟩
    simp only [selectPath, hmode]

theorem selectPath_eq_some {s : State} {m : ModMode} (o : LfoOut) (h : modModeOf s.param.modeSelectorValue = some m) :
    selectPath s (some o) = some (m, o) := by
  simp only [selectPath, h]

theorem staticPath_of_tapReads_error {fr : FpSite → BitVec 53} {x : F64} {s : State} {c : Cause}
    (h : tapReads fr s = .error c) : staticPath fr x s = .error c := by
  simp only [staticPath, h]

theorem runPath_of_static_error {P : Params} {fr : FpSite → BitVec 53} {x : F64} {sc : Option F64} {lfo : Option LfoOut}
    {s : State} {c : Cause} (hsel : selectPath s lfo = none) (h : staticPath fr x s = .error c) :
    runPath P fr x sc lfo s = .error c := by
  simp only [runPath, hsel, h]

theorem runPath_of_modulated_error {P : Params} {fr : FpSite → BitVec 53} {x : F64} {sc : Option F64}
    {lfo : Option LfoOut} {s : State} {m : ModMode} {o : LfoOut} {c : Cause} (hsel : selectPath s lfo = some (m, o))
    (h : modPath P fr m x o sc s = .error c) : runPath P fr x sc lfo s = .error c := by
  simp only [runPath, hsel, h]

/-- A `PROC` whose path fails ends faulted in the state it found: the steps of its units are discarded. -/
theorem exec_proc_of_path_error {x : F64} {s : State} {lfo : Option LfoOut} {c : Cause} (hc : s.configured = true)
    (hv : s.paramsValid = true) (hl : procLfo Config.hw (Config.freeNan s.nanDraw) s = .ok lfo)
    (h : runPath Config.hw (Config.freeNan s.nanDraw) x (procScDepth Config.hw (Config.freeNan s.nanDraw) s) lfo
      (procUnits s lfo) = .error c) :
    exec (.proc x) s = .next (setFault c s) := by
  have hp : proc Config.hw (Config.freeNan s.nanDraw) x s = .error c := by
    unfold procUnits at h
    simp only [proc, hc, hv, if_true, hl, h]
  show finish s (proc Config.hw (Config.freeNan s.nanDraw) x s) = _
  rw [hp, finish_error]

/-- The LFO's part of a `PROC` answers when the LFO is off or its increment is below one turn. -/
theorem exists_procLfo_eq_ok {P : Params} {fr : FpSite → BitVec 53} {s : State}
    (h : s.param.enableMod = true → Fp.lt (lfoInc fr s.param.modRateHz s.fs) Fp.c1 = true) :
    ∃ lfo, procLfo P fr s = .ok lfo := by
  obtain ⟨-, he⟩ | ⟨hm, hf, -⟩ | ⟨-, -, he⟩ := procLfo_cases P fr s
  · exact ⟨_, he⟩
  · rw [h hm] at hf
    cases hf
  · exact ⟨_, he⟩

theorem ringRead_error_cause {fr : FpSite → BitVec 53} {k C : Nat} {r : Ring} {d : F64} {c : Cause}
    (h : ringRead fr k C r d = .error c) : c = .delayRange := by
  obtain ⟨-, he⟩ | ⟨-, he⟩ := ringRead_cases fr k C r d
  all_goals cases he.symm.trans h
  rfl

theorem tapRead_error_cause {fr : FpSite → BitVec 53} {s : State} {i : Nat} {ms : F64} {c : Cause}
    (h : tapRead fr s i ms = .error c) : c = .delayRange := by
  unfold tapRead at h
  split at h
  · exact ringRead_error_cause h
  · cases h

theorem tapReads_error_cause {fr : FpSite → BitVec 53} {s : State} {c : Cause} (h : tapReads fr s = .error c) :
    c = .delayRange := by
  unfold tapReads at h
  repeat' split at h
  all_goals cases h
  all_goals exact tapRead_error_cause ‹_›

/-- The taps are read when each of the four reads answers. -/
theorem tapRead_of_tapReads {fr : FpSite → BitVec 53} {s : State} {t : Taps} (h : tapReads fr s = .ok t) {i : Nat}
    (hi : i < 4) : tapRead fr s i (s.tapMs.get i) = .ok (t.get i) := by
  unfold tapReads at h
  repeat' split at h
  all_goals cases h
  match i with
  | 0 | 1 | 2 | 3 => assumption

/-- One active tap outside the ring fails the reads, whichever tap it is (40_delay_line R103, 42_process R148). -/
theorem tapReads_of_not_inRange {fr : FpSite → BitVec 53} {s : State} {i : Nat} (hi : i < 4) (hact : i < s.tapCount)
    (h : delayInRange s.ringLen (msToSamples fr i s.spms (s.tapMs.get i)) = false) :
    tapReads fr s = .error .delayRange := by
  cases hr : tapReads fr s with
  | error c => rw [tapReads_error_cause hr]
  | ok t =>
    have hok := tapRead_of_tapReads hr hi
    rw [tapRead, if_pos hact, ringRead_of_not_inRange _ _ _ h] at hok
    cases hok

theorem modPath_of_not_inRange {P : Params} {fr : FpSite → BitVec 53} {m : ModMode} {x : F64} {o : LfoOut}
    {sc : Option F64} {s : State}
    (h : delayInRange s.ringLen (msToSamples fr 4 s.spms (modDelayMs P fr m s.param.modType (modDepth fr s.param sc) o)) =
      false) : modPath P fr m x o sc s = .error .delayRange := by
  simp only [modPath, modTap, ringRead_of_not_inRange _ _ _ h]

end Sys2Proof.Machine

namespace Sys2Proof.Proofs

open Machine

/-- Settles O29: the failing read is the path's only error, and a path's error discards what the units did. -/
theorem procTapOutsideTheRingFaults : Obligations.ProcTapOutsideTheRingFaults := by
  refine ⟨fun x s i hc hv hpath hrate hi hact hout => ?_, fun x s m hc hv hmod hmode => ?_⟩
  · obtain ⟨lfo, hl⟩ := exists_procLfo_eq_ok (P := Config.hw) hrate
    have hstatic : staticPath (Config.freeNan s.nanDraw) x (procUnits s lfo) = .error .delayRange :=
      staticPath_of_tapReads_error (tapReads_of_not_inRange hi hact hout)
    exact exec_proc_of_path_error hc hv hl (runPath_of_static_error (selectPath_procUnits_eq_none hpath hl) hstatic)
  · intro fr inc o hrate hout
    have hl : procLfo Config.hw fr s = .ok (some o) := by
      obtain ⟨hoff, -⟩ | ⟨-, hf, -⟩ | ⟨-, -, he⟩ := procLfo_cases Config.hw fr s
      · cases hmod.symm.trans hoff
      · cases hrate.symm.trans hf
      · exact he
    have hread : modPath Config.hw fr m x o (procScDepth Config.hw fr s) (procUnits s (some o)) = .error .delayRange :=
      modPath_of_not_inRange hout
    exact exec_proc_of_path_error hc hv hl
      (runPath_of_modulated_error (selectPath_eq_some o (modModeOf_eq_some_iff.mpr hmode)) hread)

/-- Settles O42: each write moves the cells one further behind the pointer, by induction on the writes from the last. -/
theorem ringRemembersItsWrites : Obligations.RingRemembersItsWrites := by
  refine ⟨fun C r r0 ws k h0 h1 hk => ?_, fun C r v hwf => ⟨?_, cellRead_ringWrite_wp hwf v⟩⟩
  · have hempty : r0 = ⟨[], 0⟩ := h0.elim id id
    obtain ⟨j, rfl⟩ : ∃ j, k = j + 1 := ⟨k - 1, by omega⟩
    rw [hempty, ringCell_foldl_ringWrite ws hk]
    exact getD_reverse_eq_ite h1 _
  · exact ringIndex_self ((Memory.wf_iff _ _).mp hwf).2

/-- Settles O43: the whole delay is in range, and its read has weight one on the near cell. -/
theorem wholeDelayReadsAPastWrite : Obligations.WholeDelayReadsAPastWrite := by
  intro fr k C r n hC h1 hn hnan hne hfin
  have hrange : delayInRange C (Fp.ofNat n) = true :=
    (delayInRange_iff _ _).mpr ⟨Fp.ofNat_nonneg n, Fp.ofNat_le_ofNat (by omega) (by omega)⟩
  rw [ringRead_of_inRange fr k r hrange, Fp.floor_ofNat (by omega), interpolate_whole fr k (by omega) hnan hne hfin]

/-- Settles O44: the range test is the two comparisons, and a natural up to 2^53 is exact, so `C - 1` bounds the index. -/
theorem readRangeAndIndex : Obligations.ReadRangeAndIndex := by
  refine fun fr k C r d => ⟨fun hlow hhigh => ⟨?_, fun h1 hC => ?_⟩, fun hout => ?_⟩
  · exact ringRead_of_inRange fr k r ((delayInRange_iff C d).mpr ⟨hlow, hhigh⟩)
  · have := Fp.floor_le_of_le_ofNat hlow hhigh (by omega)
    omega
  · refine ringRead_of_not_inRange fr k r ?_
    rcases hout with h | h <;> simp [delayInRange, h]

/-- Settles O45: the fraction keeps the significand's low bits, so the difference needs no rounding. -/
theorem fractionOfADelayIsExact : Obligations.FractionOfADelayIsExact := by
  intro q d hd h0 hf
  obtain ⟨hle, hu⟩ := Fp.sub_floor_exact q hd h0 hf
  have hdm : Fp.floor d * Fp.one1074 + Fp.units d % Fp.one1074 = Fp.units d := Nat.div_add_mod' _ _
  refine ⟨?_, hle, (Fp.lt_iff_mag_lt hle (by decide)).mpr ?_⟩
  · rw [Fp.value_eq_units_of_nonneg hle, hu, Fp.value_eq_units_of_nonneg h0]
    omega
  · refine Fp.unitsOfMag_strictMono.lt_iff_lt.mp ?_
    show Fp.units _ < Fp.units Fp.c1
    rw [hu, Fp.units_c1]
    exact Nat.mod_lt _ Fp.one1074_pos

end Sys2Proof.Proofs
end

section
/-!
PROOFS. The tap resolver (41_tap_resolver): what the tap schedule resolves to, the contract that `SETP` checks, and
`SETP` and `GETP` as inverse moves of the parameter bank.
-/

namespace Sys2Proof.Machine.Fp

/-- Among values that are not negative the order is that of the magnitudes, infinity at the top. -/
theorem le_iff_mag_le {a b : F64} (ha : le posZero a = true) (hb : le posZero b = true) :
    le a b = true ↔ mag a ≤ mag b := by
  rw [le_iff, ordKey_eq_mag_of_nonneg ha, ordKey_eq_mag_of_nonneg hb]
  simp [((le_iff _ _).mp ha).2.1, ((le_iff _ _).mp hb).2.1]

theorem isInf_iff (a : F64) : isInf a = true ↔ mag a = 2047 * 2 ^ 52 := by simp [isInf]

theorem isFinite_or_isInf {a : F64} (h : isNaN a = false) : isFinite a = true ∨ isInf a = true := by
  rw [isNaN_false_iff] at h
  rw [isFinite_iff, isInf_iff]
  exact h.lt_or_eq

/-- A finite value plus an infinity is that infinity. -/
theorem add_of_isInf_right (q : BitVec 53) {a b : F64} (ha : isFinite a = true) (hb : isInf b = true) :
    add q a b = b := by
  have hn : isNaN b = false := (isNaN_false_iff b).mpr ((isInf_iff b).mp hb).le
  simp [add, isNaN_of_isFinite ha, isInf_of_isFinite ha, hn, hb]

/-- A sum of values that are not negative is at least each of them: rounding is monotone and exact on both. -/
theorem add_of_nonneg_ge (q : BitVec 53) {a b : F64} (hfa : isFinite a = true) (ha : le posZero a = true)
    (hb : le posZero b = true) :
    le a (add q a b) = true ∧ le b (add q a b) = true := by
  suffices h : le posZero (add q a b) = true ∧ mag a ≤ mag (add q a b) ∧ mag b ≤ mag (add q a b) by
    obtain ⟨h0, hma, hmb⟩ := h
    exact ⟨(le_iff_mag_le ha h0).mpr hma, (le_iff_mag_le hb h0).mpr hmb⟩
  obtain hfb | hib := isFinite_or_isInf ((le_iff _ _).mp hb).2.1
  · have hv : value a + value b = (units a + units b : Nat) := by
      rw [value_eq_units_of_nonneg ha, value_eq_units_of_nonneg hb, Nat.cast_add]
    obtain ⟨h0, hm⟩ := add_of_value_nonneg q hfa hfb hv
    rw [hm]
    exact ⟨h0, le_roundUnits_of_le one_pos ((isFinite_iff a).mp hfa).le (by rw [units, mul_one]; omega),
      le_roundUnits_of_le one_pos ((isFinite_iff b).mp hfb).le (by rw [units, units, mul_one]; omega)⟩
  · rw [add_of_isInf_right q hfa hib]
    rw [isFinite_iff] at hfa
    rw [isInf_iff] at hib
    exact ⟨hb, by omega, le_rfl⟩

theorem lt_trans_le {a b c : F64} (hab : lt a b = true) (hbc : le b c = true) : lt a c = true := by
  rw [lt_iff] at hab ⊢
  rw [le_iff] at hbc
  exact ⟨hab.1, hbc.2.1, hab.2.2.trans_le hbc.2.2⟩

end Sys2Proof.Machine.Fp

namespace Sys2Proof.Machine

/-! The resolved taps. -/

/-- From one tap to the next: the next is positive and no earlier (41_tap_resolver R126 (b), (c)). -/
def TapRises (a b : F64) : Prop := Fp.lt Fp.posZero b = true ∧ Fp.le a b = true

theorem finitePositive_baseMs {shortMs longMs : F64} (hs : finitePositive shortMs = true)
    (hl : finitePositive longMs = true) (b : Base) : finitePositive (baseMs shortMs longMs b) = true := by
  cases b <;> assumption

/-- One link of the chaining rule (41_tap_resolver R125). -/
theorem tapRises_add (q : BitVec 53) {b acc : F64} (hb : finitePositive b = true) (hacc : Fp.le Fp.posZero acc = true) :
    TapRises acc (Fp.add q b acc) := by
  obtain ⟨hfin, hpos⟩ := (finitePositive_iff b).mp hb
  obtain ⟨hbase, hprev⟩ := Fp.add_of_nonneg_ge q hfin (Fp.le_posZero_of_pos hpos) hacc
  exact ⟨Fp.lt_trans_le hpos hbase, hprev⟩

/-- The chained taps rise, counted from the value they chain on. -/
theorem isChain_chainTaps (fr : FpSite → BitVec 53) {shortMs longMs acc : F64} (hs : finitePositive shortMs = true)
    (hl : finitePositive longMs = true) (i : Nat) (hacc : Fp.le Fp.posZero acc = true) (bs : List Base) :
    (acc :: chainTaps fr shortMs longMs i acc bs).IsChain TapRises := by
  induction bs generalizing i acc with
  | nil => exact .singleton acc
  | cons b bs ih =>
    have hrise := tapRises_add (fr (.chain i)) (finitePositive_baseMs hs hl b) hacc
    exact .cons_cons hrise (ih (i + 1) (Fp.le_posZero_of_pos hrise.1))

theorem get_tapsOfList {ts : List F64} (hlen : ts.length ≤ 4) {i : Nat} (h : i < ts.length) :
    (tapsOfList ts).get i = ts[i] := by
  rw [← List.getD_eq_getElem ts Fp.posZero h]
  match i with
  | 0 | 1 | 2 | 3 => rfl
  | _ + 4 => omega

/-- Taps that rise from `+0.0` are positive and never falling, read one by one. -/
theorem get_tapsOfList_of_isChain {ts : List F64} (hlen : ts.length ≤ 4) (h : (Fp.posZero :: ts).IsChain TapRises)
    (i : Nat) :
    (i < ts.length → Fp.lt Fp.posZero ((tapsOfList ts).get i) = true) ∧
    (i + 1 < ts.length → Fp.le ((tapsOfList ts).get i) ((tapsOfList ts).get (i + 1)) = true) := by
  refine ⟨fun hi => ?_, fun hi => ?_⟩
  · rw [get_tapsOfList hlen hi]
    exact (h.getElem i (Nat.succ_lt_succ hi)).1
  · rw [get_tapsOfList hlen (Nat.lt_of_succ_lt hi), get_tapsOfList hlen hi]
    exact (h.getElem (i + 1) (Nat.succ_lt_succ hi)).2

/-- The first tap is its base: nothing chains before it (41_tap_resolver R125). -/
theorem add_posZero_of_finitePositive (q : BitVec 53) {b : F64} (h : finitePositive b = true) :
    Fp.add q b Fp.posZero = b := by
  obtain ⟨hfin, hpos⟩ := (finitePositive_iff b).mp h
  have hmag := (Fp.lt_iff_mag_lt (by decide) (Fp.le_posZero_of_pos hpos)).mp hpos
  exact Fp.add_of_isZero_right q hfin (by decide) (Nat.ne_zero_of_lt hmag)

/-! The contract of a packet. -/

theorem modTypeCode_le_two_iff (w : Word) : w.toNat ≤ 2 ↔ w = 0#64 ∨ w = 1#64 ∨ w = 2#64 := by
  constructor <;> intro h <;> bv_omega

theorem flagsReservedZero_iff (w : Word) : flagsReservedZero w = true ↔ w.extractLsb' 2 62 = 0#62 := by
  refine ⟨fun h => extractLsb'_eq_zero_of_ushiftRight (beq_iff_eq.mp h), fun h => beq_iff_eq.mpr ?_⟩
  have hhigh := congrArg BitVec.toNat h
  have hw := w.isLt
  apply BitVec.eq_of_toNat_eq
  simp only [BitVec.extractLsb'_toNat, BitVec.toNat_ushiftRight, BitVec.ofNat_eq_ofNat, BitVec.toNat_ofNat,
    Nat.shiftRight_eq_div_pow] at hhigh ⊢
  omega

/-- The checks of `Validate`, one by one (41_tap_resolver R128). -/
theorem validate_iff (pk : Packet) :
    validate pk = true ↔
      Fp.le Fp.posZero pk.feedbackPct = true ∧ Fp.le pk.feedbackPct Fp.c100 = true ∧
      Fp.le Fp.posZero pk.blend = true ∧ Fp.le pk.blend Fp.c1 = true ∧
      1 ≤ pk.modeSelectorValue.toNat ∧ pk.modeSelectorValue.toNat ≤ 14 ∧
      Fp.isFinite pk.delayTimeShortMs = true ∧ Fp.lt Fp.posZero pk.delayTimeShortMs = true ∧
      Fp.isFinite pk.delayTimeLongMs = true ∧ Fp.lt Fp.posZero pk.delayTimeLongMs = true ∧
      Fp.le Fp.posZero pk.modDepthPct = true ∧ Fp.le pk.modDepthPct Fp.c100 = true ∧
      Fp.isFinite pk.modRateHz = true ∧ Fp.lt Fp.posZero pk.modRateHz = true ∧
      (pk.modType = 0#64 ∨ pk.modType = 1#64 ∨ pk.modType = 2#64) ∧ pk.flags.extractLsb' 2 62 = 0#62 := by
  simp only [validate, within, Bool.and_eq_true, decide_eq_true_eq, finitePositive_iff, modTypeCode_le_two_iff,
    flagsReservedZero_iff, and_assoc]

/-! The bank and its packet. -/

theorem modTypeOfWord_modTypeWord (t : ModType) : modTypeOfWord (modTypeWord t) = t := by
  cases t <;> rfl

theorem getLsbD_flagsWord (m c : Bool) : (flagsWord m c).getLsbD 0 = m ∧ (flagsWord m c).getLsbD 1 = c := by
  cases m <;> cases c <;> decide

/-- Every bank is the bank of its packet (41_tap_resolver R130). -/
theorem bankOfPacket_packetOfBank (p : ParamBank) : bankOfPacket (packetOfBank p) = p := by
  obtain ⟨hmod, hsc⟩ := getLsbD_flagsWord p.enableMod p.enableSidechain
  simp only [bankOfPacket, packetOfBank, modTypeOfWord_modTypeWord, hmod, hsc]

/-- Loading the bank and the taps that a state holds changes nothing. -/
theorem loadParams_self {s : State} (h : s.paramsValid = true) : loadParams s.param s.tapCount s.tapMs s = s := by
  simp only [loadParams, ← h]

theorem exec_getp_of_not_paramsValid {s : State} (h : s.paramsValid = false) :
    exec .getp s = .next (setFault .noParams s) := by
  simp [exec, execGetp, getp, h]

/-- `SETP` of the packet of the bank in force changes nothing. -/
theorem exec_setp_packetOfBank {s : State} (hv : s.paramsValid = true) (hs : ParamsGood s) :
    exec (.setp (packetOfBank s.param)) s = .next s := by
  have hres : resolve Config.hw fixedNan (packetOfBank s.param).modeSelectorValue (packetOfBank s.param).delayTimeShortMs
      (packetOfBank s.param).delayTimeLongMs = (s.tapCount, s.tapMs) := hs.resolved.symm
  rw [exec_setp_of_validate hs.inContract, bankOfPacket_packetOfBank, hres, loadParams_self hv]

end Sys2Proof.Machine

namespace Sys2Proof.Proofs

open Machine

/-- Settles O16: `SETP` completes exactly when `Validate` passes, and a refusal only records the fault. -/
theorem setpChecksTheContract : Obligations.SetpChecksTheContract := by
  intro pk s t hf h
  suffices hout : (validate pk = true ↔ t.fault = false) ∧ (t.fault = true → t = setFault .paramRange s) from
    ⟨(validate_iff pk).symm.trans hout.1, hout.2⟩
  cases hv : validate pk with
  | false =>
    cases (exec_setp_of_not_validate hv s).symm.trans h
    exact ⟨by simp, fun _ => rfl⟩
  | true =>
    cases (exec_setp_of_validate hv s).symm.trans h
    simp [hf]

/-- Settles O17: the bank in force is in contract and resolved, and it is the bank of its own packet. -/
theorem getpThenSetpChangesNothing : Obligations.GetpThenSetpChangesNothing := by
  intro s hv hs
  exact ⟨packetOfBank s.param, _, exec_getp_of_paramsValid hv, rfl,
    exec_setp_packetOfBank (s := returnWords _ s) hv (hs.of_eq rfl rfl rfl)⟩

/-- Settles O18: the bank keeps every bit of an in-contract packet. -/
theorem getpReturnsTheLastPacket : Obligations.GetpReturnsTheLastPacket := by
  intro pk s t hpk h
  cases (exec_setp_of_validate hpk s).symm.trans h
  rw [exec_getp_of_paramsValid rfl, loadParams_param, packetOfBank_bankOfPacket hpk]
  rfl

/-- Settles O20: rows 1 and 14 do not read the OPEN rows, and the first tap chains on `+0.0`. -/
theorem fixedScheduleRows : Obligations.FixedScheduleRows := by
  intro P fr shortMs longMs hs hl
  have hshort := add_posZero_of_finitePositive (fr (.chain 0)) hs
  have hlong := add_posZero_of_finitePositive (fr (.chain 0)) hl
  have h1 : schedRow P 1#64 = .one .short := rfl
  have h14 : schedRow P 14#64 = .four .long .long .long .long := rfl
  refine ⟨h1, h14, ?_, ?_⟩
  · simp only [resolve, h1, rowSources, chainTaps, baseMs, hshort]
    rfl
  · simp only [resolve, h14, rowSources, chainTaps, baseMs, hlong]
    rfl

/-- Settles O21: each active tap is a positive base on top of the tap before it. -/
theorem resolvedTapProperties : Obligations.ResolvedTapProperties := by
  intro P fr mode shortMs longMs hs hl
  obtain ⟨hlow, hhigh⟩ := length_rowSources_bounds (schedRow P mode)
  have hchain := isChain_chainTaps fr hs hl 0 (acc := Fp.posZero) (by decide) (rowSources (schedRow P mode))
  have hlen := length_chainTaps fr shortMs longMs 0 Fp.posZero (rowSources (schedRow P mode))
  have hget := get_tapsOfList_of_isChain (hlen.trans_le hhigh) hchain
  refine ⟨hlow, hhigh, fun i => ⟨fun hi => get_tapsOfList_of_length_le (hlen.trans_le hi), ?_⟩⟩
  rw [hlen] at hget
  exact hget i

/-- Settles O15: an in-contract packet is loaded with its resolution. -/
theorem setpCompletes : Obligations.SetpCompletes :=
  fun _ s hpk => exec_setp_of_validate hpk s

/-- Settles O19: `PARAMS_VALID` alone decides between the packet and the fault. -/
theorem getpCompletes : Obligations.GetpCompletes :=
  fun _ => ⟨exec_getp_of_paramsValid, exec_getp_of_not_paramsValid⟩

end Sys2Proof.Proofs
end

section
/-!
PROOFS. `PROC` (42_process): its guards, the whole next state and the frame of each path, and the static path's arithmetic at
the special parameter values.
-/

namespace Sys2Proof.Machine.Fp

/-! Operands that change nothing. -/

/-- A zero divided by a finite value that is no zero is a zero. -/
theorem mag_div_of_isZero (q : BitVec 53) {a b : F64} (ha : mag a = 0) (hb : isFinite b = true) (hne : mag b ≠ 0) :
    mag (div q a b) = 0 := by
  have haf : isFinite a = true := by rw [isFinite_iff, ha]; norm_num
  have hbz : isZero b = false := by simp [isZero, hne]
  have hub : 0 < units b := Nat.pos_of_ne_zero (mt (units_eq_zero_iff b).mp hne)
  rw [div_of_isFinite q haf hb hbz, (units_eq_zero_iff a).mpr ha, Nat.zero_mul, mag_round, roundUnits_zero hub]

theorem mag_mul_of_isZero (q : BitVec 53) {a b : F64} (ha : mag a = 0) (hb : isFinite b = true) :
    mag (mul q a b) = 0 := by
  rw [mul_of_isZero q ha hb, mag_pack (by norm_num)]

/-- An infinity plus a finite value is that infinity. -/
theorem add_of_isInf_left (q : BitVec 53) {a b : F64} (ha : isInf a = true) (hb : isFinite b = true) :
    add q a b = a := by
  have hn : isNaN a = false := (isNaN_false_iff a).mpr ((isInf_iff a).mp ha).le
  simp [add, hn, ha, isNaN_of_isFinite hb, isInf_of_isFinite hb]

/-- A value that is no zero and no NaN plus a zero is that value, an infinity too. -/
theorem add_of_isZero_right_of_not_isNaN (q : BitVec 53) {a b : F64} (ha : isNaN a = false) (hb : mag b = 0)
    (hne : mag a ≠ 0) : add q a b = a := by
  obtain hfin | hinf := isFinite_or_isInf ha
  · exact add_of_isZero_right q hfin hb hne
  · exact add_of_isInf_left q hinf (by rw [isFinite_iff, hb]; norm_num)

/-! The partial sums of the feedback weights (42_process R145). -/

theorem add_c0p05_c0p10 (q : BitVec 53) : add q c0p05 c0p10 = 0x3FC3333333333334#64 := by
  rw [add_of_isFinite q (by decide) (by decide)]
  decide +kernel

theorem add_c0p15_c0p25 (q : BitVec 53) : add q 0x3FC3333333333334#64 c0p25 = 0x3FD999999999999A#64 := by
  rw [add_of_isFinite q (by decide) (by decide)]
  decide +kernel

theorem add_c0p40_c0p60 (q : BitVec 53) : add q 0x3FD999999999999A#64 c0p60 = c1 := by
  rw [add_of_isFinite q (by decide) (by decide)]
  decide +kernel

end Sys2Proof.Machine.Fp

namespace Sys2Proof.Machine

/-! The ring's cells. -/

theorem cellRead_cellErase_of_ne (cs : List (Nat × F64)) {i j : Nat} (h : i ≠ j) :
    cellRead (cellErase cs j) i = cellRead cs i := by
  induction cs with
  | nil => rfl
  | cons p cs ih =>
    obtain ⟨k, v⟩ := p
    simp only [cellErase]
    split
    · next hjk => rw [cellRead, if_neg (hjk ▸ h)]
    · simp only [cellRead, ih]

/-- A ring write changes no cell but the one at the pointer, whether or not the cells are in canonical form. -/
theorem cellRead_ringWrite_of_ne (C : Nat) (r : Ring) (v : F64) {j : Nat} (h : j ≠ r.wp) :
    cellRead (ringWrite C r v).cells j = cellRead r.cells j := by
  simp only [ringWrite, cellWrite]
  split
  · exact cellRead_cellErase_of_ne _ h
  · rw [cellRead_cellInsert, if_neg h]

/-! The units of a `PROC`. -/

theorem procLfo_of_enableMod {P : Params} {fr : FpSite → BitVec 53} {s : State} (hm : s.param.enableMod = true)
    (hrate : Fp.lt (lfoInc fr s.param.modRateHz s.fs) Fp.c1 = true) :
    procLfo P fr s = .ok (some ⟨lfoWave P s.lfoPhase, unipolar fr (lfoWave P s.lfoPhase),
      advancePhase fr s.lfoPhase (lfoInc fr s.param.modRateHz s.fs)⟩) := by
  obtain ⟨hoff, -⟩ | ⟨-, hf, -⟩ | ⟨-, -, he⟩ := procLfo_cases P fr s
  · cases hm.symm.trans hoff
  · cases hrate.symm.trans hf
  · exact he

/-- The LFO answers samples exactly when the modulation is enabled (43_modulation R171). -/
theorem isSome_of_procLfo {P : Params} {fr : FpSite → BitVec 53} {s : State} {lfo : Option LfoOut}
    (hl : procLfo P fr s = .ok lfo) : lfo.isSome = s.param.enableMod := by
  obtain ⟨hm, he⟩ | ⟨-, -, he⟩ | ⟨hm, -, he⟩ := procLfo_cases P fr s
  all_goals cases he.symm.trans hl
  all_goals exact hm.symm

/-- The phase a `PROC` leaves (43_modulation R170, R171). -/
theorem procPhase_eq {P : Params} {fr : FpSite → BitVec 53} {s : State} {lfo : Option LfoOut}
    (hl : procLfo P fr s = .ok lfo) :
    procPhase s lfo =
      if s.param.enableMod = true then advancePhase fr s.lfoPhase (lfoInc fr s.param.modRateHz s.fs) else s.lfoPhase := by
  obtain ⟨hm, he⟩ | ⟨-, -, he⟩ | ⟨hm, -, he⟩ := procLfo_cases P fr s
  all_goals cases he.symm.trans hl
  · simp [procPhase, hm]
  · simp [procPhase, hm]

theorem procEnv_of_not_enableSidechain (P : Params) (fr : FpSite → BitVec 53) {s : State}
    (h : s.param.enableSidechain = false) : procEnv P fr s = s.detEnv := by
  simp [procEnv, h]

/-- The modulated path is taken when the modulation is on in a mode that has it (42_process R142). -/
theorem selectPath_procUnits_ne_none {s : State} {lfo : Option LfoOut} (hm : s.param.enableMod = true)
    (hmode : s.param.modeSelectorValue = 1#64 ∨ s.param.modeSelectorValue = 2#64)
    (hl : procLfo Config.hw (Config.freeNan s.nanDraw) s = .ok lfo) : selectPath (procUnits s lfo) lfo ≠ none := by
  obtain ⟨o, rfl⟩ := Option.isSome_iff_exists.mp ((isSome_of_procLfo hl).trans hm)
  obtain ⟨m, hsome⟩ := Option.ne_none_iff_exists'.mp (mt modModeOf_eq_none_iff.mp (not_not.mpr hmode))
  rw [selectPath_eq_some (s := procUnits s (some o)) o hsome]
  nofun

/-- The state a `PROC` on the static path ends in, as one update of the state it found (42_process R140). -/
theorem endStatic_procUnits_eq (y : F64) (r : Ring) (s : State) (lfo : Option LfoOut) :
    returnWords [y] (nextDraw (endStatic r (procUnits s lfo))) =
      { s with
        detEnv := procEnv Config.hw (Config.freeNan s.nanDraw) s
        lfoPhase := procPhase s lfo
        sRing := r
        lastPath := .static
        hostOut := s.hostOut ++ [y]
        nanDraw := s.nanDraw.next } := by
  simp only [returnWords, nextDraw, endStatic, procUnits, stepUnits, setLfoPhase, setDetEnv]

/-- The state a `PROC` on the modulated path ends in, as one update of the state it found (42_process R140). -/
theorem endModulated_procUnits_eq (y : F64) (r : Ring) (s : State) (lfo : Option LfoOut) :
    returnWords [y] (nextDraw (endModulated r (procUnits s lfo))) =
      { s with
        detEnv := procEnv Config.hw (Config.freeNan s.nanDraw) s
        lfoPhase := procPhase s lfo
        mRing := r
        lastPath := .modulated
        hostOut := s.hostOut ++ [y]
        nanDraw := s.nanDraw.next } := by
  simp only [returnWords, nextDraw, endModulated, procUnits, stepUnits, setLfoPhase, setDetEnv]

/-! The taps of the static path. -/

theorem tapRead_of_active {fr : FpSite → BitVec 53} {s : State} {i : Nat} (h : i < s.tapCount) (ms : F64) :
    tapRead fr s i ms = ringRead fr i s.ringLen s.sRing (msToSamples fr i s.spms ms) :=
  if_pos h

theorem tapRead_of_inactive {fr : FpSite → BitVec 53} {s : State} {i : Nat} (h : s.tapCount ≤ i) (ms : F64) :
    tapRead fr s i ms = .ok Fp.posZero :=
  if_neg (Nat.not_lt.mpr h)

/-- A tap that cannot be read is active and outside the ring. -/
theorem not_inRange_of_tapRead_error {fr : FpSite → BitVec 53} {s : State} {i : Nat} {ms : F64} {c : Cause}
    (h : tapRead fr s i ms = .error c) :
    i < s.tapCount ∧ delayInRange s.ringLen (msToSamples fr i s.spms ms) = false := by
  obtain hact | hin := Nat.lt_or_ge i s.tapCount
  · rw [tapRead_of_active hact] at h
    obtain ⟨-, he⟩ | ⟨hout, -⟩ := ringRead_cases fr i s.ringLen s.sRing (msToSamples fr i s.spms ms)
    · cases he.symm.trans h
    · exact ⟨hact, hout⟩
  · cases (tapRead_of_inactive hin ms).symm.trans h

theorem exists_tapRead_error {fr : FpSite → BitVec 53} {s : State} {c : Cause} (h : tapReads fr s = .error c) :
    ∃ i, i < 4 ∧ tapRead fr s i (s.tapMs.get i) = .error c := by
  unfold tapReads at h
  repeat' split at h
  all_goals cases h
  · exact ⟨0, by omega, ‹_›⟩
  · exact ⟨1, by omega, ‹_›⟩
  · exact ⟨2, by omega, ‹_›⟩
  · exact ⟨3, by omega, ‹_›⟩

/-- The taps are read when every active one lies in the ring (42_process R143). -/
theorem exists_tapReads_eq_ok {fr : FpSite → BitVec 53} {s : State}
    (h : ∀ i, i < 4 → i < s.tapCount → delayInRange s.ringLen (msToSamples fr i s.spms (s.tapMs.get i)) = true) :
    ∃ t, tapReads fr s = .ok t := by
  cases hr : tapReads fr s with
  | ok t => exact ⟨t, rfl⟩
  | error c =>
    obtain ⟨i, hi, he⟩ := exists_tapRead_error hr
    obtain ⟨hact, hout⟩ := not_inRange_of_tapRead_error he
    cases (h i hi hact).symm.trans hout

/-! A `PROC` that ends. -/

theorem exec_proc_of_not_configured (x : F64) {s : State} (h : s.configured = false) :
    exec (.proc x) s = .next (setFault .unconfigured s) := by
  simp [exec, execProc, proc, h]

theorem exec_proc_of_not_paramsValid (x : F64) {s : State} (hc : s.configured = true) (hv : s.paramsValid = false) :
    exec (.proc x) s = .next (setFault .noParams s) := by
  simp [exec, execProc, proc, hc, hv]

theorem exec_proc_of_runPath {x y : F64} {s u : State} {lfo : Option LfoOut} (hc : s.configured = true)
    (hv : s.paramsValid = true) (hl : procLfo Config.hw (Config.freeNan s.nanDraw) s = .ok lfo)
    (h : runPath Config.hw (Config.freeNan s.nanDraw) x (procScDepth Config.hw (Config.freeNan s.nanDraw) s) lfo
      (procUnits s lfo) = .ok (y, u)) :
    exec (.proc x) s = .next (returnWords [y] (nextDraw u)) := by
  have hp : proc Config.hw (Config.freeNan s.nanDraw) x s = .ok ([y], nextDraw u) :=
    proc_eq_ok_iff.mpr ⟨hc, hv, lfo, y, u, hl, h, rfl, rfl⟩
  show finish s (proc Config.hw (Config.freeNan s.nanDraw) x s) = _
  rw [hp, finish_ok]

/-- A `PROC` on the static path whose taps are read (42_process R148). The units' steps are no operands of the path. -/
theorem exec_proc_static {x : F64} {s : State} {lfo : Option LfoOut} {t : Taps} (hc : s.configured = true)
    (hv : s.paramsValid = true) (hl : procLfo Config.hw (Config.freeNan s.nanDraw) s = .ok lfo)
    (hsel : selectPath (procUnits s lfo) lfo = none) (ht : tapReads (Config.freeNan s.nanDraw) s = .ok t) :
    exec (.proc x) s = .next (returnWords [staticOut (Config.freeNan s.nanDraw) s.param x t]
      (nextDraw (endStatic (ringWrite s.ringLen s.sRing (staticIn (Config.freeNan s.nanDraw) s.param x t))
        (procUnits s lfo)))) :=
  exec_proc_of_runPath hc hv hl
    (runPath_eq_ok_iff.mpr (.inr ⟨_, hsel, staticPath_eq_ok_iff.mpr ⟨t, ht, rfl, rfl⟩, rfl⟩))

/-- A `PROC` on the modulated path whose tap is read (43_modulation R179, R180). -/
theorem exec_proc_modulated {x yd : F64} {s : State} {m : ModMode} {o : LfoOut} (hc : s.configured = true)
    (hv : s.paramsValid = true) (hl : procLfo Config.hw (Config.freeNan s.nanDraw) s = .ok (some o))
    (hm : modModeOf s.param.modeSelectorValue = some m)
    (hyd : ringRead (Config.freeNan s.nanDraw) 4 s.ringLen s.mRing (msToSamples (Config.freeNan s.nanDraw) 4 s.spms
      (modDelayMs Config.hw (Config.freeNan s.nanDraw) m s.param.modType (modDepth (Config.freeNan s.nanDraw) s.param
        (procScDepth Config.hw (Config.freeNan s.nanDraw) s)) o)) = .ok yd) :
    exec (.proc x) s = .next (returnWords [modTapOut Config.hw (Config.freeNan s.nanDraw) s.param.modType x yd]
      (nextDraw (endModulated (ringWrite s.ringLen s.mRing
        (modTapIn Config.hw (Config.freeNan s.nanDraw) s.param.modType x yd)) (procUnits s (some o))))) :=
  exec_proc_of_runPath hc hv hl (runPath_eq_ok_iff.mpr (.inl ⟨m, o, _, selectPath_eq_some o hm,
    modTap_eq_ok_iff.mpr ⟨yd, hyd, rfl, rfl⟩, rfl⟩))

/-! The modulated path's choices, by the Flanger and by the sidechain. -/

theorem modDepth_procScDepth (P : Params) (fr : FpSite → BitVec 53) (s : State) :
    modDepth fr s.param (procScDepth P fr s) =
      if s.param.enableSidechain = true then scDepth P fr (detStepDb P fr (procEnv P fr s))
      else paramDepth fr s.param.modType s.param.modDepthPct := by
  unfold procScDepth
  split <;> rfl

theorem paramDepth_eq (fr : FpSite → BitVec 53) (t : ModType) (pct : F64) :
    paramDepth fr t pct =
      if t = .flanger then Fp.mul (fr .depthDouble) (Fp.div (fr .depthScale) pct Fp.c200) Fp.c2
      else Fp.div (fr .depthScale) pct Fp.c200 := by
  cases t <;> simp [paramDepth]

theorem modDelayMs_eq (P : Params) (fr : FpSite → BitVec 53) (m : ModMode) (t : ModType) (depth : F64) (o : LfoOut) :
    modDelayMs P fr m t depth o =
      if t = .flanger then delayUni fr (modMin P m t) (modRng P m t) depth o.u
      else delayBi fr (modMin P m t) (modRng P m t) depth o.b := by
  cases t <;> simp [modDelayMs]

theorem modFbPct_eq (P : Params) (t : ModType) :
    modFbPct P t = if t = .flanger then flangerFbPct P else Fp.posZero := by
  cases t <;> simp [modFbPct]

end Sys2Proof.Machine

namespace Sys2Proof.Proofs

open Machine

/-- Settles O26: every active tap is read, and the units' steps and the path's results are those of the rules. -/
theorem procStaticCompletes : Obligations.ProcStaticCompletes := by
  intro x s hc hv hpath hrate hrange
  obtain ⟨lfo, hl⟩ := exists_procLfo_eq_ok (P := Config.hw) hrate
  obtain ⟨t, ht⟩ := exists_tapReads_eq_ok hrange
  have hexec := exec_proc_static (x := x) hc hv hl (selectPath_procUnits_eq_none hpath hl) ht
  rw [endStatic_procUnits_eq, procPhase_eq hl] at hexec
  refine ⟨t, fun i hi hact => ?_, fun i hi hin => ?_, hexec⟩
  · exact (tapRead_of_active hact _).symm.trans (tapRead_of_tapReads ht hi)
  · exact (Except.ok.inj ((tapRead_of_inactive hin _).symm.trans (tapRead_of_tapReads ht hi))).symm

/-- Settles O27: the modulated delay, the depth and the feedback are chosen by `modType` and the sidechain as the rules have
them, and the one read answers. -/
theorem procModulatedCompletes : Obligations.ProcModulatedCompletes := by
  intro x s m hc hv hmod hmode fr inc p phase b u a v e env r dB lin sc d depth mMin mRng half delayMs hrate hrange
  have hl := procLfo_of_enableMod (P := Config.hw) hmod hrate
  have hdelay : modDelayMs Config.hw fr m s.param.modType (modDepth fr s.param (procScDepth Config.hw fr s))
      ⟨b, u, phase⟩ = delayMs := by
    rw [modDelayMs_eq, modDepth_procScDepth, paramDepth_eq]
    rfl
  obtain ⟨yd, hread⟩ : ∃ yd, ringRead fr 4 s.ringLen s.mRing (msToSamples fr 4 s.spms delayMs) = .ok yd :=
    ⟨_, ringRead_of_inRange fr 4 s.mRing hrange⟩
  have hexec := exec_proc_modulated (x := x) (o := ⟨b, u, phase⟩) hc hv hl (modModeOf_eq_some_iff.mpr hmode)
    (by rw [hdelay]; exact hread)
  rw [endModulated_procUnits_eq, modTapIn, modFbPct_eq] at hexec
  exact ⟨yd, hread, hexec⟩

/-- Settles O30: a fault leaves the rest, and the static path writes the cell at `S_WP` alone. -/
theorem procStaticFrame : Obligations.ProcStaticFrame := by
  intro x s t h hpath
  obtain ⟨c, rfl⟩ | hc := exec_cases h
  · simp
  · cases hc with
    | procStatic _ _ hl _ hring =>
      obtain ⟨ts, -, -, rfl⟩ := staticPath_eq_ok_iff.mp hring
      rw [endStatic_procUnits_eq, procPhase_eq hl]
      refine ⟨fun _ => rfl, rfl, fun j hj => cellRead_ringWrite_of_ne _ _ _ hj, fun hoff => ?_,
        procEnv_of_not_enableSidechain _ _, ?_⟩
      · simp [hoff]
      · simp
    | procModulated _ _ hl hsel _ => cases (selectPath_procUnits_eq_none hpath hl).symm.trans hsel

/-- Settles O31: a fault leaves the rest, and the modulated path writes the cell at `M_WP` alone. -/
theorem procModulatedFrame : Obligations.ProcModulatedFrame := by
  intro x s t h hmod hmode
  obtain ⟨c, rfl⟩ | hc := exec_cases h
  · simp
  · cases hc with
    | procStatic _ _ hl hsel _ => exact absurd hsel (selectPath_procUnits_ne_none hmod hmode hl)
    | procModulated _ _ _ _ hring =>
      obtain ⟨yd, -, -, rfl⟩ := modTap_eq_ok_iff.mp hring
      rw [endModulated_procUnits_eq]
      refine ⟨fun _ => rfl, rfl, fun j hj => cellRead_ringWrite_of_ne _ _ _ hj, procEnv_of_not_enableSidechain _ _, ?_⟩
      simp

/-- Settles O37: adding the zeros of the inactive taps changes nothing, and the quotient is by 4 whatever the tap count. -/
theorem averageDividesByFour : Obligations.AverageDividesByFour := by
  intro fr V hfin hne
  have hzero : ∀ q, Fp.add q V Fp.posZero = V := fun q => Fp.add_of_isZero_right q hfin (by decide) hne
  simp only [tapAverage, hzero]
  rfl

/-- Settles O39: a zero feedback gain scales the finite sum to a zero, which changes no input. -/
theorem zeroFeedbackWritesTheDryInput : Obligations.ZeroFeedbackWritesTheDryInput := by
  intro fr p x t hfb hsum hnan hne
  have hgain := Fp.mag_div_of_isZero (fr .fbGain) hfb (b := Fp.c100) (by decide) (by decide)
  exact Fp.add_of_isZero_right_of_not_isNaN _ hnan (Fp.mag_mul_of_isZero _ hgain hsum) hne

/-- Settles O40: the wet term is a zero and the dry weight is exactly `1.0`. -/
theorem blendZeroIsDry : Obligations.BlendZeroIsDry := by
  intro fr p x t hblend havg hnan hne
  have hweight : Fp.sub (fr .dryWeight) Fp.c1 0x0000000000000000#64 = Fp.c1 :=
    Fp.add_of_isZero_right _ (by decide) (by decide) (by decide)
  have hwet := Fp.mag_mul_of_isZero (fr .wetTerm) (a := 0x0000000000000000#64) (by decide) havg
  rw [staticOut, hblend, hweight, Fp.mul_c1_left _ hnan]
  exact Fp.add_of_isZero_left _ hwet hnan hne

/-- Settles O41: the wet weight is `1.0` and the dry weight exactly `+0.0`. -/
theorem blendOneIsTheAverage : Obligations.BlendOneIsTheAverage := by
  intro fr p x t hblend hnan hne hx
  have hweight : Fp.sub (fr .dryWeight) Fp.c1 Fp.c1 = Fp.posZero := Fp.sub_self_of_nonneg _ (by decide) (by decide)
  have hone : p.blend = Fp.c1 := hblend
  rw [staticOut, hone, hweight, Fp.mul_c1_left _ hnan]
  exact Fp.add_of_isZero_right_of_not_isNaN _ hnan (Fp.mag_mul_of_isZero _ (by decide) hx) hne

/-- Settles O25: the two guards of `PROC`, in their order. -/
theorem procNeedsResetAndParameters : Obligations.ProcNeedsResetAndParameters :=
  fun x _ => ⟨exec_proc_of_not_configured x, exec_proc_of_not_paramsValid x⟩

/-- Settles O38: the partial sums, each rounded to the binary64 shown. -/
theorem feedbackWeightsSumToOne : Obligations.FeedbackWeightsSumToOne := by
  intro fr
  rw [Fp.add_c0p05_c0p10, Fp.add_c0p15_c0p25, Fp.add_c0p40_c0p60]
  rfl

/-- Settles O49: no element that a path reads is among the other path's parameters. -/
theorem pathsIgnoreEachOthersParameters : Obligations.PathsIgnoreEachOthersParameters :=
  ⟨fun _ _ _ _ _ _ _ => rfl, fun _ _ _ _ _ _ _ _ _ _ _ _ _ => rfl⟩

end Sys2Proof.Proofs
end

section
/-!
PROOFS. Modulation (43_modulation): the order of rounded sums and of scaled values, and from it the delays' range and their
value at depth zero; a `PROC` whose LFO is too fast, and one whose depth the sidechain overrides.
-/

namespace Sys2Proof.Machine.Fp

/-! Sums, in order. -/

/-- The order key of the binary64 nearest to a whole number of units. -/
def roundKey : Int → Int
  | .ofNat n => roundUnits n 1
  | .negSucc n => -(roundUnits (n + 1) 1 : Int)

theorem roundKey_mono {v w : Int} (h : v ≤ w) : roundKey v ≤ roundKey w := by
  have hmono : ∀ {m n : Nat}, m ≤ n → roundUnits m 1 ≤ roundUnits n 1 := fun hmn =>
    roundUnits_mono one_pos one_pos (Nat.mul_le_mul_right 1 hmn)
  match v, w with
  | .ofNat m, .ofNat n =>
    have := hmono (Int.ofNat_le.mp h)
    simp only [roundKey]
    omega
  | .ofNat m, .negSucc n => exact absurd (h.trans_lt (Int.negSucc_lt_zero n)) (Int.natCast_nonneg m).not_gt
  | .negSucc m, .ofNat n => simp only [roundKey]; omega
  | .negSucc m, .negSucc n =>
    have := hmono (show n + 1 ≤ m + 1 by omega)
    simp only [roundKey]
    omega

theorem ordKey_round (s : Bool) (n d : Nat) :
    ordKey (round s n d) = if s then -(roundUnits n d : Int) else (roundUnits n d : Int) := by
  rw [ordKey, sign_round, mag_round]

/-- A sum of finite values is no NaN, and its place in the order is that of the rounded exact sum. -/
theorem ordKey_add (q : BitVec 53) {a b : F64} (ha : isFinite a = true) (hb : isFinite b = true) :
    isNaN (add q a b) = false ∧ ordKey (add q a b) = roundKey (value a + value b) := by
  rw [add_of_isFinite q ha hb]
  generalize value a + value b = v
  split
  · next h0 =>
    have hkey : roundKey 0 = 0 := by simp [roundKey]
    rw [h0, hkey]
    split <;> decide
  · refine ⟨isNaN_round _ _ _, ?_⟩
    rw [ordKey_round]
    cases v with
    | ofNat n => simp [roundKey]
    | negSucc n => simp [roundKey]

/-- Sums of finite values compare as the exact sums do, whatever each rounds to. -/
theorem add_le_add_of_value_le (q q' : BitVec 53) {a b c d : F64} (ha : isFinite a = true) (hb : isFinite b = true)
    (hc : isFinite c = true) (hd : isFinite d = true) (h : value a + value b ≤ value c + value d) :
    le (add q a b) (add q' c d) = true := by
  obtain ⟨hn, hk⟩ := ordKey_add q ha hb
  obtain ⟨hn', hk'⟩ := ordKey_add q' hc hd
  rw [le_iff, hk, hk']
  exact ⟨hn, hn', roundKey_mono h⟩

theorem ordKey_eq_zero_of_isZero {a : F64} (h : mag a = 0) : ordKey a = 0 := by
  have := ordKey_natAbs a
  omega

theorem isFinite_of_mag_le {a b : F64} (hb : isFinite b = true) (h : mag a ≤ mag b) : isFinite a = true :=
  (isFinite_iff a).mpr (h.trans_lt ((isFinite_iff b).mp hb))

theorem feq_self {a : F64} (h : isNaN a = false) : feq a a = true := by
  simp [feq, h]

/-- Adding a zero changes no value; of a zero it may change the sign. -/
theorem feq_add_of_isZero_right (q : BitVec 53) {a b : F64} (ha : isNaN a = false) (hb : mag b = 0) :
    feq (add q a b) a = true := by
  by_cases h0 : mag a = 0
  · have hfin : ∀ {z : F64}, mag z = 0 → isFinite z = true := fun hz => isFinite_of_mag_le (b := posZero) (by decide) hz.le
    have hval : ∀ {z : F64}, mag z = 0 → value z = 0 := fun hz => by simp [value, (units_eq_zero_iff _).mpr hz]
    obtain ⟨hn, hk⟩ := ordKey_add q (hfin h0) (hfin hb)
    rw [hval h0, hval hb] at hk
    simp [feq, hn, ha, hk, ordKey_eq_zero_of_isZero h0, roundKey]
  · rw [add_of_isZero_right_of_not_isNaN q ha hb h0]
    exact feq_self ha

/-! Products by a factor of at most one. -/

theorem mul_comm_of_isFinite (q : BitVec 53) {a b : F64} (ha : isFinite a = true) (hb : isFinite b = true) :
    mul q a b = mul q b a := by
  rw [mul_of_isFinite q ha hb, mul_of_isFinite q hb ha, Nat.mul_comm, bne_comm]

theorem isFinite_of_mag_le_c1 {a : F64} (h : mag a ≤ mag c1) : isFinite a = true :=
  isFinite_of_mag_le (b := c1) (by decide) h

/-- A factor of magnitude at most one makes no finite value larger. -/
theorem mag_mul_le_right (q : BitVec 53) {a b : F64} (ha : mag a ≤ mag c1) (hb : isFinite b = true) :
    mag (mul q a b) ≤ mag b := by
  rw [mul_of_isFinite q (isFinite_of_mag_le_c1 ha) hb, mag_round]
  have hu : units a ≤ units c1 := unitsOfMag_strictMono.monotone ha
  rw [units_c1] at hu
  refine roundUnits_le_of_le one1074_pos ((isFinite_iff b).mp hb).le ?_
  rw [Nat.mul_comm]
  exact Nat.mul_le_mul_left _ hu

theorem mag_mul_le_left (q : BitVec 53) {a b : F64} (ha : isFinite a = true) (hb : mag b ≤ mag c1) :
    mag (mul q a b) ≤ mag a := by
  rw [mul_comm_of_isFinite q ha (isFinite_of_mag_le_c1 hb)]
  exact mag_mul_le_right q hb ha

theorem le_posZero_iff (a : F64) : le posZero a = true ↔ isNaN a = false ∧ (sign a = false ∨ mag a = 0) := by
  have h0 : ordKey posZero = 0 := by decide
  rw [le_iff, h0, ordKey]
  cases sign a <;> simp [show isNaN posZero = false by decide]

/-- A product of finite values that are not negative is not negative. -/
theorem le_posZero_mul (q : BitVec 53) {a b : F64} (hfa : isFinite a = true) (hfb : isFinite b = true)
    (ha : le posZero a = true) (hb : le posZero b = true) : le posZero (mul q a b) = true := by
  obtain ⟨-, hsa | hza⟩ := (le_posZero_iff a).mp ha
  · obtain ⟨-, hsb | hzb⟩ := (le_posZero_iff b).mp hb
    · rw [mul_of_isFinite q hfa hfb, hsa, hsb]
      exact le_posZero_of_sign_false (isNaN_round _ _ _) (sign_round _ _ _)
    · rw [mul_comm_of_isFinite q hfa hfb, mul_of_isZero q hzb hfa]
      cases sign b != sign a <;> decide
  · rw [mul_of_isZero q hza hfb]
    cases sign a != sign b <;> decide

theorem value_le_units_of_mag_le {a b : F64} (h : mag a ≤ mag b) : -(units b : Int) ≤ value a ∧ value a ≤ units b := by
  have hu : units a ≤ units b := unitsOfMag_strictMono.monotone h
  have := value_natAbs a
  omega

/-- About a finite or infinite centre, a swing of at most `half` stays between the centre less `half` and the centre and
`half`, as rounded. -/
theorem add_within_of_mag_le (q q' : BitVec 53) {centre half swing : F64} (hc : isNaN centre = false)
    (hh : isFinite half = true) (h0 : le posZero half = true) (hs : mag swing ≤ mag half) :
    le (sub q centre half) (add q' centre swing) = true ∧ le (add q' centre swing) (add q centre half) = true := by
  have hfs := isFinite_of_mag_le hh hs
  obtain hfin | hinf := isFinite_or_isInf hc
  · obtain ⟨hlow, hhigh⟩ := value_le_units_of_mag_le hs
    have hv := value_eq_units_of_nonneg h0
    constructor
    · refine add_le_add_of_value_le q q' hfin (isFinite_neg hh) hfin hfs ?_
      rw [value_neg]
      omega
    · exact add_le_add_of_value_le q' q hfin hfs hfin hh (by omega)
  · have hself : le centre centre = true := (le_iff _ _).mpr ⟨hc, hc, le_rfl⟩
    rw [sub, add_of_isInf_left q hinf (isFinite_neg hh), add_of_isInf_left q' hinf hfs, add_of_isInf_left q hinf hh]
    exact ⟨hself, hself⟩

end Sys2Proof.Machine.Fp

namespace Sys2Proof.Machine

/-! The modulated delays (43_modulation R176, R177). -/

/-- Half a finite range is finite and no larger. -/
theorem mag_modHalf_le (q : BitVec 53) {mRng : F64} (h : Fp.isFinite mRng = true) :
    Fp.mag (Fp.mul q mRng Fp.c0p5) ≤ Fp.mag mRng :=
  Fp.mag_mul_le_left q h (by decide)

theorem isFinite_modHalf (q : BitVec 53) {mRng : F64} (h : Fp.isFinite mRng = true) :
    Fp.isFinite (Fp.mul q mRng Fp.c0p5) = true :=
  Fp.isFinite_of_mag_le h (mag_modHalf_le q h)

theorem isNaN_modCentre (q q' : BitVec 53) {mMin mRng : F64} (hmin : Fp.isFinite mMin = true)
    (hrng : Fp.isFinite mRng = true) : Fp.isNaN (Fp.add q mMin (Fp.mul q' mRng Fp.c0p5)) = false :=
  (Fp.ordKey_add q hmin (isFinite_modHalf q' hrng)).1

/-- Two factors of at most one, depth and LFO sample, make no span larger. -/
theorem mag_span_le (q q' : BitVec 53) {depth v span : F64} (hd : Fp.mag depth ≤ Fp.mag Fp.c1)
    (hv : Fp.mag v ≤ Fp.mag Fp.c1) (hspan : Fp.isFinite span = true) :
    Fp.mag (Fp.mul q (Fp.mul q' depth v) span) ≤ Fp.mag span :=
  Fp.mag_mul_le_right q ((Fp.mag_mul_le_left q' (Fp.isFinite_of_mag_le_c1 hd) hv).trans hd) hspan

/-- At depth zero the LFO's sample scales the span to a zero. -/
theorem mag_span_of_depth_zero (q q' : BitVec 53) {depth v span : F64} (hd : Fp.mag depth = 0)
    (hv : Fp.isFinite v = true) (hspan : Fp.isFinite span = true) :
    Fp.mag (Fp.mul q (Fp.mul q' depth v) span) = 0 :=
  Fp.mag_mul_of_isZero q (Fp.mag_mul_of_isZero q' hd hv) hspan

theorem delayUni_of_depth_zero (fr : FpSite → BitVec 53) {mMin mRng depth u : F64} (hmin : Fp.isFinite mMin = true)
    (hrng : Fp.isFinite mRng = true) (hd : Fp.mag depth = 0) (hu : Fp.isFinite u = true) :
    Fp.feq (delayUni fr mMin mRng depth u) mMin = true :=
  Fp.feq_add_of_isZero_right _ (Fp.isNaN_of_isFinite hmin) (mag_span_of_depth_zero _ _ hd hu hrng)

theorem delayBi_of_depth_zero (fr : FpSite → BitVec 53) {mMin mRng depth b : F64} (hmin : Fp.isFinite mMin = true)
    (hrng : Fp.isFinite mRng = true) (hd : Fp.mag depth = 0) (hb : Fp.isFinite b = true) :
    Fp.feq (delayBi fr mMin mRng depth b)
      (Fp.add (fr .modCentre) mMin (Fp.mul (fr .modHalf) mRng Fp.c0p5)) = true :=
  Fp.feq_add_of_isZero_right _ (isNaN_modCentre _ _ hmin hrng) (mag_span_of_depth_zero _ _ hd hb (isFinite_modHalf _ hrng))

theorem delayUni_within (fr : FpSite → BitVec 53) (q : BitVec 53) {mMin mRng depth u : F64}
    (hmin : Fp.isFinite mMin = true) (hmin0 : Fp.le Fp.posZero mMin = true) (hrng : Fp.isFinite mRng = true)
    (hrng0 : Fp.le Fp.posZero mRng = true) (hd0 : Fp.le Fp.posZero depth = true) (hd : Fp.mag depth ≤ Fp.mag Fp.c1)
    (hu0 : Fp.le Fp.posZero u = true) (hu : Fp.mag u ≤ Fp.mag Fp.c1) :
    Fp.le mMin (delayUni fr mMin mRng depth u) = true ∧
    Fp.le (delayUni fr mMin mRng depth u) (Fp.add q mMin mRng) = true := by
  have hfd := Fp.isFinite_of_mag_le_c1 hd
  have hscale := Fp.mag_mul_le_left (fr .modScale) hfd hu
  have hscale0 := Fp.le_posZero_mul (fr .modScale) hfd (Fp.isFinite_of_mag_le_c1 hu) hd0 hu0
  have hspan := mag_span_le (fr .modSpan) (fr .modScale) hd hu hrng
  have hspan0 := Fp.le_posZero_mul (fr .modSpan) (Fp.isFinite_of_mag_le hfd hscale) hrng hscale0 hrng0
  refine ⟨(Fp.add_of_nonneg_ge _ hmin hmin0 hspan0).1, ?_⟩
  refine Fp.add_le_add_of_value_le _ q hmin (Fp.isFinite_of_mag_le hrng hspan) hmin hrng ?_
  have hv := (Fp.value_le_units_of_mag_le hspan).2
  rw [← Fp.value_eq_units_of_nonneg hrng0] at hv
  omega

theorem delayBi_within (fr : FpSite → BitVec 53) (q : BitVec 53) {mMin mRng depth b : F64}
    (hmin : Fp.isFinite mMin = true) (hrng : Fp.isFinite mRng = true) (hrng0 : Fp.le Fp.posZero mRng = true)
    (hd : Fp.mag depth ≤ Fp.mag Fp.c1) (hb : Fp.mag b ≤ Fp.mag Fp.c1) :
    let half := Fp.mul (fr .modHalf) mRng Fp.c0p5
    let centre := Fp.add (fr .modCentre) mMin half
    Fp.le (Fp.sub q centre half) (delayBi fr mMin mRng depth b) = true ∧
    Fp.le (delayBi fr mMin mRng depth b) (Fp.add q centre half) = true := by
  have hhalf := isFinite_modHalf (fr .modHalf) hrng
  have hhalf0 := Fp.le_posZero_mul (fr .modHalf) (b := Fp.c0p5) hrng (by decide) hrng0 (by decide)
  exact Fp.add_within_of_mag_le q _ (isNaN_modCentre _ _ hmin hrng) hhalf hhalf0 (mag_span_le _ _ hd hb hhalf)

/-! A `PROC` whose LFO is too fast. -/

theorem procLfo_of_rate_error {P : Params} {fr : FpSite → BitVec 53} {s : State} (hm : s.param.enableMod = true)
    (hrate : Fp.lt (lfoInc fr s.param.modRateHz s.fs) Fp.c1 = false) : procLfo P fr s = .error .lfoRate := by
  obtain ⟨hoff, -⟩ | ⟨-, -, he⟩ | ⟨-, ht, -⟩ := procLfo_cases P fr s
  · cases hm.symm.trans hoff
  · exact he
  · cases hrate.symm.trans ht

theorem exec_proc_of_procLfo_error (x : F64) {s : State} {c : Cause} (hc : s.configured = true) (hv : s.paramsValid = true)
    (hl : procLfo Config.hw (Config.freeNan s.nanDraw) s = .error c) : exec (.proc x) s = .next (setFault c s) := by
  simp [exec, execProc, proc, hc, hv, hl]

/-! A `PROC` with another `modDepthPct`. -/

/-- The state with another `modDepthPct` in force. -/
def withModDepth (a : F64) (s : State) : State := { s with param := { s.param with modDepthPct := a } }

/-- A path whose depth the sidechain overrides reads no `modDepthPct` and hands on the one it was given
(43_modulation R174). -/
theorem runPath_withModDepth (P : Params) (fr : FpSite → BitVec 53) (x a d : F64) (lfo : Option LfoOut) (s : State) :
    runPath P fr x (some d) lfo (withModDepth a s) =
      (runPath P fr x (some d) lfo s).map (Prod.map id (withModDepth a)) := by
  have hsel : selectPath (withModDepth a s) lfo = selectPath s lfo := rfl
  unfold runPath
  rw [hsel]
  cases selectPath s lfo with
  | none =>
    have hpath : staticPath fr x (withModDepth a s) = staticPath fr x s := rfl
    simp only [hpath]
    cases staticPath fr x s <;> rfl
  | some mo =>
    have hpath : modPath P fr mo.1 x mo.2 (some d) (withModDepth a s) = modPath P fr mo.1 x mo.2 (some d) s := rfl
    simp only [hpath]
    cases modPath P fr mo.1 x mo.2 (some d) s <;> rfl

/-- With the sidechain on a `PROC` commutes with a change of `modDepthPct`. -/
theorem proc_withModDepth (P : Params) (fr : FpSite → BitVec 53) (x a : F64) {s : State}
    (h : s.param.enableSidechain = true) :
    proc P fr x (withModDepth a s) = (proc P fr x s).map (Prod.map id (withModDepth a)) := by
  have hc : (withModDepth a s).configured = s.configured := rfl
  have hv : (withModDepth a s).paramsValid = s.paramsValid := rfl
  have hlfo : procLfo P fr (withModDepth a s) = procLfo P fr s := rfl
  have hsc : procScDepth P fr s = some (scDepth P fr (detStepDb P fr (procEnv P fr s))) := if_pos h
  have hsc' : procScDepth P fr (withModDepth a s) = procScDepth P fr s := rfl
  have hunits : ∀ lfo, stepUnits (procEnv P fr (withModDepth a s)) (procPhase (withModDepth a s) lfo) (withModDepth a s) =
      withModDepth a (stepUnits (procEnv P fr s) (procPhase s lfo) s) := by
    rintro (_ | _) <;> rfl
  simp only [proc, hc, hv, hlfo, hsc', hsc, hunits, runPath_withModDepth]
  cases s.configured with
  | false => rfl
  | true =>
    cases s.paramsValid with
    | false => rfl
    | true =>
      cases procLfo P fr s with
      | error c => rfl
      | ok lfo =>
        simp only [if_true]
        cases runPath P fr x _ lfo _ <;> rfl

/-- A fault and the results of a command leave `modDepthPct` to itself. -/
theorem finish_withModDepth {a : F64} {s t : State} {r : Except Cause (List Word × State)} (h : finish s r = .next t) :
    finish (withModDepth a s) (r.map (Prod.map id (withModDepth a))) = .next (withModDepth a t) := by
  obtain ⟨c, rfl, rfl⟩ | ⟨ws, u, rfl, rfl⟩ := finish_eq_next_iff.mp h
  · rfl
  · rfl

end Sys2Proof.Machine

namespace Sys2Proof.Proofs

open Machine

/-- Settles O46: a zero depth scales the span to a zero, and adding a zero changes no value. -/
theorem depthZeroGivesMinimumOrCentre : Obligations.DepthZeroGivesMinimumOrCentre := by
  intro P fr m phase inc depth hd o
  refine ⟨delayUni_of_depth_zero fr (modMin_good P m _).1 (modRng_good P m _).1 hd (isFinite_unipolar P fr phase),
    fun t ht => ?_⟩
  rw [modDelayMs_eq, if_neg ht]
  exact delayBi_of_depth_zero fr (modMin_good P m t).1 (modRng_good P m t).1 hd (isFinite_lfoWave P phase)

/-- Settles O47: depth and sample are factors of at most one, and rounded sums compare as the exact ones do. -/
theorem modulatedDelayStaysInRange : Obligations.ModulatedDelayStaysInRange := by
  have hunit : ∀ {v : F64}, Fp.le Fp.posZero v = true → Fp.le v Fp.c1 = true → Fp.mag v ≤ Fp.mag Fp.c1 :=
    fun h0 h1 => (Fp.le_iff_mag_le h0 (by decide)).mp h1
  refine ⟨fun fr q mMin mRng depth u hmin hmin0 hrng hrng0 hd0 hd hu0 hu => ?_,
    fun fr q mMin mRng depth b hmin _ hrng hrng0 hd0 hd hb0 hb => ?_⟩
  · exact delayUni_within fr q hmin hmin0 hrng hrng0 hd0 (hunit hd0 hd) hu0 (hunit hu0 hu)
  · exact delayBi_within fr q hmin hrng hrng0 (hunit hd0 hd) (Fp.mag_le_of_within (hi := Fp.c1) hb0 hb (by decide))

/-- Settles O48: the sidechain's depth takes the place of the one `modDepthPct` gives, which nothing else reads. -/
theorem sidechainDepthIgnoresModDepth : Obligations.SidechainDepthIgnoresModDepth := by
  intro x a s t hsc h
  show finish (withModDepth a s) (proc Config.hw (Config.freeNan s.nanDraw) x (withModDepth a s)) = .next (withModDepth a t)
  rw [proc_withModDepth Config.hw (Config.freeNan s.nanDraw) x a hsc]
  exact finish_withModDepth h

/-- Settles O28: the LFO steps before either path, and its error ends the `PROC`. -/
theorem procLfoRateFaults : Obligations.ProcLfoRateFaults :=
  fun x _ hc hv hm hrate => exec_proc_of_procLfo_error x hc hv (procLfo_of_rate_error hm hrate)

end Sys2Proof.Proofs
end

section
/-!
PROOFS. The sidechain (44_sidechain): the aux-input commands, the detector's step on a NaN and on silence, and the range of
the override depth.
-/

namespace Sys2Proof.Machine.Fp

/-! The smaller of two values that are no NaN. -/

theorem fmin_eq_or_eq (q : BitVec 53) {a b : F64} (ha : isNaN a = false) (hb : isNaN b = false) :
    fmin q a b = a ∨ fmin q a b = b := by
  simp only [fmin, ha, hb, Bool.false_eq_true, if_false]
  split_ifs <;> simp

theorem fmin_le_right (q : BitVec 53) {a b : F64} (ha : isNaN a = false) (hb : isNaN b = false) :
    le (fmin q a b) b = true := by
  have hkey : ordKey a ≤ ordKey b → le a b = true := fun h => (le_iff a b).mpr ⟨ha, hb, h⟩
  have hself : le b b = true := (le_iff b b).mpr ⟨hb, hb, le_rfl⟩
  simp only [fmin, ha, hb, Bool.false_eq_true, if_false]
  split
  · next hlt => exact hkey hlt.le
  · split
    · exact hself
    · next hge =>
      split
      · exact hkey (not_lt.mp hge)
      · exact hself

/-! NaN operands. -/

theorem isNaN_abs (a : F64) : isNaN (abs a) = isNaN a := by
  simp only [isNaN, abs, mag_pack (mag_lt a)]

theorem isNaN_mul_of_isNaN_left (q : BitVec 53) {a : F64} (b : F64) (ha : isNaN a = true) : isNaN (mul q a b) = true := by
  simp [mul, ha]

theorem isNaN_add_of_isNaN_right (q : BitVec 53) (a : F64) {b : F64} (hb : isNaN b = true) : isNaN (add q a b) = true := by
  simp [add, hb]

theorem lt_of_isNaN_left {a : F64} (b : F64) (ha : isNaN a = true) : lt a b = false := by
  simp [lt, ha]

/-- `fmax` drops a NaN for `+0.0`. -/
theorem fmax_posZero_of_isNaN (q : BitVec 53) {a : F64} (ha : isNaN a = true) : fmax q a posZero = posZero := by
  simp [fmax, ha, show isNaN posZero = false by decide]

/-! Zero operands. -/

/-- A zero of either sign plus `+0.0` is `+0.0`. -/
theorem add_posZero_of_isZero (q : BitVec 53) {a : F64} (ha : mag a = 0) : add q a posZero = posZero := by
  have hfin : isFinite a = true := isFinite_of_mag_le (b := posZero) (by decide) ha.le
  have hval : value a = 0 := by simp [value, (units_eq_zero_iff a).mpr ha]
  rw [add_of_isFinite q hfin (by decide), hval, if_pos (by decide), show sign posZero = false by decide, Bool.and_false]
  rfl

theorem mul_posZero_self (q : BitVec 53) : mul q posZero posZero = posZero := by
  rw [mul_of_isZero q (by decide) (by decide)]
  rfl

theorem sqrt_posZero (q : BitVec 53) : sqrt q posZero = posZero := rfl

/-- The ends of the override depth's range meet exactly (44_sidechain R207). -/
theorem add_c0p2_c0p8 (q : BitVec 53) : add q c0p2 c0p8 = c1 := by
  rw [add_of_isFinite q (by decide) (by decide)]
  decide +kernel

end Sys2Proof.Machine.Fp

namespace Sys2Proof.Machine

/-! `AUXEN`. -/

theorem enableReservedZero_iff (e : Word) : enableReservedZero e = true ↔ e = 0#64 ∨ e = 1#64 := by
  rw [enableReservedZero, beq_iff_eq]
  constructor <;> intro h <;> bv_omega

/-! The detector (44_sidechain R204). -/

theorem isNaN_detSquare (fr : FpSite → BitVec 53) {a : F64} (h : Fp.isNaN a = true) : Fp.isNaN (detSquare fr a) = true :=
  Fp.isNaN_mul_of_isNaN_left _ _ ((Fp.isNaN_abs a).trans h)

@[simp] theorem detSquare_posZero (fr : FpSite → BitVec 53) : detSquare fr Fp.posZero = Fp.posZero :=
  Fp.mul_posZero_self _

theorem isNaN_detFollow (fr : FpSite → BitVec 53) (att rel env : F64) {v : F64} (h : Fp.isNaN v = true) :
    Fp.isNaN (detFollow fr att rel env v) = true :=
  Fp.isNaN_add_of_isNaN_right _ _ h

/-- Silence under a zero envelope releases, and the zero difference stays zero under every finite coefficient. -/
theorem detFollow_posZero (fr : FpSite → BitVec 53) (att : F64) {rel : F64} (hrel : Fp.isFinite rel = true) :
    detFollow fr att rel Fp.posZero Fp.posZero = Fp.posZero := by
  have hrelease : (if Fp.lt Fp.posZero Fp.posZero then att else rel) = rel := if_neg (by decide)
  rw [detFollow, hrelease, Fp.sub_self_of_nonneg _ (by decide) (by decide), Fp.mul_comm_of_isFinite _ hrel (by decide)]
  exact Fp.add_posZero_of_isZero _ (Fp.mag_mul_of_isZero _ (by decide) hrel)

theorem detSettle_of_isNaN (P : Params) (fr : FpSite → BitVec 53) {e : F64} (h : Fp.isNaN e = true) :
    detSettle P fr e = Fp.posZero := by
  rw [detSettle, Fp.lt_of_isNaN_left _ ((Fp.isNaN_abs e).trans h)]
  exact Fp.fmax_posZero_of_isNaN _ h

/-- A zero envelope settles to itself, whether or not `DET_FLUSH` flushes it. -/
@[simp] theorem detSettle_posZero (P : Params) (fr : FpSite → BitVec 53) : detSettle P fr Fp.posZero = Fp.posZero := by
  rw [detSettle, ite_self]
  rfl

/-- A zero envelope has no logarithm, and its level is the floor (44_sidechain R206). -/
@[simp] theorem detStepDb_posZero (P : Params) (fr : FpSite → BitVec 53) : detStepDb P fr Fp.posZero = P.detDbFloor := by
  rw [detStepDb, Fp.sqrt_posZero]
  exact if_pos (by decide)

/-! The override depth (44_sidechain R207). -/

/-- The unipolar value of `SC_DEPTH`, for every binary64 that `POW10` may answer. -/
theorem unipolarClamp_within (q q' : BitVec 53) (lin : F64) :
    Fp.le Fp.posZero (Fp.fmin q (Fp.fmax q' lin Fp.posZero) Fp.c1) = true ∧
    Fp.le (Fp.fmin q (Fp.fmax q' lin Fp.posZero) Fp.c1) Fp.c1 = true := by
  have h0 := Fp.le_posZero_fmax_posZero q' lin
  have hn : Fp.isNaN (Fp.fmax q' lin Fp.posZero) = false := ((Fp.le_iff _ _).mp h0).2.1
  refine ⟨?_, Fp.fmin_le_right q hn (by decide)⟩
  obtain h | h := Fp.fmin_eq_or_eq q hn (b := Fp.c1) (by decide)
  all_goals rw [h]
  · exact h0
  · decide

/-- A level in `[0.0, 1.0]` is mapped into `[0.2, 1.0]`: its product by `0.8` is from zero to `0.8`. -/
theorem depthOfLevel_within (q q' : BitVec 53) {v : F64} (h0 : Fp.le Fp.posZero v = true) (h1 : Fp.le v Fp.c1 = true) :
    Fp.le Fp.c0p2 (Fp.add q Fp.c0p2 (Fp.mul q' Fp.c0p8 v)) = true ∧
    Fp.le (Fp.add q Fp.c0p2 (Fp.mul q' Fp.c0p8 v)) Fp.c1 = true := by
  have hv : Fp.mag v ≤ Fp.mag Fp.c1 := (Fp.le_iff_mag_le h0 (by decide)).mp h1
  have hscaled : Fp.le Fp.posZero (Fp.mul q' Fp.c0p8 v) = true :=
    Fp.le_posZero_mul q' (by decide) (Fp.isFinite_of_mag_le_c1 hv) (by decide) h0
  have hmag : Fp.mag (Fp.mul q' Fp.c0p8 v) ≤ Fp.mag Fp.c0p8 := Fp.mag_mul_le_left q' (by decide) hv
  refine ⟨(Fp.add_of_nonneg_ge q (by decide) (by decide) hscaled).1, ?_⟩
  rw [← Fp.add_c0p2_c0p8 q]
  refine Fp.add_le_add_of_value_le q q (by decide) (Fp.isFinite_of_mag_le (by decide) hmag) (by decide) (by decide) ?_
  rw [Fp.value_eq_units_of_nonneg (a := Fp.c0p8) (by decide)]
  exact Int.add_le_add_left (Fp.value_le_units_of_mag_le hmag).2 _

end Sys2Proof.Machine

namespace Sys2Proof.Proofs

open Machine

/-- Settles O50: `SC_DEPTH` maps a level that is clamped to `[0.0, 1.0]`, whatever `POW10` answers. -/
theorem overrideDepthInRange : Obligations.OverrideDepthInRange := by
  intro P fr dB
  obtain ⟨h0, h1⟩ := unipolarClamp_within (fr .scHigh) (fr .scLow) (P.pow10 (Fp.div (fr .scExponent) dB Fp.c20))
  exact depthOfLevel_within (fr .scOffset) (fr .scScale) h0 h1

/-- Settles O51: the NaN passes through the square and the sum to the clamp, which drops it. -/
theorem nanInputClearsTheEnvelope : Obligations.NanInputClearsTheEnvelope :=
  fun P fr att rel env _ h => detSettle_of_isNaN P fr (isNaN_detFollow fr att rel env (isNaN_detSquare fr h))

/-- Settles O53: square, recursion and clamp each keep `+0.0`, and its level is the floor. -/
theorem silenceKeepsTheEnvelopeAtZero : Obligations.SilenceKeepsTheEnvelopeAtZero := by
  intro P fr att rel _ hrel
  have henv : detStepEnv P fr att rel Fp.posZero Fp.posZero = Fp.posZero := by
    rw [detStepEnv, detSquare_posZero, detFollow_posZero fr att hrel, detSettle_posZero]
  rw [henv]
  exact ⟨rfl, detStepDb_posZero P fr⟩

/-- Settles O22: the reserved bits are zero in exactly two operands, and their bit 0 is the new `AUX_EN`. -/
theorem auxenCompletes : Obligations.AuxenCompletes := by
  refine fun s => ⟨exec_auxen_of_reservedZero (by decide) s, exec_auxen_of_reservedZero (by decide) s, fun e h0 h1 => ?_⟩
  have hres : enableReservedZero e = false :=
    Bool.eq_false_iff.mpr fun h => ((enableReservedZero_iff e).mp h).elim h0 h1
  exact exec_auxen_of_not_reservedZero hres s

/-- Settles O23: `AUXIN` is the one writer of `AUX_SAMPLE`, and a fault leaves it too. -/
theorem auxinCompletes : Obligations.AuxinCompletes := by
  refine ⟨exec_auxin, fun x s t h => ?_⟩
  obtain ⟨c, rfl⟩ | hc := exec_cases h
  · exact setFault_auxSample c s
  · exact hc.auxSample_eq nofun

end Sys2Proof.Proofs
end

section
/-!
PROOFS. Control (45_control): what `RESET` answers to a rate that is refused, that has no room for its rings and that has
room, what it leaves alone, and the bits of the status word that `GETS` returns.
-/

namespace Sys2Proof.Machine

/-! What `RESET` answers. -/

theorem exec_reset_of_not_finitePositive {fs : F64} (h : finitePositive fs = false) (s : State) :
    exec (.reset fs) s = .next (setFault .badRate s) := by
  simp [exec, execReset, reset, h]

theorem exec_reset_of_no_room {fs : F64} (hrate : finitePositive fs = true)
    (hfull : maxRingLen Config.hw < ringLenFn Config.hw fs) (s : State) :
    exec (.reset fs) s = .next (returnWords [resetResult false] (unconfigure s)) := by
  simp [exec, execReset, reset, hrate, hfull]

theorem reset_of_room {P : Params} {fs : F64} (fr : FpSite → BitVec 53) (hrate : finitePositive fs = true)
    (hfits : ringLenFn P fs ≤ maxRingLen P) (s : State) :
    reset P fr fs s = .ok ([resetResult true],
      configure fs (Fp.div (fr .spms) fs Fp.c1000) (detCoef P Fp.c1 fs) (detCoef P Fp.c500 fs)
        (resetRings fs (ringLenFn P fs) s)) := by
  simp [reset, hrate, Nat.not_lt.mpr hfits]

theorem exec_reset_of_room {fs : F64} (hrate : finitePositive fs = true)
    (hfits : ringLenFn Config.hw fs ≤ maxRingLen Config.hw) (s : State) :
    exec (.reset fs) s = .next (returnWords [resetResult true]
      (configure fs (Fp.div (fixedNan .spms) fs Fp.c1000) (detCoef Config.hw Fp.c1 fs) (detCoef Config.hw Fp.c500 fs)
        (resetRings fs (ringLenFn Config.hw fs) s))) :=
  congrArg (finish s) (reset_of_room fixedNan hrate hfits s)

/-! The rings of a `RESET` at the unchanged rate. -/

theorem resetRings_of_unchanged_rate {fs : F64} {s : State} (hc : s.configured = true) (heq : Fp.feq fs s.fs = true)
    (L : Nat) : resetRings fs L s = flushRings s := by
  simp [resetRings, hc, heq]

@[simp] theorem ringCell_ringFlush (C : Nat) (r : Ring) (k : Nat) : ringCell C (ringFlush r) k = Fp.posZero := rfl

/-! What a completed command does to `CONFIGURED`, and what `RESET` leaves alone. -/

/-- Only a `RESET` that returns 1 configures an unconfigured block (45_control R222). -/
theorem Completes.exists_reset_of_configured {i : Instr} {s t : State} (h : Completes i s t) (hs : s.configured = false)
    (ht : t.configured = true) : ∃ fs, i = .reset fs ∧ t.hostOut = s.hostOut ++ [1#64] := by
  cases h
  case resetNoRoom => cases ht
  case resetDone fs _ _ => exact ⟨fs, rfl, by simp [resetRings_eq, resetResult]⟩
  all_goals exact absurd (hs.symm.trans ht) Bool.false_ne_true

/-- The command stream and the draw of free NaN bits are no part of what `RESET` writes. -/
theorem Completes.stream_eq_of_reset {fs : F64} {s t : State} (h : Completes (.reset fs) s t) :
    t.hostIn = s.hostIn ∧ t.nanDraw = s.nanDraw := by
  cases h
  all_goals simp [resetRings_eq]

/-! The status word, bit by bit (30_encoding R81). The appends are split before `simp` evaluates their widths. -/

theorem getLsbD_statusWord_flags (s : State) :
    (statusWord s).getLsbD 0 = s.configured ∧ (statusWord s).getLsbD 1 = s.paramsValid ∧
      (statusWord s).getLsbD 2 = s.auxEn := by
  simp only [statusWord, BitVec.getLsbD_setWidth, BitVec.getLsbD_append]
  simp

/-- Above the three flags stand the bits of `LAST_PATH`, and zeros. -/
theorem getLsbD_statusWord_add_three (s : State) (i : Nat) :
    (statusWord s).getLsbD (3 + i) = (pathCode s.lastPath).getLsbD i := by
  simp only [statusWord, BitVec.getLsbD_setWidth, BitVec.getLsbD_append]
  by_cases hi : i < 2
  · have hwidth : 3 + i < 64 := by omega
    simp [hwidth]
  · simp [BitVec.getLsbD_of_ge _ i (Nat.not_lt.mp hi)]

theorem extractLsb'_statusWord_path (s : State) : (statusWord s).extractLsb' 3 2 = pathCode s.lastPath := by
  ext i hi
  rw [BitVec.getElem_extractLsb', getLsbD_statusWord_add_three, BitVec.getLsbD_eq_getElem hi]

theorem extractLsb'_statusWord_reserved (s : State) : (statusWord s).extractLsb' 5 59 = 0#59 := by
  ext i hi
  have hsplit : 5 + i = 3 + (2 + i) := by omega
  rw [BitVec.getElem_extractLsb', hsplit, getLsbD_statusWord_add_three, BitVec.getLsbD_of_ge _ _ (Nat.le_add_right 2 i),
    BitVec.getElem_zero]

end Sys2Proof.Machine

namespace Sys2Proof.Proofs

open Machine

/-- Settles O12: the two answers to a legal rate, with `resetRings` written out as one record. -/
theorem resetCompletes : Obligations.ResetCompletes := by
  intro fs s hfin hpos
  have hrate : finitePositive fs = true := (finitePositive_iff fs).mpr ⟨hfin, hpos⟩
  split
  next hfull => exact exec_reset_of_no_room hrate hfull s
  next hfits =>
    rw [exec_reset_of_room hrate (Nat.not_lt.mp hfits), resetRings_eq]
    simp only [Bool.and_eq_true]
    rfl

/-- Settles O11: a rate with no room, then `PROC` and every other command at an unconfigured block. -/
theorem resetCapacityFailure : Obligations.ResetCapacityFailure := by
  refine ⟨fun fs s hfin hpos hfull => ?_, fun x _ => exec_proc_of_not_configured x, fun i s t hs h hone => ?_⟩
  · exact exec_reset_of_no_room ((finitePositive_iff fs).mpr ⟨hfin, hpos⟩) hfull s
  · obtain ⟨c, rfl⟩ | hc := exec_cases h
    · exact hs
    · refine Bool.eq_false_iff.mpr fun ht => ?_
      obtain ⟨fs, hi, hout⟩ := hc.exists_reset_of_configured hs ht
      exact hone fs hi hout

/-- Settles O13: `resetRings` flushes at the unchanged rate, and a flushed ring reads `+0.0` everywhere. -/
theorem unchangedRateResetFlushes : Obligations.UnchangedRateResetFlushes := by
  intro P fr fs s hc hrate heq hfits
  refine ⟨_, reset_of_room fr hrate hfits s, ?_⟩
  rw [resetRings_of_unchanged_rate hc heq]
  exact ⟨rfl, rfl, fun k => ⟨ringCell_ringFlush _ s.sRing k, ringCell_ringFlush _ s.mRing k⟩⟩

/-- Settles O14: the parameters, the aux input and the stream each belong to another command. -/
theorem resetFrame : Obligations.ResetFrame := by
  intro fs s t h
  obtain ⟨c, rfl⟩ | hc := exec_cases h
  · simp
  · obtain ⟨hparam, hvalid, hcount, htaps⟩ := hc.params_eq nofun
    obtain ⟨hin, hdraw⟩ := hc.stream_eq_of_reset
    exact ⟨hparam, hvalid, hcount, htaps, hc.auxEn_eq nofun, hc.auxSample_eq nofun, hin, hdraw⟩

/-- Settles O24: the word is `statusWord`, whose fields are read off bit by bit. -/
theorem getsCompletes : Obligations.GetsCompletes := by
  intro s
  obtain ⟨hconf, hvalid, haux⟩ := getLsbD_statusWord_flags s
  exact ⟨statusWord s, exec_gets s, hconf, hvalid, haux, extractLsb'_statusWord_path s,
    extractLsb'_statusWord_reserved s⟩

/-- Settles O10: such a rate fails `finitePositive`, the one guard of `F_BAD_RATE`. -/
theorem resetRefusesBadRate : Obligations.ResetRefusesBadRate :=
  fun _ s h => exec_reset_of_not_finitePositive (Bool.and_eq_false_iff.mpr h) s

end Sys2Proof.Proofs
end

section
/-!
PROOFS. Exceptions (60_exceptions): a fault is final and changes nothing else, a step waits for a whole command, and the
channels of a system are independent.
-/

namespace Sys2Proof

/-! A command whose operand words have not all arrived (30_encoding R83). -/

theorem takeWords_eq_none_of_length_lt {n : Nat} {bs : List Byte} (h : bs.length < 8 * n) : takeWords n bs = none := by
  refine Option.eq_none_iff_forall_ne_some.mpr fun ⟨ws, rest⟩ hw => ?_
  obtain ⟨rfl, rfl⟩ := takeWords_eq_some_iff.mp hw
  rw [List.length_append, length_flatMap_wordBytes] at h
  omega

theorem decode_eq_incomplete_of_length_lt {b : Byte} {op : Opcode} {bs : List Byte} (hb : decodeByte b = some op)
    (h : bs.length < 8 * operandWords op) : decode (b :: bs) = .incomplete := by
  simp [decode, hb, takeWords_eq_none_of_length_lt h]

namespace Machine

/-! The two states in which no command is performed. -/

theorem step_of_fault {s : State} (hf : s.fault = true) : step s = .fault (.stuck s.faultCause) := by
  simp [step, hf]

theorem step_of_decode_eq_incomplete {s : State} (hf : s.fault = false) (hd : decode s.hostIn = .incomplete) :
    step s = .next s := by
  simp [step, hf, hd]

/-! The source of the free NaN bits (00_scope R9). -/

theorem Completes.nanDraw_source_eq {i : Instr} {s t : State} (h : Completes i s t) :
    t.nanDraw.source = s.nanDraw.source := by
  cases h
  all_goals simp [resetRings_eq, procUnits]

theorem nanDraw_source_eq_of_step {s t : State} (h : step s = .next t) : t.nanDraw.source = s.nanDraw.source :=
  step_keeps (Q := fun u => u.nanDraw.source = s.nanDraw.source) (fun _ _ hq => hq) (fun _ _ hq => hq)
    (fun _ _ _ hc hq => hc.nanDraw_source_eq.trans hq) rfl h

/-! One step of one channel. -/

/-- A system's step that answers: the channel does not exist and nothing moves, or its own step replaces it. -/
theorem stepChannel_eq_next_iff {k : Nat} {sys sys' : System} :
    stepChannel k sys = .next sys' ↔
      (sys.channels[k]? = none ∧ sys' = sys) ∨
      (∃ s t, sys.channels[k]? = some s ∧ step s = .next t ∧ sys' = ⟨sys.channels.set k t⟩) := by
  unfold stepChannel
  cases sys.channels[k]? with
  | none => simp [eq_comm]
  | some s => cases hstep : step s <;> simp [hstep, eq_comm]

/-- At power-on each channel of the system starts on its own (60_exceptions R251). -/
theorem systemReset_getElem? (k : Nat) :
    systemReset.channels[k]? = if k < Config.hw.nChannels then some (instanceReset k) else none := by
  split
  · next hk => simp [systemReset, hk]
  · next hk => simpa [systemReset] using hk

end Machine

end Sys2Proof

namespace Sys2Proof.Proofs

open Machine

/-- Settles O7: a faulted state steps no more, and since no completed command sets `FAULT`, a newly faulted state is the one
the command found with only the fault recorded. -/
theorem faultIsFinalAndLeavesTheRest : Obligations.FaultIsFinalAndLeavesTheRest := by
  refine ⟨fun _ => step_of_fault, fun i s t hs h ht => ?_⟩
  obtain ⟨c, rfl⟩ | hc := exec_cases h
  · exact ⟨c, rfl⟩
  · have hkept : t.fault = s.fault := hc.fault_eq.1
    exact absurd (ht.symm.trans (hkept.trans hs)) Bool.false_ne_true.symm

/-- Settles O58: one channel of the list is replaced by what its own step answers, and each starts with its own source. -/
theorem channelsAreIndependent : Obligations.ChannelsAreIndependent := by
  refine ⟨fun k sys sys' h => ?_, systemReset_getElem?⟩
  obtain ⟨hnone, rfl⟩ | ⟨s, t, hs, hstep, rfl⟩ := stepChannel_eq_next_iff.mp h
  · exact ⟨fun _ _ => rfl, fun _ hs => nomatch hnone.symm.trans hs⟩
  · refine ⟨fun j hj => List.getElem?_set_ne hj.symm, fun u hu => ?_⟩
    obtain rfl : s = u := Option.some.inj (hs.symm.trans hu)
    have hk : k < sys.channels.length := (List.getElem?_eq_some_iff.mp hs).1
    exact ⟨t, hstep, List.getElem?_set_self hk, nanDraw_source_eq_of_step hstep⟩

/-- Settles O8: an empty stream and too few operand bytes both decode as incomplete. -/
theorem waitsForAWholeCommand : Obligations.WaitsForAWholeCommand := by
  refine ⟨fun s hf hin => ?_, fun s b op bs hf hin hb hlen => ?_⟩
  · exact step_of_decode_eq_incomplete hf (congrArg decode hin)
  · exact step_of_decode_eq_incomplete hf ((congrArg decode hin).trans (decode_eq_incomplete_of_length_lt hb hlen))

end Sys2Proof.Proofs
end

section
/-!
PROOFS. Power-on (70_reset_and_hazards R260): the values of the elements that have one.
-/

namespace Sys2Proof.Proofs

open Machine

/-- Settles O54: each of the seven values is the field of `State.reset` itself; the zero `AUX_SAMPLE` is stored with is the
bit pattern of `+0.0`. -/
theorem powerOnState : Obligations.PowerOnState :=
  ⟨rfl, rfl, rfl, rfl, rfl, rfl, rfl⟩

end Sys2Proof.Proofs
end
